-- ==== Sys2Proof/Word.lean ====
section
/-!
DEFINITION. The word types of the block. Bit 0 is the least significant bit (00_scope.md R10).
-/

namespace Sys2Proof

/-- A register-window word, and a command word (00_scope.md R2, 30_encoding.md R70). -/
abbrev Word := BitVec 32

/-- One byte: a cell of `TBL`, `IN` or `OUT`, a literal, a control byte (00_scope.md R10). -/
abbrev Byte := BitVec 8

/-- A predictor-table key, `NUMBITS` = 12 bits (00_scope.md R7, 40_context_hash_table.md R102). -/
abbrev Key := BitVec 12

/-- The context register's contents, `CTX_W` = 64 bits (00_scope.md R7, 10_state.md R22). -/
abbrev Ctx := BitVec 64

end Sys2Proof
end

