-- ==== Sys2Proof/Machine/Operands.lean ====
section
/-!
DEFINITION. The fields of a command word and the operands they give (30_encoding.md R71, R72).
-/

namespace Sys2Proof.Machine

/-- `OP` = `w[31:28]` (30_encoding.md R71). -/
def opField (w : Word) : BitVec 4 := w.extractLsb' 28 4

/-- `key` = `w[19:8]`, an unsigned 12-bit index, used as it stands (30_encoding.md R72). -/
def keyOperand (w : Word) : Key := w.extractLsb' 8 12

/-- `data` = `w[7:0]`, an unsigned byte, used as it stands (30_encoding.md R72). -/
def dataOperand (w : Word) : Byte := w.extractLsb' 0 8

end Sys2Proof.Machine
end

