-- ==== Sys2Proof/Syntax.lean ====
section
/-!
DEFINITION. The commands of PPMC-CMD version 1, one constructor per row of spec/opcode_table.json
(30_encoding.md R73), and the assembler's source lines (30_encoding.md R76).
-/

namespace Sys2Proof

/-- The twelve commands. An operand is held at the width of its field, so every term is a command
that some word encodes: a 12-bit key needs no range check (30_encoding.md R72). -/
inductive Instr where
  /-- `NOP` (44_session_control.md R210) -/
  | nop
  /-- `INIT` (44_session_control.md R211) -/
  | init
  /-- `ENC_START` (42_encoder.md R150) -/
  | encStart
  /-- `ENC_STEP` (42_encoder.md R151) -/
  | encStep
  /-- `DEC_START` (43_decoder.md R180) -/
  | decStart
  /-- `DEC_STEP` (43_decoder.md R181) -/
  | decStep
  /-- `COMPRESS` (42_encoder.md R157) -/
  | compress
  /-- `DECOMPRESS` (43_decoder.md R186) -/
  | decompress
  /-- `CTX_ADVANCE data` (40_context_hash_table.md R107) -/
  | ctxAdvance (data : Byte)
  /-- `CTX_HASH` (40_context_hash_table.md R108) -/
  | ctxHash
  /-- `TBL_PREDICT key` (40_context_hash_table.md R109) -/
  | tblPredict (key : Key)
  /-- `TBL_UPDATE key, data` (40_context_hash_table.md R110) -/
  | tblUpdate (key : Key) (data : Byte)
deriving DecidableEq, Repr

/-- The mnemonics of the opcode map, without operands (30_encoding.md R73). -/
inductive Mnemonic where
  | nop | init | encStart | encStep | decStart | decStep | compress | decompress
  | ctxAdvance | ctxHash | tblPredict | tblUpdate
deriving DecidableEq, Repr

/-- The four formats of a command word (30_encoding.md R71). -/
inductive Format where
  /-- `OP` only -/
  | z
  /-- `OP` and `DATA` -/
  | d
  /-- `OP` and `KEY` -/
  | k
  /-- `OP`, `KEY` and `DATA` -/
  | kd
deriving DecidableEq, Repr

/-- One command line of the assembler: a mnemonic and its operands as the numbers written
(30_encoding.md R76). The host actions of the same listings are `Machine.Access`. -/
structure AsmLine where
  mnemonic : Mnemonic
  operands : List Nat
deriving DecidableEq, Repr

end Sys2Proof
end

