-- ==== Sys2Proof/WellFormed.lean ====
section
/-!
DEFINITION. Which command lines an assembler accepts (30_encoding.md R76): the operand count of each
mnemonic, a byte in 0 to 255, a key in 0 to 4095. A term of `Instr` holds its operands at the
fields' widths and so is always well formed (30_encoding.md R72).
-/

namespace Sys2Proof

/-- A byte operand is in range: 0 to 255 (30_encoding.md R76). -/
def byteInRange (n : Nat) : Bool := decide (n < 256)

/-- A key operand is in range: 0 to 4095 (30_encoding.md R76). -/
def keyInRange (n : Nat) : Bool := decide (n < 4096)

/-- The instruction an accepted line names; `none` where the assembler refuses the line, for its
operand count or for an operand out of range (30_encoding.md R76). -/
def AsmLine.instr? (l : AsmLine) : Option Instr :=
  match l.mnemonic, l.operands with
  | .nop, [] => some .nop
  | .init, [] => some .init
  | .encStart, [] => some .encStart
  | .encStep, [] => some .encStep
  | .decStart, [] => some .decStart
  | .decStep, [] => some .decStep
  | .compress, [] => some .compress
  | .decompress, [] => some .decompress
  | .ctxHash, [] => some .ctxHash
  | .ctxAdvance, [d] => if byteInRange d then some (.ctxAdvance (BitVec.ofNat 8 d)) else none
  | .tblPredict, [k] => if keyInRange k then some (.tblPredict (BitVec.ofNat 12 k)) else none
  | .tblUpdate, [k, d] =>
    if keyInRange k && byteInRange d then
      some (.tblUpdate (BitVec.ofNat 12 k) (BitVec.ofNat 8 d))
    else none
  | _, _ => none

/-- The assembler accepts the line. -/
def AsmLine.wellFormed (l : AsmLine) : Bool := l.instr?.isSome

/-- The line that lists an instruction. -/
def Instr.line : Instr → AsmLine
  | .nop => ⟨.nop, []⟩
  | .init => ⟨.init, []⟩
  | .encStart => ⟨.encStart, []⟩
  | .encStep => ⟨.encStep, []⟩
  | .decStart => ⟨.decStart, []⟩
  | .decStep => ⟨.decStep, []⟩
  | .compress => ⟨.compress, []⟩
  | .decompress => ⟨.decompress, []⟩
  | .ctxAdvance data => ⟨.ctxAdvance, [data.toNat]⟩
  | .ctxHash => ⟨.ctxHash, []⟩
  | .tblPredict key => ⟨.tblPredict, [key.toNat]⟩
  | .tblUpdate key data => ⟨.tblUpdate, [key.toNat, data.toNat]⟩

end Sys2Proof
end

