-- ==== Sys2Proof/Decode.lean ====
section
/-!
DEFINITION. The command word's decoder and encoder (30_encoding.md R71 to R74, R76).
-/

namespace Sys2Proof

open Machine (opField keyOperand dataOperand)

/-- Why a word is no command. Both raise `IllegalCommand` (30_encoding.md R74). -/
inductive DecodeError where
  /-- `OP` is 0xC to 0xF. -/
  | reservedOpcode
  /-- A bit that the command's format requires to be zero is 1. -/
  | reservedBits
deriving DecidableEq, Repr

/-- The bits each format requires to be zero (30_encoding.md R71). -/
def zeroMask : Format → Word
  | .z => 0x0FFFFFFF#32
  | .d => 0x0FFFFF00#32
  | .k => 0x0FF000FF#32
  | .kd => 0x0FF00000#32

/-- The opcode of a command (30_encoding.md R73). -/
def opcode : Mnemonic → BitVec 4
  | .nop => 0x0#4
  | .init => 0x1#4
  | .encStart => 0x2#4
  | .encStep => 0x3#4
  | .decStart => 0x4#4
  | .decStep => 0x5#4
  | .compress => 0x6#4
  | .decompress => 0x7#4
  | .ctxAdvance => 0x8#4
  | .ctxHash => 0x9#4
  | .tblPredict => 0xA#4
  | .tblUpdate => 0xB#4

/-- The format of a command (30_encoding.md R73). -/
def format : Mnemonic → Format
  | .ctxAdvance => .d
  | .tblPredict => .k
  | .tblUpdate => .kd
  | .nop | .init | .encStart | .encStep | .decStart | .decStep => .z
  | .compress | .decompress | .ctxHash => .z

/-- The command an opcode selects; `none` for the reserved 0xC to 0xF (30_encoding.md R73). -/
def mnemonicOf (op : BitVec 4) : Option Mnemonic :=
  match op.toNat with
  | 0x0 => some .nop
  | 0x1 => some .init
  | 0x2 => some .encStart
  | 0x3 => some .encStep
  | 0x4 => some .decStart
  | 0x5 => some .decStep
  | 0x6 => some .compress
  | 0x7 => some .decompress
  | 0x8 => some .ctxAdvance
  | 0x9 => some .ctxHash
  | 0xA => some .tblPredict
  | 0xB => some .tblUpdate
  | _ => none

/-- The command with its operands taken from the word's fields (30_encoding.md R72). -/
def withOperands (m : Mnemonic) (w : Word) : Instr :=
  match m with
  | .nop => .nop
  | .init => .init
  | .encStart => .encStart
  | .encStep => .encStep
  | .decStart => .decStart
  | .decStep => .decStep
  | .compress => .compress
  | .decompress => .decompress
  | .ctxAdvance => .ctxAdvance (dataOperand w)
  | .ctxHash => .ctxHash
  | .tblPredict => .tblPredict (keyOperand w)
  | .tblUpdate => .tblUpdate (keyOperand w) (dataOperand w)

/-- Decode a command word (30_encoding.md R73): the opcode first, then the must-be-zero bits of its
format. -/
def decode (w : Word) : Except DecodeError Instr :=
  match mnemonicOf (opField w) with
  | none => .error .reservedOpcode
  | some m =>
    if w &&& zeroMask (format m) = 0#32 then .ok (withOperands m w) else .error .reservedBits

/-- The host's table reader: the instruction in the word whose low `nbits` bits are `w`'s. -/
def decodeTableWord (nbits w : Nat) : Option Instr :=
  (decode (BitVec.ofNat 32 (w % 2 ^ nbits))).toOption

/-- The mnemonic of an instruction. -/
def Instr.mnemonic : Instr → Mnemonic
  | .nop => .nop
  | .init => .init
  | .encStart => .encStart
  | .encStep => .encStep
  | .decStart => .decStart
  | .decStep => .decStep
  | .compress => .compress
  | .decompress => .decompress
  | .ctxAdvance _ => .ctxAdvance
  | .ctxHash => .ctxHash
  | .tblPredict _ => .tblPredict
  | .tblUpdate _ _ => .tblUpdate

/-- `(OP << 28) | (key << 8) | data` (30_encoding.md R76). -/
def packWord (op : BitVec 4) (key : Key) (data : Byte) : Word :=
  (op.setWidth 32 <<< 28) ||| (key.setWidth 32 <<< 8) ||| data.setWidth 32

/-- The word of an instruction, its unused fields 0 (30_encoding.md R76). -/
def encode (i : Instr) : Word :=
  match i with
  | .ctxAdvance data => packWord (opcode i.mnemonic) 0#12 data
  | .tblPredict key => packWord (opcode i.mnemonic) key 0#8
  | .tblUpdate key data => packWord (opcode i.mnemonic) key data
  | .nop | .init | .encStart | .encStep | .decStart | .decStep => packWord (opcode i.mnemonic) 0#12 0#8
  | .compress | .decompress | .ctxHash => packWord (opcode i.mnemonic) 0#12 0#8

/-- The word an assembler makes of a command line; `none` where it refuses the line
(30_encoding.md R76). -/
def assemble (l : AsmLine) : Option Word := l.instr?.map encode

end Sys2Proof
end

