-- ==== Sys2Proof/Machine/Flags.lean ====
section
/-!
DEFINITION. The control-flag codec (41_control_flags.md). The block has no condition codes
(10_state.md R30): its only flags are the eight slots of a control byte. Slot `i` is bit `7 - i`,
of weight `0x80 >> i` (00_scope.md R11).
-/

namespace Sys2Proof.Machine

/-- `flag_set(f, i) = f | (0x80 >> i)` (41_control_flags.md R130). -/
def flagSet (f : Byte) (i : Nat) : Byte := f ||| (0x80#8 >>> i)

/-- `flag_test(c, i) = ((c >> (7 - i)) & 1) = 1` (41_control_flags.md R131). -/
def flagTest (c : Byte) (i : Nat) : Bool := (c >>> (7 - i)) &&& 1#8 == 1#8

end Sys2Proof.Machine
end

