-- ==== Sys2Proof/Config.lean ====
section
/-!
DEFINITION. What is fixed for one machine: the parameters of 00_scope.md R7, the open parameters of
the platform, and the free values the spec leaves unspecified. An `opaque` constant has no body:
nothing can be proved of its value, so a claim about the model holds for every value of it.
-/

namespace Sys2Proof.Config

/-- `ORDER`: bytes of history in the context (00_scope.md R7). Hard-wired (R8). -/
def order : Nat := 3

/-- `NUMBITS`: bits of the hash key (00_scope.md R7). Hard-wired (R8). -/
def numBits : Nat := 12

/-- The PPMC-CMD interface version, as `PARAM` shows it (10_state.md R37). -/
def version : Nat := 1

/-- `TBL_SIZE`: predictor-table slots (00_scope.md R7). -/
def tblSize : Nat := 4096

/-- `CTX_MASK`, the mask `advance` applies (00_scope.md R7). -/
def ctxMask : Ctx := 0xFFFFFF#64

/-- `MIXER`, the odd 64-bit multiplier (00_scope.md R7).
UNVERIFIED: the literal is unaudited (93_implementation_defined.md U1), log 19. -/
def mixer : Ctx := 0xff51afd7ed558ccd#64

/-- `SHIFT` = 64 - `NUMBITS`, the right shift of the product (00_scope.md R7). -/
def shift : Nat := 52

/-- `IN_CAP`, the largest input the block accepts: OPEN, 0 ≤ `IN_CAP` ≤ 2^32 − 1 (00_scope.md R7,
92_eei_decisions.md D12). A free constant, log 1. -/
opaque inCapWord : Word

/-- `IN_CAP` as a count of bytes. -/
def inCap : Nat := inCapWord.toNat

/-- `OUT_CAP` − 1: OPEN, 1 ≤ `OUT_CAP` ≤ 2^32 − 1 (00_scope.md R7, 92_eei_decisions.md D11).
A free constant, log 1. -/
opaque outCapLessOne : Fin 4294967295

/-- `OUT_CAP`, the capacity of the output buffer in bytes. -/
def outCap : Nat := outCapLessOne.val + 1

/-- The byte a `TBL` slot holds after the `n`-th reset, before anything writes it: any value, per
slot (10_state.md R43, 93_implementation_defined.md U3). A free value, log 2. -/
opaque tblUnspecified (n k : Nat) : Byte

/-- The byte a read of `OUT[p]` gives at `OUT_LEN` and beyond, after `n` host writes and resets: any
value (10_state.md R41, 93_implementation_defined.md U4). A free value, log 3. -/
opaque outUnspecified (n p : Nat) : Byte

/-- The byte `IN[p]` holds while the host has not placed one there: the spec gives none
(70_reset_and_hazards.md R252). A free value, log 4. -/
opaque inUnplaced (p : Nat) : Byte

/-- `PLATFORM_MAP`: the base of `IN` in the host's addresses, OPEN (20_memory.md R57,
92_eei_decisions.md D42). No rule depends on it, log 14. -/
opaque inBase : Nat

/-- `PLATFORM_MAP`: the base of `OUT` in the host's addresses, OPEN (20_memory.md R57), log 14. -/
opaque outBase : Nat

/-- `PLATFORM_MAP`: the base of the register window in the host's addresses, OPEN
(20_memory.md R57), log 14. -/
opaque windowBase : Nat

end Sys2Proof.Config
end

