-- ==== Sys2Proof/Machine/State.lean ====
section
/-!
DEFINITION. The machine's state (10_state.md R20 and R43), the host accesses it answers, the reasons a
step can stop, and the state right after reset.
-/

namespace Sys2Proof.Machine

/-- `MODE` (10_state.md R26). -/
inductive Mode where
  /-- 0: no session -/
  | idle
  /-- 1: an encoder session is running -/
  | enc
  /-- 2: a decoder session is running -/
  | dec
  /-- 3: the last session has ended -/
  | done
deriving DecidableEq, Repr

/-- `STATUS.STOP`: why the last session ended (10_state.md R27). -/
inductive Stop where
  /-- 0: no session has ended -/
  | none
  /-- 1: the encoder finalised its last control byte -/
  | encEnd
  /-- 2: the decoder needed a control byte and none remained -/
  | noCtrl
  /-- 3: the decoder needed a literal and none remained -/
  | noLit
deriving DecidableEq, Repr

/-- The four interface faults (60_exceptions.md R221). They are the block's own, recorded by
`raise`, and none of them stops the machine. -/
inductive Cause where
  | illegalCommand
  | sequenceError
  | outOverflow
  | badLength
deriving DecidableEq, Repr

/-- `STATUS.ECODE` (10_state.md R28). Codes 5 to 7 are never written, so no constructor stands for
them. -/
inductive ECode where
  /-- 0 -/
  | none
  /-- 1 -/
  | illegalCmd
  /-- 2 -/
  | sequence
  /-- 3 -/
  | outOverflow
  /-- 4 -/
  | badLength
deriving DecidableEq, Repr

/-- The width of an access to the register window. Only a 32-bit one is admitted (20_memory.md R53). -/
inductive Width where
  | byte
  | half
  | word
deriving DecidableEq, Repr

/-- One thing the host or the platform does to the block (00_scope.md R15, 20_memory.md R57,
30_encoding.md R76). A write of a word to `CMD` is what runs a command. -/
inductive Access where
  /-- a write of the register window at a byte offset -/
  | write (off : Nat) (width : Width) (value : Word)
  /-- a read of the register window at a byte offset -/
  | read (off : Nat) (width : Width)
  /-- `LOAD_IN [b0, b1, ...]`: fill `IN[0..]` -/
  | loadIn (bytes : List Byte)
  /-- the host places one byte of `IN` -/
  | writeIn (p : Nat) (b : Byte)
  /-- the host reads one byte of `IN` -/
  | readIn (p : Nat)
  /-- the host reads one byte of `OUT` -/
  | readOut (p : Nat)
  /-- the platform asserts reset (70_reset_and_hazards.md R250) -/
  | reset
deriving DecidableEq, Repr

/-- Bytes by index, as (index, byte) pairs with the indices strictly rising. An index that is not
listed holds no value the spec states. -/
abbrev Memory := List Host.Cell

/-- What a slot of `TBL` that is not listed holds. -/
inductive TableBase where
  /-- no value the spec states: nothing has written the slot since reset
  (93_implementation_defined.md U3) -/
  | unspecified
  /-- 0x00: `INIT` or a start command has zeroed the table (44_session_control.md R211) -/
  | zeroed
deriving DecidableEq, Repr

/-- The predictor table (10_state.md R39): the listed slots over what the others hold. -/
structure Table where
  base : TableBase
  cells : Memory
deriving DecidableEq, Repr

/-- Everything the spec gives the machine (10_state.md R20), and below it the model's own fields. -/
structure State where
  /-- `CTX` (10_state.md R22) -/
  ctx : Ctx
  /-- `RESULT` (10_state.md R24) -/
  result : BitVec 16
  /-- `MODE` (10_state.md R26) -/
  mode : Mode
  /-- `STATUS.STOP` (10_state.md R27) -/
  stop : Stop
  /-- `STATUS.ERR` (10_state.md R28) -/
  err : Bool
  /-- `STATUS.ECODE` (10_state.md R28) -/
  ecode : ECode
  /-- `STATUS.BUSY` (10_state.md R29) -/
  busy : Bool
  /-- `FAULT_INFO` (10_state.md R28) -/
  faultInfo : Word
  /-- `IN_LEN` (10_state.md R31) -/
  inLen : Word
  /-- `IN_POS` (10_state.md R31) -/
  inPos : Word
  /-- `OUT_LEN` (10_state.md R31) -/
  outLen : Word
  /-- `E_FLAGS` (10_state.md R32) -/
  eFlags : Byte
  /-- `E_BITPOS` (10_state.md R32) -/
  eBitpos : BitVec 3
  /-- `E_FLAGPOS` (10_state.md R32) -/
  eFlagpos : Word
  /-- `D_CTRL` (10_state.md R33) -/
  dCtrl : Byte
  /-- `D_BITPOS` (10_state.md R33) -/
  dBitpos : BitVec 4
  /-- `TBL` (10_state.md R39) -/
  tbl : Table
  /-- `OUT` (10_state.md R41) -/
  outBuf : Memory
  /-- `IN`, owned by the host (10_state.md R40) -/
  inBuf : Memory
  /-- the platform's parameter `IN_CAP` (00_scope.md R7); no step changes it. DESIGN CHOICE, log 1 -/
  inCap : Nat
  /-- the platform's parameter `OUT_CAP` (00_scope.md R7); no step changes it. DESIGN CHOICE, log 1 -/
  outCap : Nat
  /-- what the host and the platform do next, oldest first. DESIGN CHOICE, log 5 -/
  pending : List Access
  /-- what the host's last read returned. DESIGN CHOICE, log 7 -/
  busData : Word
  /-- host writes and resets so far: picks the free value of `OUT` beyond `OUT_LEN`. DESIGN CHOICE,
  log 3 -/
  writes : Nat
  /-- resets so far: picks the free value of `TBL` after reset. DESIGN CHOICE, log 2 -/
  resets : Nat
deriving DecidableEq, Repr

/-- Why the machine stops with a fault. The block's own four faults are no stops: see `Cause`. -/
inductive Fault where
  /-- The host reads or writes a byte of `IN` at or beyond `IN_CAP`, which does not exist
  (00_scope.md R7, 20_memory.md R57, log 10). Raised by `loadIn`, `writeIn` and `readIn`. Safe: the
  model stops where the hardware has no such byte. -/
  | noSuchInByte
deriving DecidableEq, Repr

/-- Why the model gives an access no step. -/
inductive Refusal where
  /-- No meaning for the instruction yet; raised by `exec` alone. Safe: nothing can be proved of its
  effect. -/
  | notModelled (mnemonic : String)
  /-- A sub-word access to the register window (20_memory.md R53, 93_implementation_defined.md U6).
  Raised by `readWindow` and `writeWindow`. Safe: the host must not make it. -/
  | subWordAccess
  /-- A misaligned access to the register window (20_memory.md R53, 93_implementation_defined.md
  U6). Raised by `readWindow` and `writeWindow`. Safe: the host must not make it. -/
  | misalignedAccess
  /-- A host write of `IN` while `MODE` is `ENC` or `DEC` (70_reset_and_hazards.md R261,
  93_implementation_defined.md U7). Raised by `loadIn` and `writeIn`. Safe: the host must not make
  it. -/
  | inputWriteInSession
  /-- A host access while `STATUS.BUSY` = 1 (70_reset_and_hazards.md R260,
  93_implementation_defined.md U5). Raised by `performAccess`. Safe: `BUSY` is never 1. -/
  | accessWhileBusy
deriving DecidableEq, Repr

/-- The machine right after power-on reset (10_state.md R43). `TBL`, `OUT` and `IN` list nothing:
the spec states no contents for them. The model's own fields are as logs 1, 2, 3, 5 and 7 say. -/
def State.reset : State where
  ctx := 0
  result := 0
  mode := .idle
  stop := .none
  err := false
  ecode := .none
  busy := false
  faultInfo := 0
  inLen := 0
  inPos := 0
  outLen := 0
  eFlags := 0x00
  eBitpos := 0
  eFlagpos := 0
  dCtrl := 0x00
  dBitpos := 8
  tbl := ⟨.unspecified, []⟩
  outBuf := []
  inBuf := []
  inCap := Config.inCap
  outCap := Config.outCap
  pending := []
  busData := 0
  writes := 0
  resets := 0

end Sys2Proof.Machine
end

