-- ==== Sys2Proof/Machine/Ops.lean ====
section
/-!
DEFINITION. The named operations over memory and registers, and taking a fault.
-/

namespace Sys2Proof.Machine

/-! ### Memory -/

/-- The canonical form: indices strictly rising. An unlisted index holds no stated value, so no entry
can equal it. -/
abbrev Memory.wf (m : Memory) : Prop := m.Pairwise (fun a b => a.1 < b.1)

/-- The byte at an index, if something has written it. -/
def Memory.get? : Memory → Nat → Option Byte
  | [], _ => none
  | (c, d) :: t, a => if c = a then some d else Memory.get? t a

/-- Write the byte at an index. -/
def Memory.set : Memory → Nat → Byte → Memory
  | [], a, b => [(a, b)]
  | (c, d) :: t, a, b =>
    if a < c then (a, b) :: (c, d) :: t
    else if a = c then (a, b) :: t
    else (c, d) :: Memory.set t a b

/-- Drop the entry of an index. -/
def Memory.erase (m : Memory) (a : Nat) : Memory := m.filter (fun c => c.1 != a)

/-- Every index below `n` is listed. -/
def Memory.fullBelow (m : Memory) : Nat → Bool
  | 0 => true
  | n + 1 => (Memory.get? m n).isSome && Memory.fullBelow m n

/-- The entry of index `n`, if it holds another byte than 0x00. -/
def Memory.nonzeroAt (m : Memory) (n : Nat) : Memory :=
  match Memory.get? m n with
  | some b => if b = 0x00#8 then [] else [(n, b)]
  | none => []

/-- The entries below `n` that hold another byte than 0x00, in rising order. -/
def Memory.nonzeroBelow (m : Memory) : Nat → Memory
  | 0 => []
  | n + 1 => Memory.nonzeroBelow m n ++ Memory.nonzeroAt m n

/-! ### The predictor table (10_state.md R39) -/

/-- The table that `INIT` and the start commands leave: all 4096 slots 0x00
(44_session_control.md R211, 42_encoder.md R150). -/
def Table.zero : Table := ⟨.zeroed, []⟩

/-- The byte in a slot; `none` while it is unspecified (93_implementation_defined.md U3). -/
def Table.get? (t : Table) (k : Nat) : Option Byte :=
  match Memory.get? t.cells k with
  | some b => some b
  | none =>
    match t.base with
    | .zeroed => some 0x00#8
    | .unspecified => none

/-- Write a slot. Over a zeroed base a 0x00 is dropped; a table whose every slot is written has no
unspecified slot left, and takes the zeroed base. Log 20. -/
def Table.set (t : Table) (k : Nat) (b : Byte) : Table :=
  match t.base with
  | .zeroed =>
    ⟨.zeroed, if b = 0x00#8 then Memory.erase t.cells k else Memory.set t.cells k b⟩
  | .unspecified =>
    if (Memory.set t.cells k b).fullBelow Config.tblSize then
      ⟨.zeroed, (Memory.set t.cells k b).nonzeroBelow Config.tblSize⟩
    else ⟨.unspecified, Memory.set t.cells k b⟩

/-- The table's one canonical form: keys strictly rising and below 4096; over a zeroed base no listed
0x00; over an unspecified base some slot unlisted. -/
abbrev Table.wf (t : Table) : Prop :=
  Memory.wf t.cells ∧ (∀ c ∈ t.cells, c.1 < Config.tblSize) ∧
  (t.base = .zeroed → ∀ c ∈ t.cells, c.2 ≠ 0x00#8) ∧
  (t.base = .unspecified → t.cells.fullBelow Config.tblSize = false)

/-! ### The datapath functions (40_context_hash_table.md R100 to R104) -/

/-- `advance(ctx, b) = ((ctx << 8) + b) & CTX_MASK` (40_context_hash_table.md R101). -/
def advance (ctx : Ctx) (b : Byte) : Ctx := ((ctx <<< 8) + b.setWidth 64) &&& Config.ctxMask

/-- `hash(ctx) = ((ctx * MIXER) mod 2^64) >> 52` (40_context_hash_table.md R102). The product of two
64-bit vectors is taken mod 2^64 (90_conflicts.md C4). -/
def hashKey (ctx : Ctx) : Key := ((ctx * Config.mixer) >>> Config.shift).setWidth 12

/-- `predict(k)`: the byte in slot `k` of `TBL`, any value while it is unspecified
(40_context_hash_table.md R103, 93_implementation_defined.md U3). -/
def predict (s : State) (k : Key) : Byte :=
  (s.tbl.get? k.toNat).getD (Config.tblUnspecified s.resets k.toNat)

/-- `update(k, b)`: overwrite slot `k` of `TBL` (40_context_hash_table.md R104). -/
def update (k : Key) (b : Byte) (s : State) : State := { s with tbl := s.tbl.set k.toNat b }

/-! ### The buffers (00_scope.md R12) -/

/-- `MemRead(IN, p, 1)` (00_scope.md R12), any value where the host has placed no byte (log 4). -/
def inRead (s : State) (p : Nat) : Byte := (Memory.get? s.inBuf p).getD (Config.inUnplaced p)

/-- `MemRead(OUT, p, 1)` (00_scope.md R12), any value where nothing has been written (10_state.md
R43). -/
def outRead (s : State) (p : Nat) : Byte :=
  (Memory.get? s.outBuf p).getD (Config.outUnspecified s.writes p)

/-- `MemWrite(OUT, p, 1, b)` (00_scope.md R12). -/
def outWrite (p : Nat) (b : Byte) (s : State) : State := { s with outBuf := s.outBuf.set p b }

/-- `OutAppend(b)`: `MemWrite(OUT, OUT_LEN, 1, b); OUT_LEN <- OUT_LEN + 1` (00_scope.md R12). -/
def outAppend (b : Byte) (s : State) : State :=
  { outWrite s.outLen.toNat b s with outLen := s.outLen + 1 }

/-- The byte a host read of `OUT[p]` returns: any value at `OUT_LEN` and beyond (10_state.md R41,
93_implementation_defined.md U4, logs 3 and 9). -/
def hostOutByte (s : State) (p : Nat) : Byte :=
  if p < s.outLen.toNat then outRead s p else Config.outUnspecified s.writes p

/-! ### Sessions -/

/-- `stop(reason)`: `MODE <- DONE; STATUS.STOP <- reason` (00_scope.md R12). -/
def stopSession (r : Stop) (s : State) : State := { s with mode := .done, stop := r }

/-- `MODE ∈ {IDLE, DONE}`: no session is running (44_session_control.md R212). -/
def sessionFree (s : State) : Bool := s.mode == .idle || s.mode == .done

/-- The writes that `INIT`, `ENC_START` and `DEC_START` share: `CTX`, `TBL`, the positions, both
FSMs' registers and `STATUS.STOP` (44_session_control.md R211, 42_encoder.md R150, 43_decoder.md
R180). -/
def freshSession (s : State) : State :=
  { s with
    ctx := 0
    tbl := Table.zero
    inPos := 0
    outLen := 0
    eFlags := 0x00
    eBitpos := 0
    eFlagpos := 0
    dCtrl := 0x00
    dBitpos := 8
    stop := .none }

/-! ### Faults: the block's exceptions -/

/-- The code written to `STATUS.ECODE` (60_exceptions.md R221). -/
def Cause.ecode : Cause → ECode
  | .illegalCommand => .illegalCmd
  | .sequenceError => .sequence
  | .outOverflow => .outOverflow
  | .badLength => .badLength

/-- TAKING A FAULT, `raise F(v)` (60_exceptions.md R222): the first fault's code and the value `v` the
host wrote are recorded, and `ERR` becomes 1. Nothing else changes: no state is saved, no mode
changes and no control is transferred (R224), and so there is no return from one (R225). -/
def raise (c : Cause) (v : Word) (s : State) : State :=
  { s with
    ecode := if s.err then s.ecode else c.ecode
    faultInfo := if s.err then s.faultInfo else v
    err := true }

/-- The end of a command the host wrote as the word `w`: its effects, or the fault it raised, recorded
on a state that the command has not changed (00_scope.md R13, 60_exceptions.md R222). -/
def complete (w : Word) (s : State) : Except Cause State → State
  | .ok t => t
  | .error c => raise c w s

/-! ### Where the three spaces stand in the host's addresses (20_memory.md R57, log 14) -/

/-- The host address of a register-window offset. -/
def windowAddress (off : Nat) : Nat := Config.windowBase + off

/-- The host address of a byte of `IN`. -/
def inAddress (p : Nat) : Nat := Config.inBase + p

/-- The host address of a byte of `OUT`. -/
def outAddress (p : Nat) : Nat := Config.outBase + p

end Sys2Proof.Machine
end

