-- ==== Sys2Proof/Machine/Datapath.lean ====
section
/-!
DEFINITION. The commands that expose the datapath (40_context_hash_table.md R107 to R110). Each is
legal only in `IDLE` and `DONE`.
-/

namespace Sys2Proof.Machine

/-- Run `f` when no session is running; raise `SequenceError` otherwise (44_session_control.md
R212). -/
def whenFree (s : State) (f : State → State) : Except Cause State :=
  if sessionFree s then .ok (f s) else .error .sequenceError

/-- `CTX_ADVANCE data` (40_context_hash_table.md R107). -/
def execCtxAdvance (data : Byte) (s : State) : Host.Outcome State Fault Refusal :=
  .next (complete (encode (.ctxAdvance data)) s
    (whenFree s fun s => { s with ctx := advance s.ctx data }))

/-- `CTX_HASH` (40_context_hash_table.md R108). -/
def execCtxHash (s : State) : Host.Outcome State Fault Refusal :=
  .next (complete (encode .ctxHash) s
    (whenFree s fun s => { s with result := (hashKey s.ctx).setWidth 16 }))

/-- `TBL_PREDICT key` (40_context_hash_table.md R109). -/
def execTblPredict (key : Key) (s : State) : Host.Outcome State Fault Refusal :=
  .next (complete (encode (.tblPredict key)) s
    (whenFree s fun s => { s with result := (predict s key).setWidth 16 }))

/-- `TBL_UPDATE key, data` (40_context_hash_table.md R110). -/
def execTblUpdate (key : Key) (data : Byte) (s : State) : Host.Outcome State Fault Refusal :=
  .next (complete (encode (.tblUpdate key data)) s (whenFree s (update key data)))

end Sys2Proof.Machine
end

