-- ==== Sys2Proof/Machine/Encoder.lean ====
section
/-!
DEFINITION. The encoder FSM (42_encoder.md): `ENC_START`, `ENC_STEP` and `COMPRESS`.
-/

namespace Sys2Proof.Machine

/-- The rule of `ENC_START` (42_encoder.md R150): fresh session state, then the first provisional slot
at `OUT[0]`. -/
def encStart (s : State) : Except Cause State :=
  if sessionFree s then .ok { outAppend 0x00#8 (freshSession s) with mode := .enc }
  else .error .sequenceError

/-- The byte path's record of the input byte `b` (42_encoder.md R151, R154): a hit sets the group's
slot, a miss updates the table and emits the literal; the context advances with the actual byte. -/
def encRecord (b : Byte) (hit : Bool) (s : State) : State :=
  let k := hashKey s.ctx
  let t := { s with inPos := s.inPos + 1 }
  let u :=
    if hit then { t with eFlags := flagSet t.eFlags t.eBitpos.toNat }
    else outAppend b (update k b t)
  { u with ctx := advance u.ctx b }

/-- The group boundary after the 8th byte (42_encoder.md R156): finalise the control byte where it was
reserved, reserve the next one, start an empty group. -/
def encBoundary (s : State) : State :=
  let t := outWrite s.eFlagpos.toNat s.eFlags s
  { outAppend 0x00#8 { t with eFlagpos := t.outLen } with eFlags := 0x00, eBitpos := 0 }

/-- The bytes a byte-path step must append (42_encoder.md R151, R159). -/
def encNeed (hit last : Bool) : Nat := (if hit then 0 else 1) + (if last then 1 else 0)

/-- The next input byte is the one predicted (42_encoder.md R151). -/
def encHit (s : State) : Bool := predict s (hashKey s.ctx) == inRead s s.inPos.toNat

/-- The next input byte is the 8th of its group (42_encoder.md R156). -/
def encLast (s : State) : Bool := s.eBitpos == 7#3

/-- The byte path (42_encoder.md R154): record the next input byte, then go to the next slot or across
the group boundary. -/
def encByte (s : State) : State :=
  let t := encRecord (inRead s s.inPos.toNat) (encHit s) s
  if encLast s then encBoundary t else { t with eBitpos := t.eBitpos + 1 }

/-- The rule of `ENC_STEP` (42_encoder.md R151): finalise where the input is exhausted (R153), else take
the next byte. `OutOverflow` is tested before anything is written (R159). -/
def encStep (s : State) : Except Cause State :=
  if s.mode ≠ .enc then .error .sequenceError
  else if s.inPos = s.inLen then
    .ok (stopSession .encEnd (outWrite s.eFlagpos.toNat s.eFlags s))
  else if s.outCap < s.outLen.toNat + encNeed (encHit s) (encLast s) then .error .outOverflow
  else .ok (encByte s)

/-- `while MODE = ENC: execute ENC_STEP`, at most `n` passes, with the fault that ended it if one did;
the effects of the steps before it are kept (42_encoder.md R157). -/
def encLoop : Nat → State → State × Option Cause
  | 0, s => (s, none)
  | n + 1, s =>
    if s.mode = .enc then
      match encStep s with
      | .ok t => encLoop n t
      | .error c => (s, some c)
    else (s, none)

/-- The end of `COMPRESS` or `DECOMPRESS`: a fault of a sub-command records the word the host wrote
(60_exceptions.md R222). -/
def finish (w : Word) : State × Option Cause → State
  | (s, none) => s
  | (s, some c) => raise c w s

/-- `ENC_START` (42_encoder.md R150). -/
def execEncStart (s : State) : Host.Outcome State Fault Refusal :=
  .next (complete (encode .encStart) s (encStart s))

/-- `ENC_STEP` (42_encoder.md R151). -/
def execEncStep (s : State) : Host.Outcome State Fault Refusal :=
  .next (complete (encode .encStep) s (encStep s))

/-- `COMPRESS` (42_encoder.md R157): `ENC_START`, then `ENC_STEP` while `MODE = ENC`. The loop ends
after at most `IN_LEN + 1` steps (R157), so that many passes are the whole loop (log 15). -/
def execCompress (s : State) : Host.Outcome State Fault Refusal :=
  .next (match encStart s with
    | .error c => raise c (encode .compress) s
    | .ok t => finish (encode .compress) (encLoop (t.inLen.toNat + 1) t))

end Sys2Proof.Machine
end

