-- ==== Sys2Proof/Machine/Decoder.lean ====
section
/-!
DEFINITION. The decoder FSM (43_decoder.md): `DEC_START`, `DEC_STEP` and `DECOMPRESS`.
-/

namespace Sys2Proof.Machine

/-- The rule of `DEC_START` (43_decoder.md R180). Nothing is appended to `OUT`. -/
def decStart (s : State) : Except Cause State :=
  if sessionFree s then .ok { freshSession s with mode := .dec } else .error .sequenceError

/-- The effects of the producing path (43_decoder.md R181, R184): update the table where `b` is a
literal, append `b`, advance the context, and move to the slot after `i`; `p` is the next input
position. -/
def decProduce (c : Byte) (p : Word) (i : BitVec 4) (b : Byte) (lit : Bool) (s : State) : State :=
  let t := if lit then update (hashKey s.ctx) b s else s
  let u := outAppend b t
  { u with ctx := advance u.ctx b, dCtrl := c, inPos := p, dBitpos := i + 1 }

/-- The producing path: `OutOverflow` is tested before anything is written (43_decoder.md R184). -/
def decEmit (c : Byte) (p : Word) (i : BitVec 4) (b : Byte) (lit : Bool) (s : State) :
    Except Cause State :=
  if s.outCap < s.outLen.toNat + 1 then .error .outOverflow else .ok (decProduce c p i b lit s)

/-- Slot `i` of the control byte `c`, the next input byte being at `p` (43_decoder.md R181): a set slot
takes the prediction, a clear one a literal, or stops where none remains (R185). -/
def decSlot (c : Byte) (p : Word) (i : BitVec 4) (s : State) : Except Cause State :=
  if flagTest c i.toNat then decEmit c p i (predict s (hashKey s.ctx)) false s
  else if p = s.inLen then
    .ok (stopSession .noLit { s with dCtrl := c, dBitpos := i, inPos := p })
  else decEmit c (p + 1) i (inRead s p.toNat) true s

/-- The rule of `DEC_STEP` (43_decoder.md R181): with `D_BITPOS` = 8 a control byte is read first, or
the session stops where none remains (R183). -/
def decStep (s : State) : Except Cause State :=
  if s.mode ≠ .dec then .error .sequenceError
  else if s.dBitpos = 8#4 then
    if s.inPos = s.inLen then .ok (stopSession .noCtrl s)
    else decSlot (inRead s s.inPos.toNat) (s.inPos + 1) 0#4 s
  else decSlot s.dCtrl s.inPos s.dBitpos s

/-- `while MODE = DEC: execute DEC_STEP`, at most `n` passes, with the fault that ended it if one did;
the effects of the steps before it are kept (43_decoder.md R186). -/
def decLoop : Nat → State → State × Option Cause
  | 0, s => (s, none)
  | n + 1, s =>
    if s.mode = .dec then
      match decStep s with
      | .ok t => decLoop n t
      | .error c => (s, some c)
    else (s, none)

/-- `DEC_START` (43_decoder.md R180). -/
def execDecStart (s : State) : Host.Outcome State Fault Refusal :=
  .next (complete (encode .decStart) s (decStart s))

/-- `DEC_STEP` (43_decoder.md R181). -/
def execDecStep (s : State) : Host.Outcome State Fault Refusal :=
  .next (complete (encode .decStep) s (decStep s))

/-- `DECOMPRESS` (43_decoder.md R186): `DEC_START`, then `DEC_STEP` while `MODE = DEC`. A session takes
at most `8 * IN_LEN + 1` steps (R186), so that many passes are the whole loop (log 15). -/
def execDecompress (s : State) : Host.Outcome State Fault Refusal :=
  .next (match decStart s with
    | .error c => raise c (encode .decompress) s
    | .ok t => finish (encode .decompress) (decLoop (8 * t.inLen.toNat + 1) t))

end Sys2Proof.Machine
end

