-- ==== Sys2Proof/Machine/Session.lean ====
section
/-!
DEFINITION. Session control (44_session_control.md): `NOP`, `INIT` and the host's write of `IN_LEN`.
-/

namespace Sys2Proof.Machine

/-- `NOP`: no effect, legal in every mode (44_session_control.md R210). -/
def execNop (s : State) : Host.Outcome State Fault Refusal := .next s

/-- `INIT`: abandon any session and return to `IDLE` with fresh state, legal in every mode. `IN`,
`IN_LEN`, the bytes of `OUT` and the fault record stay (44_session_control.md R211). -/
def execInit (s : State) : Host.Outcome State Fault Refusal :=
  .next { freshSession s with result := 0, mode := .idle }

/-- A host write of `v` to `IN_LEN` (44_session_control.md R213). -/
def setInLen (v : Word) (s : State) : Except Cause State :=
  if sessionFree s = false then .error .sequenceError
  else if s.inCap < v.toNat then .error .badLength
  else .ok { s with inLen := v }

end Sys2Proof.Machine
end

