-- ==== Sys2Proof/Machine/Dispatch.lean ====
section
/-! DEFINITION. exec: one arm per command, each one direct call of its meaning. -/

namespace Sys2Proof.Machine

def exec (i : Instr) (s : State) : Host.Outcome State Fault Refusal :=
  match i with
  | .nop => Sys2Proof.Machine.execNop s
  | .init => Sys2Proof.Machine.execInit s
  | .encStart => Sys2Proof.Machine.execEncStart s
  | .encStep => Sys2Proof.Machine.execEncStep s
  | .decStart => Sys2Proof.Machine.execDecStart s
  | .decStep => Sys2Proof.Machine.execDecStep s
  | .compress => Sys2Proof.Machine.execCompress s
  | .decompress => Sys2Proof.Machine.execDecompress s
  | .ctxAdvance data => Sys2Proof.Machine.execCtxAdvance data s
  | .ctxHash => Sys2Proof.Machine.execCtxHash s
  | .tblPredict key => Sys2Proof.Machine.execTblPredict key s
  | .tblUpdate key data => Sys2Proof.Machine.execTblUpdate key data s

end Sys2Proof.Machine
end

