-- ==== Sys2Proof/Machine/Window.lean ====
section
/-!
DEFINITION. The host's side of the block: the register window (10_state.md R34 to R38), the host's
accesses to `IN` and `OUT`, and the reset event.
-/

namespace Sys2Proof.Machine

/-- The named words of the register window (10_state.md R34). -/
inductive WindowReg where
  | cmd | status | inLen | inPos | outLen | result | ctxLo | ctxHi | fsm | eFlagpos | param
  | mixerLo | mixerHi | faultInfo
deriving DecidableEq, Repr

/-- The register at a byte offset; `none` for a reserved offset (10_state.md R34). -/
def windowReg (off : Nat) : Option WindowReg :=
  match off with
  | 0x00 => some .cmd
  | 0x04 => some .status
  | 0x08 => some .inLen
  | 0x0C => some .inPos
  | 0x10 => some .outLen
  | 0x14 => some .result
  | 0x18 => some .ctxLo
  | 0x1C => some .ctxHi
  | 0x20 => some .fsm
  | 0x24 => some .eFlagpos
  | 0x28 => some .param
  | 0x2C => some .mixerLo
  | 0x30 => some .mixerHi
  | 0x34 => some .faultInfo
  | _ => none

/-- The value of `MODE` (10_state.md R26). -/
def modeBits : Mode → BitVec 2
  | .idle => 0#2
  | .enc => 1#2
  | .dec => 2#2
  | .done => 3#2

/-- The value of `STATUS.STOP` (10_state.md R27). -/
def stopBits : Stop → BitVec 2
  | .none => 0#2
  | .encEnd => 1#2
  | .noCtrl => 2#2
  | .noLit => 3#2

/-- The value of `STATUS.ECODE` (10_state.md R28). -/
def ecodeBits : ECode → BitVec 3
  | .none => 0#3
  | .illegalCmd => 1#3
  | .sequence => 2#3
  | .outOverflow => 3#3
  | .badLength => 4#3

/-- The `STATUS` word: `MODE` in 1:0, `STOP` in 3:2, `ERR` in 4, `ECODE` in 7:5, `BUSY` in 8, the rest
0 (10_state.md R35). -/
def statusWord (s : State) : Word :=
  0#23 ++ BitVec.ofBool s.busy ++ ecodeBits s.ecode ++ BitVec.ofBool s.err ++ stopBits s.stop
    ++ modeBits s.mode

/-- The `FSM` word: `E_FLAGS` in 7:0, `E_BITPOS` in 10:8, `D_CTRL` in 23:16, `D_BITPOS` in 27:24, the
rest 0 (10_state.md R36). -/
def fsmWord (s : State) : Word :=
  0#4 ++ s.dBitpos ++ s.dCtrl ++ 0#5 ++ s.eBitpos ++ s.eFlags

/-- The `PARAM` word: `ORDER` in 7:0, `NUMBITS` in 15:8, the interface version in 23:16, the rest 0
(10_state.md R37). -/
def paramWord : Word :=
  0#8 ++ BitVec.ofNat 8 Config.version ++ BitVec.ofNat 8 Config.numBits
    ++ BitVec.ofNat 8 Config.order

/-- What a read of a register returns (10_state.md R34). `CMD` reads 0 (R38). -/
def readReg (r : WindowReg) (s : State) : Word :=
  match r with
  | .cmd => 0
  | .status => statusWord s
  | .inLen => s.inLen
  | .inPos => s.inPos
  | .outLen => s.outLen
  | .result => s.result.setWidth 32
  | .ctxLo => s.ctx.extractLsb' 0 32
  | .ctxHi => s.ctx.extractLsb' 32 32
  | .fsm => fsmWord s
  | .eFlagpos => s.eFlagpos
  | .param => paramWord
  | .mixerLo => Config.mixer.extractLsb' 0 32
  | .mixerHi => Config.mixer.extractLsb' 32 32
  | .faultInfo => s.faultInfo

/-- What a read of an offset returns: 0 for a reserved one (10_state.md R38). -/
def readOffset (off : Nat) (s : State) : Word :=
  match windowReg off with
  | some r => readReg r s
  | none => 0

/-- A write of the word `w` to `CMD` (30_encoding.md R70): run the command it decodes to, or raise
`IllegalCommand(w)`, which is tested before the mode (60_exceptions.md R223). -/
def writeCmd (w : Word) (s : State) : Host.Outcome State Fault Refusal :=
  match decode w with
  | .ok i => exec i s
  | .error _ => .next (raise .illegalCommand w s)

/-- A write of the register window at an offset: `CMD` runs a command, `IN_LEN` follows
44_session_control.md R213, and every other write is ignored with no fault (10_state.md R38). -/
def writeOffset (off : Nat) (v : Word) (s : State) : Host.Outcome State Fault Refusal :=
  match windowReg off with
  | some .cmd => writeCmd v s
  | some .inLen => .next (complete v s (setInLen v s))
  | some _ => .next s
  | none => .next s

/-- Admit an access to the register window only where it is 32 bits wide and aligned to 4 bytes
(20_memory.md R53, 93_implementation_defined.md U6). -/
def admitWindow (off : Nat) (width : Width) (k : Host.Outcome State Fault Refusal) :
    Host.Outcome State Fault Refusal :=
  if width ≠ .word then .refused .subWordAccess
  else if off % 4 ≠ 0 then .refused .misalignedAccess
  else k

/-- A host read of the register window; it changes nothing of the block (20_memory.md R56). -/
def readWindow (off : Nat) (width : Width) (s : State) : Host.Outcome State Fault Refusal :=
  admitWindow off width (.next { s with busData := readOffset off s })

/-- A host write of the register window. -/
def writeWindow (off : Nat) (width : Width) (v : Word) (s : State) :
    Host.Outcome State Fault Refusal :=
  admitWindow off width (writeOffset off v s)

/-- Place bytes in a buffer from index `p` on. -/
def Memory.load : Memory → Nat → List Byte → Memory
  | m, _, [] => m
  | m, p, b :: bs => Memory.load (Memory.set m p b) (p + 1) bs

/-- The host places bytes in `IN` from index `p` on. Refused in a session (70_reset_and_hazards.md R261,
93_implementation_defined.md U7, log 11); a byte at or beyond `IN_CAP` does not exist (log 10).
`LOAD_IN []` places none and does nothing. -/
def placeInput (p : Nat) (bytes : List Byte) (s : State) : Host.Outcome State Fault Refusal :=
  if bytes = [] then .next s
  else if sessionFree s = false then .refused .inputWriteInSession
  else if s.inCap < p + bytes.length then .fault .noSuchInByte
  else .next { s with inBuf := Memory.load s.inBuf p bytes }

/-- The reset event (70_reset_and_hazards.md R250): every register at its reset value, `TBL` and `OUT`
unspecified anew, `IN` untouched. The platform's parameters and the host's own fields stay (log
16). -/
def resetEvent (s : State) : State :=
  { State.reset with
    inBuf := s.inBuf
    inCap := s.inCap
    outCap := s.outCap
    pending := s.pending
    busData := s.busData
    writes := s.writes + 1
    resets := s.resets + 1 }

/-- One host access or reset event, whole and atomic (00_scope.md R13, 20_memory.md R59). An access
while `STATUS.BUSY` = 1 is refused (93_implementation_defined.md U5, log 13). -/
def performAccess (a : Access) (s : State) : Host.Outcome State Fault Refusal :=
  match a with
  | .reset => .next (resetEvent s)
  | .write off width v =>
    if s.busy then .refused .accessWhileBusy
    else writeWindow off width v { s with writes := s.writes + 1 }
  | .read off width => if s.busy then .refused .accessWhileBusy else readWindow off width s
  | .loadIn bytes =>
    if s.busy then .refused .accessWhileBusy
    else placeInput 0 bytes { s with writes := s.writes + 1 }
  | .writeIn p b =>
    if s.busy then .refused .accessWhileBusy
    else placeInput p [b] { s with writes := s.writes + 1 }
  | .readIn p =>
    if s.busy then .refused .accessWhileBusy
    else if p < s.inCap then .next { s with busData := (inRead s p).setWidth 32 }
    else .fault .noSuchInByte
  | .readOut p =>
    if s.busy then .refused .accessWhileBusy
    else .next { s with busData := (hostOutByte s p).setWidth 32 }

/-- What the block does next: the oldest access that is pending, or nothing while the host makes none
(70_reset_and_hazards.md R251, log 6). -/
def serve (s : State) : Host.Outcome State Fault Refusal :=
  match s.pending with
  | [] => .next s
  | a :: rest => performAccess a { s with pending := rest }

/-- Put a write of the word `w` to `CMD` before everything pending. -/
def queueCommand (w : Word) (s : State) : State :=
  { s with pending := .write 0x00 .word w :: s.pending }

end Sys2Proof.Machine
end

