-- ==== Sys2Proof/Machine/Step.lean ====
section
/-!
DEFINITION. One step: the next host access or reset event takes effect, whole (00_scope.md R13,
20_memory.md R59). The block has no program counter and fetches nothing (10_state.md R25): its
instruction stream is the words the host writes to `CMD` (log 5).
-/

namespace Sys2Proof.Machine

/-- One step of the machine. -/
def step (s : State) : Host.Outcome State Fault Refusal := serve s

/-- `s` with the command word `w` as the next thing the host writes to `CMD` (log 5). -/
def State.withFetchWord (s : State) (nbits w : Nat) : State :=
  queueCommand (BitVec.ofNat 32 (w % 2 ^ nbits)) s

end Sys2Proof.Machine
end

