-- ==== Sys2Proof/Safety.lean ====
section
/-!
DEFINITION. The words the statements use: legality per mode, what a session reads and leaves, running
several commands, the values at reset, and the invariant of every observable point (10_state.md R44).
-/

namespace Sys2Proof.Machine

/-- Which command is legal in which mode, the table of 44_session_control.md R212. -/
def legalIn : Mnemonic → Mode → Bool
  | .nop, _ => true
  | .init, _ => true
  | .encStart, m | .decStart, m | .compress, m | .decompress, m => m == .idle || m == .done
  | .encStep, m => m == .enc
  | .decStep, m => m == .dec
  | .ctxAdvance, m | .ctxHash, m | .tblPredict, m | .tblUpdate, m => m == .idle || m == .done

/-- No session is running: `MODE` is `IDLE` or `DONE`. -/
abbrev Free (s : State) : Prop := s.mode = .idle ∨ s.mode = .done

/-- A session is running: `MODE` is `ENC` or `DEC`. -/
abbrev InSession (s : State) : Prop := s.mode = .enc ∨ s.mode = .dec

/-- The bytes `IN[0..IN_LEN)`. -/
def inputOf (s : State) : List Byte := (List.range s.inLen.toNat).map (inRead s)

/-- The bytes `OUT[0..OUT_LEN)`, the result of a session (10_state.md R26). -/
def outputOf (s : State) : List Byte := (List.range s.outLen.toNat).map (outRead s)

/-- The commands of a list, one after another, as the host writes them. -/
def execAll : List Instr → State → Host.Outcome State Fault Refusal
  | [], s => .next s
  | i :: is, s =>
    match exec i s with
    | .next t => execAll is t
    | .fault r => .fault r
    | .refused r => .refused r

/-- The control byte of a group with the given hits, slot 0 first (41_control_flags.md R132). -/
def packFrom : Nat → List Bool → Byte
  | _, [] => 0x00#8
  | i, h :: hs => (if h then 0x80#8 >>> i else 0x00#8) + packFrom (i + 1) hs

/-- The number of clear slots of `f` below slot `n`. -/
def clearSlots (f : Byte) (n : Nat) : Nat :=
  ((List.range n).filter (fun j => !flagTest f j)).length

/-- Every piece of the block's state that 10_state.md R43 gives a reset value has it; `TBL` and `OUT`
hold no stated byte. -/
structure AtReset (s : State) : Prop where
  ctx : s.ctx = 0
  result : s.result = 0
  mode : s.mode = .idle
  stop : s.stop = .none
  err : s.err = false
  ecode : s.ecode = .none
  busy : s.busy = false
  faultInfo : s.faultInfo = 0
  inLen : s.inLen = 0
  inPos : s.inPos = 0
  outLen : s.outLen = 0
  eFlags : s.eFlags = 0x00
  eBitpos : s.eBitpos = 0
  eFlagpos : s.eFlagpos = 0
  dCtrl : s.dCtrl = 0x00
  dBitpos : s.dBitpos = 8
  tbl : ∀ k, s.tbl.get? k = none
  outBuf : ∀ p, Memory.get? s.outBuf p = none

/-- The ways a command can change `MODE` (10_state.md R26), from `s` to `t`. A whole session goes through
`ENC` or `DEC` and stays there where a step of it overflows (42_encoder.md R157, 43_decoder.md R186,
92_eei_decisions.md D36). -/
def ModeMove (i : Instr) (s t : State) : Prop :=
  (i = .init ∧ t.mode = .idle) ∨
  (i = .encStart ∧ Free s ∧ t.mode = .enc) ∨
  (i = .decStart ∧ Free s ∧ t.mode = .dec) ∨
  (i = .encStep ∧ s.mode = .enc ∧ s.inPos = s.inLen ∧ t.mode = .done) ∨
  (i = .decStep ∧ s.mode = .dec ∧ t.mode = .done ∧ (t.stop = .noCtrl ∨ t.stop = .noLit)) ∨
  (i = .compress ∧ Free s ∧ (t.mode = .done ∨ t.mode = .enc ∧ t.err = true)) ∨
  (i = .decompress ∧ Free s ∧ (t.mode = .done ∨ t.mode = .dec ∧ t.err = true))

/-- No command but `INIT` gets the session of `t` any further: each changes nothing, its fault leaving
the record of the first one as it stands. After `INIT` both kinds of session start anew
(70_reset_and_hazards.md R265). -/
def StuckUntilInit (t : State) : Prop :=
  t.err = true ∧ (∀ i, i ≠ .init → exec i t = .next t) ∧
  ∃ u, exec .init t = .next u ∧ u.mode = .idle ∧ u.err = true ∧ u.ecode = t.ecode ∧
    u.faultInfo = t.faultInfo ∧
    (∃ v, exec .encStart u = .next v ∧ v.mode = .enc) ∧
    ∃ v, exec .decStart u = .next v ∧ v.mode = .dec

/-- What holds of the encoder's registers in a session (10_state.md R44): the provisional slot is
written and still 0x00, the slots not taken yet are clear, and each literal after the provisional slot
belongs to a clear slot. -/
structure EncInv (s : State) : Prop where
  flagpos_lt : s.eFlagpos.toNat < s.outLen.toNat
  provisional : Memory.get? s.outBuf s.eFlagpos.toNat = some 0x00#8
  untaken : ∀ j, s.eBitpos.toNat ≤ j → j < 8 → flagTest s.eFlags j = false
  literals : s.outLen.toNat - s.eFlagpos.toNat - 1 = clearSlots s.eFlags s.eBitpos.toNat

/-- The invariant of every observable point: that of 10_state.md R44, with what R22, R24, R27, R28, R29
and R39 to R41 say of the state and the memories' canonical form. -/
structure Inv (s : State) : Prop where
  inCap_word : s.inCap < 2 ^ 32
  outCap_word : s.outCap < 2 ^ 32
  outCap_pos : 1 ≤ s.outCap
  not_busy : s.busy = false
  ctx_24 : s.ctx.toNat < 2 ^ 24
  result_12 : s.result.toNat < 2 ^ 12
  inLen_le : s.inLen.toNat ≤ s.inCap
  inPos_le : InSession s → s.inPos.toNat ≤ s.inLen.toNat
  outLen_le : s.outLen.toNat ≤ s.outCap
  dBitpos_le : s.dBitpos.toNat ≤ 8
  encoder : s.mode = .enc → EncInv s
  stop_done : s.stop ≠ .none ↔ s.mode = .done
  code_err : s.ecode ≠ .none ↔ s.err = true
  info_err : s.err = false → s.faultInfo = 0
  tbl_form : s.tbl.wf
  tbl_session : InSession s → s.tbl.base = .zeroed
  in_form : Memory.wf s.inBuf
  in_space : ∀ c ∈ s.inBuf, c.1 < s.inCap
  out_form : Memory.wf s.outBuf
  out_space : ∀ c ∈ s.outBuf, c.1 < s.outCap
  out_written : ∀ p, p < s.outLen.toNat → (Memory.get? s.outBuf p).isSome

end Sys2Proof.Machine
end

