-- ==== Sys2Proof/Reference.lean ====
section
/-!
DEFINITION. The document's two functions over byte sequences, as 42_encoder.md R154 and R156 and
43_decoder.md R182 quote them, with no registers, no buffers and no back-patch: a stream is made and
read group by group (30_encoding.md R80, R81).
-/

namespace Sys2Proof.Reference

open Sys2Proof.Machine

/-- The predictor table of one call: "created fresh" for it and "discarded at the end". -/
abbrev Prediction := Key → Byte

/-- The table after `update(k, b)`. -/
def learn (tbl : Prediction) (k : Key) (b : Byte) : Prediction := fun j => if j = k then b else tbl j

/-- The stream of the bytes still to come: `flags` and `lits` are the control byte and the literals
of the group begun, whose next slot is `i` (42_encoder.md R154, R156). -/
def compressFrom (ctx : Ctx) (tbl : Prediction) (flags : Byte) (i : Nat) (lits : List Byte) :
    List Byte → List Byte
  | [] => flags :: lits
  | b :: bs =>
    let k := hashKey ctx
    if tbl k = b then
      if i = 7 then
        (flagSet flags i :: lits) ++ compressFrom (advance ctx b) tbl 0x00 0 [] bs
      else compressFrom (advance ctx b) tbl (flagSet flags i) (i + 1) lits bs
    else
      if i = 7 then
        (flags :: (lits ++ [b])) ++ compressFrom (advance ctx b) (learn tbl k b) 0x00 0 [] bs
      else compressFrom (advance ctx b) (learn tbl k b) flags (i + 1) (lits ++ [b]) bs

/-- `compress(bytes)` of the document (42_encoder.md R160). -/
def compress (bs : List Byte) : List Byte := compressFrom 0 (fun _ => 0x00) 0x00 0 [] bs

/-- The eight slots of a control byte, most significant first (43_decoder.md R182). -/
def slotsOf (c : Byte) : List Bool := (List.range 8).map (flagTest c)

/-- The bytes the leading set slots yield, each the prediction, with the context and the slots left
(43_decoder.md R182). -/
def takeHits (ctx : Ctx) (tbl : Prediction) : List Bool → List Byte × Ctx × List Bool
  | true :: hs =>
    let b := tbl (hashKey ctx)
    let r := takeHits (advance ctx b) tbl hs
    (b :: r.1, r.2)
  | false :: hs => ([], ctx, false :: hs)
  | [] => ([], ctx, [])

/-- The output of the slots and the stream still to come. A stream byte is the next control byte when
no slot is left, and else the literal of the clear slot that is next (43_decoder.md R182). -/
def decompressFrom (ctx : Ctx) (tbl : Prediction) (slots : List Bool) : List Byte → List Byte
  | [] => (takeHits ctx tbl slots).1
  | b :: bs =>
    match takeHits ctx tbl slots with
    | (out, ctx', []) => out ++ decompressFrom ctx' tbl (slotsOf b) bs
    | (out, ctx', _ :: rest) =>
      out ++ b :: decompressFrom (advance ctx' b) (learn tbl (hashKey ctx') b) rest bs

/-- `decompress(bytes)` of the document (43_decoder.md R192). -/
def decompress (bs : List Byte) : List Byte := decompressFrom 0 (fun _ => 0x00) [] bs

end Sys2Proof.Reference
end

