-- ==== Sys2Proof/Certificates/Slice0/Obligations.lean ====
section
/-!
DEFINITION. The statements for the provers. A statement marked "model's choice" rests on a log entry,
which its docstring names. `raise` and `encode` have statements of their own (`FaultRecord`,
`EncodingIsTheFormula`), which say what the others mean by them.
-/

open Sys2Proof Sys2Proof.Machine

/-! ### Encoding (30_encoding.md) -/

/-- 30_encoding.md R73 and R72: a word selects a row of the opcode map exactly when `w & mask = match`,
its operands are the fields as they stand, and an opcode from 0xC on selects none. -/
def Obligations.OpcodeMapSelectsRows : Prop :=
  ∀ w : Word,
    (decode w = .ok .nop ↔ w &&& 0xFFFFFFFF#32 = 0x00000000#32) ∧
    (decode w = .ok .init ↔ w &&& 0xFFFFFFFF#32 = 0x10000000#32) ∧
    (decode w = .ok .encStart ↔ w &&& 0xFFFFFFFF#32 = 0x20000000#32) ∧
    (decode w = .ok .encStep ↔ w &&& 0xFFFFFFFF#32 = 0x30000000#32) ∧
    (decode w = .ok .decStart ↔ w &&& 0xFFFFFFFF#32 = 0x40000000#32) ∧
    (decode w = .ok .decStep ↔ w &&& 0xFFFFFFFF#32 = 0x50000000#32) ∧
    (decode w = .ok .compress ↔ w &&& 0xFFFFFFFF#32 = 0x60000000#32) ∧
    (decode w = .ok .decompress ↔ w &&& 0xFFFFFFFF#32 = 0x70000000#32) ∧
    (∀ d : Byte, decode w = .ok (.ctxAdvance d) ↔
      w &&& 0xFFFFFF00#32 = 0x80000000#32 ∧ d = w.extractLsb' 0 8) ∧
    (decode w = .ok .ctxHash ↔ w &&& 0xFFFFFFFF#32 = 0x90000000#32) ∧
    (∀ k : Key, decode w = .ok (.tblPredict k) ↔
      w &&& 0xFFF000FF#32 = 0xA0000000#32 ∧ k = w.extractLsb' 8 12) ∧
    (∀ (k : Key) (d : Byte), decode w = .ok (.tblUpdate k d) ↔
      w &&& 0xFFF00000#32 = 0xB0000000#32 ∧ k = w.extractLsb' 8 12 ∧ d = w.extractLsb' 0 8) ∧
    (0xC0000000 ≤ w.toNat → ∀ i, decode w ≠ .ok i)

/-- Decode and encode agree, for every instruction and every word: a word decodes to an instruction
exactly when it is that instruction's encoding (30_encoding.md R73, R76). -/
def Obligations.DecodeIsInverseOfEncode : Prop :=
  ∀ (i : Instr) (w : Word), decode w = .ok i ↔ w = encode i

/-- 30_encoding.md R76: a line is encoded as `(OP << 28) | (key << 8) | data` with the unused fields 0;
the fields do not overlap, so the sum says the same. -/
def Obligations.EncodingIsTheFormula : Prop :=
  (encode .nop).toNat = 0x0 * 2 ^ 28 ∧ (encode .init).toNat = 0x1 * 2 ^ 28 ∧
  (encode .encStart).toNat = 0x2 * 2 ^ 28 ∧ (encode .encStep).toNat = 0x3 * 2 ^ 28 ∧
  (encode .decStart).toNat = 0x4 * 2 ^ 28 ∧ (encode .decStep).toNat = 0x5 * 2 ^ 28 ∧
  (encode .compress).toNat = 0x6 * 2 ^ 28 ∧ (encode .decompress).toNat = 0x7 * 2 ^ 28 ∧
  (∀ d : Byte, (encode (.ctxAdvance d)).toNat = 0x8 * 2 ^ 28 + d.toNat) ∧
  (encode .ctxHash).toNat = 0x9 * 2 ^ 28 ∧
  (∀ k : Key, (encode (.tblPredict k)).toNat = 0xA * 2 ^ 28 + k.toNat * 2 ^ 8) ∧
  (∀ (k : Key) (d : Byte),
    (encode (.tblUpdate k d)).toNat = 0xB * 2 ^ 28 + k.toNat * 2 ^ 8 + d.toNat)

/-- 30_encoding.md R76: the assembler encodes the line of every instruction, and refuses a byte above
255, a key above 4095 and a wrong number of operands. -/
def Obligations.AssemblerEncodesOrRefuses : Prop :=
  (∀ i : Instr, assemble i.line = some (encode i)) ∧
  (∀ d : Nat, 255 < d → assemble ⟨.ctxAdvance, [d]⟩ = none) ∧
  (∀ k : Nat, 4095 < k → assemble ⟨.tblPredict, [k]⟩ = none) ∧
  (∀ k d : Nat, 4095 < k ∨ 255 < d → assemble ⟨.tblUpdate, [k, d]⟩ = none) ∧
  (∀ (i : Instr) (ops : List Nat), ops.length ≠ i.line.operands.length →
    assemble ⟨i.mnemonic, ops⟩ = none)

/-- A few words written out from 30_encoding.md R71 and R73 decode to the commands they stand for, and
two illegal ones to none. A sanity statement. -/
def Obligations.ListedWordsDecode : Prop :=
  decode 0x00000000#32 = .ok .nop ∧ decode 0x30000000#32 = .ok .encStep ∧
  decode 0x50000000#32 = .ok .decStep ∧ decode 0x80000041#32 = .ok (.ctxAdvance 0x41#8) ∧
  decode 0xA0037300#32 = .ok (.tblPredict 883#12) ∧
  decode 0xB00FFFAB#32 = .ok (.tblUpdate 4095#12 0xAB#8) ∧
  decode 0xC0000000#32 = .error .reservedOpcode ∧ decode 0x80000141#32 = .error .reservedBits

/-! ### The host's accesses (10_state.md, 20_memory.md, 44_session_control.md) -/

/-- 30_encoding.md R70: a host write of `w` to `CMD` runs the command it decodes to, once, and raises
`IllegalCommand(w)` where it decodes to none. What `step` adds around `exec` is the model's choice
(logs 3 and 5): the access leaves the queue and the counter of host writes goes up. -/
def Obligations.StepRunsTheDecodedCommand : Prop :=
  ∀ (s : State) (w : Word) (rest : List Access),
    s.pending = .write 0x00 .word w :: rest → s.busy = false →
    (∀ i, decode w = .ok i →
      step s = exec i { s with pending := rest, writes := s.writes + 1 }) ∧
    ((∀ i, decode w ≠ .ok i) →
      step s = .next (raise .illegalCommand w { s with pending := rest, writes := s.writes + 1 }))

/-- 30_encoding.md R74, 60_exceptions.md R221: the words with `OP` from 0xC to 0xF, and those with a 1 in
a bit their format requires to be zero, raise `IllegalCommand(w)` in every mode and do nothing
else. -/
def Obligations.IllegalWordsRaiseIllegalCommand : Prop :=
  ∀ (s : State) (w : Word),
    ((w >>> 28).toNat ∈ [0xC, 0xD, 0xE, 0xF] ∨
      (w >>> 28).toNat ∈ [0x0, 0x1, 0x2, 0x3, 0x4, 0x5, 0x6, 0x7, 0x9] ∧
        w &&& 0x0FFFFFFF#32 ≠ 0#32 ∨
      (w >>> 28).toNat = 0x8 ∧ w &&& 0x0FFFFF00#32 ≠ 0#32 ∨
      (w >>> 28).toNat = 0xA ∧ w &&& 0x0FF000FF#32 ≠ 0#32 ∨
      (w >>> 28).toNat = 0xB ∧ w &&& 0x0FF00000#32 ≠ 0#32) →
    ∃ t, writeCmd w s = .next t ∧
      t = { s with err := true, ecode := t.ecode, faultInfo := t.faultInfo } ∧
      (s.err = false → t.ecode = .illegalCmd ∧ t.faultInfo = w) ∧
      (s.err = true → t.ecode = s.ecode ∧ t.faultInfo = s.faultInfo)

/-- 10_state.md R38, 20_memory.md R53: only aligned 32-bit accesses of the register window are admitted;
a write to a read-only or reserved offset is ignored with no fault; a read of `CMD` or of a reserved
offset returns 0; a write to `IN_LEN` and a write to `CMD` follow their own rules. The model's choices:
the queue and the counter of host writes (logs 3 and 5), `busData` (log 7), the widths there are and
reserved offsets of any size (log 12). -/
def Obligations.WindowAccessRules : Prop :=
  ∀ (s : State) (off : Nat) (width : Width) (v : Word) (rest : List Access), s.busy = false →
    let u := { s with pending := rest, writes := s.writes + 1 }
    (s.pending = .write off width v :: rest →
      (width ≠ .word → step s = .refused .subWordAccess) ∧
      (width = .word → off % 4 ≠ 0 → step s = .refused .misalignedAccess) ∧
      (width = .word → off % 4 = 0 → off ≠ 0x00 → off ≠ 0x08 → step s = .next u) ∧
      (width = .word → off = 0x08 → step s = .next (complete v u (setInLen v u))) ∧
      (width = .word → off = 0x00 → step s = writeCmd v u)) ∧
    (s.pending = .read off width :: rest →
      (width ≠ .word → step s = .refused .subWordAccess) ∧
      (width = .word → off % 4 ≠ 0 → step s = .refused .misalignedAccess) ∧
      (width = .word → off % 4 = 0 → off = 0x00 ∨ 0x38 ≤ off →
        step s = .next { s with pending := rest, busData := 0 }))

/-- 10_state.md R34 to R37: what a read of each offset of the register window returns, field by field,
and that the read changes nothing of the block. `busData`, the host's side of the bus, and the queue
are the model's choices (logs 7 and 5). -/
def Obligations.WindowReadsReturnTheRegisters : Prop :=
  ∀ (s : State) (off : Nat) (rest : List Access),
    s.pending = .read off .word :: rest → s.busy = false → off % 4 = 0 →
    ∃ x : Word, step s = .next { s with pending := rest, busData := x } ∧
      (off = 0x04 → x.extractLsb' 0 2 = modeBits s.mode ∧ x.extractLsb' 2 2 = stopBits s.stop ∧
        x.getLsbD 4 = s.err ∧ x.extractLsb' 5 3 = ecodeBits s.ecode ∧ x.getLsbD 8 = s.busy ∧
        x.extractLsb' 9 23 = 0) ∧
      (off = 0x08 → x = s.inLen) ∧ (off = 0x0C → x = s.inPos) ∧ (off = 0x10 → x = s.outLen) ∧
      (off = 0x14 → x.extractLsb' 0 16 = s.result ∧ x.extractLsb' 16 16 = 0) ∧
      (off = 0x18 → x = s.ctx.extractLsb' 0 32) ∧ (off = 0x1C → x = s.ctx.extractLsb' 32 32) ∧
      (off = 0x20 → x.extractLsb' 0 8 = s.eFlags ∧ x.extractLsb' 8 3 = s.eBitpos ∧
        x.extractLsb' 11 5 = 0 ∧ x.extractLsb' 16 8 = s.dCtrl ∧ x.extractLsb' 24 4 = s.dBitpos ∧
        x.extractLsb' 28 4 = 0) ∧
      (off = 0x24 → x = s.eFlagpos) ∧
      (off = 0x28 → x.extractLsb' 0 8 = 3 ∧ x.extractLsb' 8 8 = 12 ∧ x.extractLsb' 16 8 = 1 ∧
        x.extractLsb' 24 8 = 0) ∧
      (off = 0x2C → x = 0xed558ccd#32) ∧ (off = 0x30 → x = 0xff51afd7#32) ∧
      (off = 0x34 → x = s.faultInfo)

/-- 10_state.md R26 to R28: the numbers that stand for `MODE`, `STOP` and `ECODE`. -/
def Obligations.StatusCodes : Prop :=
  (modeBits .idle = 0 ∧ modeBits .enc = 1 ∧ modeBits .dec = 2 ∧ modeBits .done = 3) ∧
  (stopBits .none = 0 ∧ stopBits .encEnd = 1 ∧ stopBits .noCtrl = 2 ∧ stopBits .noLit = 3) ∧
  (ecodeBits .none = 0 ∧ ecodeBits Cause.illegalCommand.ecode = 1 ∧
    ecodeBits Cause.sequenceError.ecode = 2 ∧ ecodeBits Cause.outOverflow.ecode = 3 ∧
    ecodeBits Cause.badLength.ecode = 4)

/-- 44_session_control.md R213: a host write of `v` to `IN_LEN`. The queue and the counter of host writes
are the model's choices (logs 3 and 5). -/
def Obligations.InLenWriteRule : Prop :=
  ∀ (s : State) (v : Word) (rest : List Access),
    s.pending = .write 0x08 .word v :: rest → s.busy = false →
    let u := { s with pending := rest, writes := s.writes + 1 }
    (InSession s → step s = .next (raise .sequenceError v u)) ∧
    (Free s → s.inCap < v.toNat → step s = .next (raise .badLength v u)) ∧
    (Free s → v.toNat ≤ s.inCap → step s = .next { u with inLen := v })

/-- 20_memory.md R56, 10_state.md R41: a host read of a byte of `OUT` or of `IN` has no side effect on
the block, and a read of `OUT[p]` for `p < OUT_LEN` returns that byte. The model's choices: a read of
`OUT` at `OUT_CAP` and beyond completes too (log 9), a byte of `IN` at `IN_CAP` and beyond does not exist
(log 10), the queue and where the byte read stands (logs 5 and 7). -/
def Obligations.HostByteReadsHaveNoSideEffect : Prop :=
  ∀ (s : State) (p : Nat) (rest : List Access), s.busy = false →
    (s.pending = .readOut p :: rest →
      ∃ x : Byte, step s = .next { s with pending := rest, busData := x.setWidth 32 } ∧
        (p < s.outLen.toNat → x = outRead s p)) ∧
    (s.pending = .readIn p :: rest →
      (p < s.inCap →
        step s = .next { s with pending := rest, busData := (inRead s p).setWidth 32 }) ∧
      (s.inCap ≤ p → step s = .fault .noSuchInByte))

/-- 30_encoding.md R76, 70_reset_and_hazards.md R252 and R261: outside a session `LOAD_IN` fills `IN[0..]`
with the bytes given and changes no other byte; in a session a host write of `IN` is refused; a
byte beyond `IN_CAP` does not exist. The model's choices: logs 10 and 11, and the queue and the counter
of host writes (logs 3 and 5). -/
def Obligations.LoadInPlacesTheBytes : Prop :=
  ∀ (s : State) (bytes : List Byte) (rest : List Access),
    s.pending = .loadIn bytes :: rest → s.busy = false →
    (Free s → bytes.length ≤ s.inCap →
      ∃ t, step s = .next t ∧
        t = { s with pending := rest, writes := s.writes + 1, inBuf := t.inBuf } ∧
        (∀ p, (h : p < bytes.length) → inRead t p = bytes[p]) ∧
        (∀ p, bytes.length ≤ p → inRead t p = inRead s p)) ∧
    (InSession s → bytes ≠ [] → step s = .refused .inputWriteInSession) ∧
    (Free s → s.inCap < bytes.length → step s = .fault .noSuchInByte)

/-- 10_state.md R43: every piece of state has its reset value right after power-on and after the reset
event, which leaves `TBL` and `OUT` with no stated byte and does not touch `IN`; the constants read as
always. That a reset event is a step is `ResetEventIsAStep`. -/
def Obligations.ResetValues : Prop :=
  AtReset State.reset ∧
  (∀ s : State, AtReset (resetEvent s) ∧ (resetEvent s).inBuf = s.inBuf) ∧
  (∀ s : State, readOffset 0x28 s = 0x00010C03#32 ∧ readOffset 0x2C s = 0xed558ccd#32 ∧
    readOffset 0x30 s = 0xff51afd7#32)

/-- With no access pending the block waits and nothing changes (70_reset_and_hazards.md R251: "waits for
a host access"). The model's choice, log 6. -/
def Obligations.NothingHappensWithoutAnAccess : Prop :=
  ∀ s : State, s.pending = [] → step s = .next s

/-! ### Faults (60_exceptions.md) -/

/-- 60_exceptions.md R222: the first fault writes `ECODE` and `FAULT_INFO` and sets `ERR`; a later one
changes nothing at all. -/
def Obligations.FaultRecord : Prop :=
  ∀ (c : Cause) (v : Word) (s : State),
    (s.err = false → raise c v s = { s with err := true, ecode := c.ecode, faultInfo := v }) ∧
    (s.err = true → raise c v s = s)

/-- 44_session_control.md R212: in a mode where the table says SEQ a command raises `SequenceError` and
does nothing else; where it says ok the command answers a next state without that fault; an illegal
word is tested before the table. -/
def Obligations.ModeLegalityTable : Prop :=
  ∀ s : State,
    (∀ i, legalIn i.mnemonic s.mode = false →
      exec i s = .next (raise .sequenceError (encode i) s)) ∧
    (∀ i, legalIn i.mnemonic s.mode = true →
      ∃ t, exec i s = .next t ∧ (s.err = false → t.err = true → t.ecode ≠ .sequence)) ∧
    (∀ w, (∀ i, decode w ≠ .ok i) → writeCmd w s = .next (raise .illegalCommand w s))

/-- 60_exceptions.md R223: `IllegalCommand` comes before `SequenceError`, `SequenceError` before
`OutOverflow`, and for `IN_LEN` `SequenceError` before `BadLength`; a full `OUT` is found before
anything is written. -/
def Obligations.FaultPriority : Prop :=
  ∀ s : State,
    (∀ w, (∀ i, decode w ≠ .ok i) → writeCmd w s = .next (raise .illegalCommand w s)) ∧
    (s.mode ≠ .enc → exec .encStep s = .next (raise .sequenceError 0x30000000#32 s)) ∧
    (s.mode ≠ .dec → exec .decStep s = .next (raise .sequenceError 0x50000000#32 s)) ∧
    (∀ t, s.mode = .enc → s.err = false → exec .encStep s = .next t → t.err = true →
      t = raise .outOverflow 0x30000000#32 s) ∧
    (∀ t, s.mode = .dec → s.err = false → exec .decStep s = .next t → t.err = true →
      t = raise .outOverflow 0x50000000#32 s) ∧
    (InSession s → ∀ v : Word, s.inCap < v.toNat →
      writeOffset 0x08 v s = .next (raise .sequenceError v s))

/-- 10_state.md R28, 60_exceptions.md R222: once `ERR` is 1, every step but a reset leaves `ERR`, `ECODE`
and `FAULT_INFO` as they are. -/
def Obligations.FaultRecordIsSticky : Prop :=
  ∀ s t : State, s.err = true → (∀ rest, s.pending ≠ .reset :: rest) → step s = .next t →
    t.err = true ∧ t.ecode = s.ecode ∧ t.faultInfo = s.faultInfo

/-- 60_exceptions.md R226: the fault record blocks no command. Whatever it holds, a command answers a
next state and does to all the other state what it does with any other record. -/
def Obligations.FaultRecordBlocksNoCommand : Prop :=
  ∀ (i : Instr) (s : State) (e : Bool) (c : ECode) (v : Word),
    ∃ t t', exec i s = .next t ∧
      exec i { s with err := e, ecode := c, faultInfo := v } = .next t' ∧
      { t' with err := t.err, ecode := t.ecode, faultInfo := t.faultInfo } = t

/-! ### The datapath and its commands (40_context_hash_table.md) -/

/-- 40_context_hash_table.md R101: `advance` shifts the byte in, the oldest byte falls off, and the
result has 24 bits. -/
def Obligations.AdvanceShiftsTheByteIn : Prop :=
  (∀ (ctx : Ctx) (b : Byte), ctx.toNat < 2 ^ 24 →
    (advance ctx b).toNat = (ctx.toNat * 2 ^ 8 + b.toNat) % 2 ^ 24 ∧
    advance ctx b = (ctx.extractLsb' 0 16 ++ b).setWidth 64) ∧
  advance 0 0 = 0 ∧ advance 0xFFFFFF 0xAB = 0xFFFFAB ∧ advance 0x123456 0x00 = 0x345600

/-- 40_context_hash_table.md R102: `hash` is the top 12 bits of the 64-bit product. -/
def Obligations.HashTakesTheTopBitsOfTheProduct : Prop :=
  (∀ ctx : Ctx, (hashKey ctx).toNat = ctx.toNat * 0xff51afd7ed558ccd % 2 ^ 64 / 2 ^ 52) ∧
  hashKey 0 = 0 ∧ hashKey 1 = 4085 ∧ hashKey 0xFFFFFF = 3465 ∧ hashKey 0x226173 = 0

/-- 40_context_hash_table.md R103 and R104: after `update(k, b)` slot `k` holds `b`, every other slot holds
what it held, and nothing but `TBL` has changed. -/
def Obligations.UpdateOverwritesOneSlot : Prop :=
  ∀ (k : Key) (b : Byte) (s : State),
    update k b s = { s with tbl := (update k b s).tbl } ∧
    ∀ j, predict (update k b s) j = if j = k then b else predict s j

/-- 40_context_hash_table.md R107: `CTX_ADVANCE data`. -/
def Obligations.CtxAdvanceRule : Prop :=
  ∀ s : State,
    (∀ (w : Word) (d : Byte), decode w = .ok (.ctxAdvance d) ↔
      w &&& 0xFFFFFF00#32 = 0x80000000#32 ∧ d = w.extractLsb' 0 8) ∧
    (∀ d : Byte, Free s → exec (.ctxAdvance d) s =
      .next { s with ctx := ((s.ctx <<< 8) + d.setWidth 64) &&& 0xFFFFFF#64 }) ∧
    (∀ d : Byte, InSession s → exec (.ctxAdvance d) s =
      .next (raise .sequenceError (0x80000000#32 ||| d.setWidth 32) s)) ∧
    (∀ w : Word, w.extractLsb' 28 4 = 0x8#4 → w.extractLsb' 8 20 ≠ 0 →
      writeCmd w s = .next (raise .illegalCommand w s))

/-- 40_context_hash_table.md R108: `CTX_HASH`. -/
def Obligations.CtxHashRule : Prop :=
  ∀ s : State,
    (∀ w : Word, decode w = .ok .ctxHash ↔ w = 0x90000000#32) ∧
    (Free s → ∃ t, exec .ctxHash s = .next t ∧ t = { s with result := t.result } ∧
      t.result.toNat = s.ctx.toNat * 0xff51afd7ed558ccd % 2 ^ 64 / 2 ^ 52) ∧
    (InSession s → exec .ctxHash s = .next (raise .sequenceError 0x90000000#32 s)) ∧
    (∀ w : Word, w.extractLsb' 28 4 = 0x9#4 → w.extractLsb' 0 28 ≠ 0 →
      writeCmd w s = .next (raise .illegalCommand w s))

/-- 40_context_hash_table.md R109: `TBL_PREDICT key`. It reads 0 from every slot after `INIT`. -/
def Obligations.TblPredictRule : Prop :=
  ∀ s : State,
    (∀ (w : Word) (k : Key), decode w = .ok (.tblPredict k) ↔
      w &&& 0xFFF000FF#32 = 0xA0000000#32 ∧ k = w.extractLsb' 8 12) ∧
    (∀ k : Key, Free s → ∃ t, exec (.tblPredict k) s = .next t ∧ t = { s with result := t.result } ∧
      t.result = (predict s k).setWidth 16) ∧
    (∀ k : Key, InSession s → exec (.tblPredict k) s =
      .next (raise .sequenceError (0xA0000000#32 ||| (k.setWidth 32 <<< 8)) s)) ∧
    (∀ w : Word, w.extractLsb' 28 4 = 0xA#4 → w.extractLsb' 20 8 ≠ 0 ∨ w.extractLsb' 0 8 ≠ 0 →
      writeCmd w s = .next (raise .illegalCommand w s)) ∧
    (∀ (k : Key) (t : State), exec .init s = .next t → exec (.tblPredict k) t = .next t)

/-- 40_context_hash_table.md R110: `TBL_UPDATE key, data`. -/
def Obligations.TblUpdateRule : Prop :=
  ∀ s : State,
    (∀ (w : Word) (k : Key) (d : Byte), decode w = .ok (.tblUpdate k d) ↔
      w &&& 0xFFF00000#32 = 0xB0000000#32 ∧ k = w.extractLsb' 8 12 ∧ d = w.extractLsb' 0 8) ∧
    (∀ (k : Key) (d : Byte), Free s → ∃ t, exec (.tblUpdate k d) s = .next t ∧
      t = { s with tbl := t.tbl } ∧ ∀ j, predict t j = if j = k then d else predict s j) ∧
    (∀ (k : Key) (d : Byte), InSession s → exec (.tblUpdate k d) s =
      .next (raise .sequenceError
        (0xB0000000#32 ||| (k.setWidth 32 <<< 8) ||| d.setWidth 32) s)) ∧
    (∀ w : Word, w.extractLsb' 28 4 = 0xB#4 → w.extractLsb' 20 8 ≠ 0 →
      writeCmd w s = .next (raise .illegalCommand w s))

/-! ### The control-flag codec (41_control_flags.md) -/

/-- 41_control_flags.md R130 and R131: setting slot `i` sets bit `7 - i` and no other, and testing it
reads that bit. -/
def Obligations.FlagSlotsAreBits : Prop :=
  (∀ (f : Byte) (i j : Nat), i < 8 → j < 8 →
    (flagSet f i).getLsbD j = (f.getLsbD j || decide (j = 7 - i))) ∧
  (∀ (c : Byte) (i : Nat), i < 8 → flagTest c i = c.getLsbD (7 - i)) ∧
  flagSet 0x00 0 = 0x80 ∧ flagSet 0x80 1 = 0xC0 ∧ flagSet 0x0E 7 = 0x0F ∧
  flagTest 0x0F 3 = false ∧ flagTest 0x0F 4 = true ∧ flagTest 0x80 0 = true

/-- 41_control_flags.md R132, R133 and R135: setting the hits of a group one by one gives the sum of
their weights, and testing its slots gives the hits back, with every slot no byte took clear. -/
def Obligations.PackThenUnpackIsIdentity : Prop :=
  ∀ hits : List Bool, hits.length ≤ 8 →
    (hits.zipIdx.foldl (fun f h => if h.1 then flagSet f h.2 else f) 0x00#8 = packFrom 0 hits) ∧
    ∀ i, i < 8 → flagTest (packFrom 0 hits) i = hits.getD i false

/-! ### Session control (44_session_control.md) -/

/-- 44_session_control.md R210: `NOP` leaves every piece of state unchanged, in every mode. -/
def Obligations.NopRule : Prop :=
  ∀ s : State,
    (∀ w : Word, decode w = .ok .nop ↔ w = 0x00000000#32) ∧ exec .nop s = .next s ∧
    (∀ w : Word, w.extractLsb' 28 4 = 0x0#4 → w.extractLsb' 0 28 ≠ 0 →
      writeCmd w s = .next (raise .illegalCommand w s))

/-- 44_session_control.md R211: `INIT`, in every mode: fresh state and `IDLE`; every slot of `TBL` is 0x00;
`IN`, `IN_LEN`, the bytes of `OUT` and the fault record stay. -/
def Obligations.InitRule : Prop :=
  ∀ s : State,
    (∀ w : Word, decode w = .ok .init ↔ w = 0x10000000#32) ∧
    (∃ t, exec .init s = .next t ∧
      t = { s with ctx := 0, tbl := t.tbl, inPos := 0, outLen := 0, eFlags := 0, eBitpos := 0,
                   eFlagpos := 0, dCtrl := 0, dBitpos := 8, result := 0, stop := .none,
                   mode := .idle } ∧
      ∀ k, predict t k = 0x00) ∧
    (∀ w : Word, w.extractLsb' 28 4 = 0x1#4 → w.extractLsb' 0 28 ≠ 0 →
      writeCmd w s = .next (raise .illegalCommand w s))

/-! ### The encoder (42_encoder.md) -/

/-- 42_encoder.md R150: `ENC_START`. -/
def Obligations.EncStartRule : Prop :=
  ∀ s : State,
    (∀ w : Word, decode w = .ok .encStart ↔ w = 0x20000000#32) ∧
    (Free s → ∃ t, exec .encStart s = .next t ∧
      t = { s with ctx := 0, tbl := t.tbl, inPos := 0, outLen := 1, eFlags := 0, eBitpos := 0,
                   eFlagpos := 0, dCtrl := 0, dBitpos := 8, stop := .none, mode := .enc,
                   outBuf := t.outBuf } ∧
      (∀ k, predict t k = 0x00) ∧
      (∀ p, outRead t p = if p = 0 then 0x00 else outRead s p)) ∧
    (InSession s → exec .encStart s = .next (raise .sequenceError 0x20000000#32 s)) ∧
    (∀ w : Word, w.extractLsb' 28 4 = 0x2#4 → w.extractLsb' 0 28 ≠ 0 →
      writeCmd w s = .next (raise .illegalCommand w s))

/-- 42_encoder.md R151, R153, R154, R156 and R159: every path of `ENC_STEP`, in every state: the wrong
mode, the finalising path, the full buffer, and the byte path with a hit or a miss, inside a group or
on its 8th byte. `n` is `OUT_LEN` after the literal. -/
def Obligations.EncStepRule : Prop :=
  ∀ s : State,
    let b := inRead s s.inPos.toNat
    let k := hashKey s.ctx
    let hit := predict s k = b
    let last := s.eBitpos = 7#3
    let need := (if hit then 0 else 1) + (if last then 1 else 0)
    let f := if hit then flagSet s.eFlags s.eBitpos.toNat else s.eFlags
    let n := if hit then s.outLen else s.outLen + 1
    (∀ w : Word, decode w = .ok .encStep ↔ w = 0x30000000#32) ∧
    (s.mode ≠ .enc → exec .encStep s = .next (raise .sequenceError 0x30000000#32 s)) ∧
    (s.mode = .enc → s.inPos = s.inLen → ∃ t, exec .encStep s = .next t ∧
      t = { s with outBuf := t.outBuf, mode := .done, stop := .encEnd } ∧
      ∀ p, outRead t p = if p = s.eFlagpos.toNat then s.eFlags else outRead s p) ∧
    (s.mode = .enc → s.inPos ≠ s.inLen → s.outCap < s.outLen.toNat + need →
      exec .encStep s = .next (raise .outOverflow 0x30000000#32 s)) ∧
    (s.mode = .enc → s.inPos ≠ s.inLen → s.outLen.toNat + need ≤ s.outCap →
      ∃ t, exec .encStep s = .next t ∧
        t = { s with
              inPos := s.inPos + 1
              ctx := advance s.ctx b
              tbl := t.tbl
              outBuf := t.outBuf
              outLen := if last then n + 1 else n
              eFlags := if last then 0x00 else f
              eBitpos := if last then 0 else s.eBitpos + 1
              eFlagpos := if last then n else s.eFlagpos } ∧
        (∀ j, predict t j = if ¬hit ∧ j = k then b else predict s j) ∧
        (∀ p, outRead t p =
          if last ∧ p = n.toNat then 0x00
          else if last ∧ p = s.eFlagpos.toNat then f
          else if ¬hit ∧ p = s.outLen.toNat then b
          else outRead s p)) ∧
    (∀ w : Word, w.extractLsb' 28 4 = 0x3#4 → w.extractLsb' 0 28 ≠ 0 →
      writeCmd w s = .next (raise .illegalCommand w s))

/-- 42_encoder.md R157: `COMPRESS` is `ENC_START` and then `ENC_STEP` while `MODE` is `ENC`. Either the
last of `IN_LEN + 1` steps ends the session and the two leave the same state, or after fewer the next
step would raise `OutOverflow`, and `COMPRESS` records that fault with the word the host wrote on what
the completed steps left. -/
def Obligations.CompressIsItsSteps : Prop :=
  ∀ s : State, Free s →
    ∃ (n : Nat) (t : State), n ≤ s.inLen.toNat + 1 ∧
      execAll (.encStart :: List.replicate n .encStep) s = .next t ∧
      t.err = s.err ∧ t.ecode = s.ecode ∧ t.faultInfo = s.faultInfo ∧
      (n = s.inLen.toNat + 1 ∧ t.mode = .done ∧ t.stop = .encEnd ∧ exec .compress s = .next t ∨
        t.mode = .enc ∧ exec .encStep t = .next (raise .outOverflow 0x30000000#32 t) ∧
        exec .compress s = .next (raise .outOverflow 0x60000000#32 t))

/-- 42_encoder.md R155, R159 and R162, 60_exceptions.md R220: with room for the bound, `COMPRESS` ends
its session with no fault whatever `IN` holds: `DONE`, `ENC_END`, the whole input read, a stream no
longer than the bound that begins with a control byte. `IN`, `IN_LEN`, `RESULT` and the bytes of
`OUT` beyond the stream stay. -/
def Obligations.CompressCompletes : Prop :=
  ∀ s : State, Free s → s.outCap < 2 ^ 32 →
    s.inLen.toNat + s.inLen.toNat / 8 + 1 ≤ s.outCap →
    ∃ t, exec .compress s = .next t ∧ t.mode = .done ∧ t.stop = .encEnd ∧ t.inPos = s.inLen ∧
      s.inLen.toNat / 8 + 1 ≤ t.outLen.toNat ∧
      t.outLen.toNat ≤ s.inLen.toNat + s.inLen.toNat / 8 + 1 ∧
      (∀ p, s.inLen.toNat + s.inLen.toNat / 8 + 1 ≤ p → outRead t p = outRead s p) ∧
      t = { s with ctx := t.ctx, tbl := t.tbl, outBuf := t.outBuf, outLen := t.outLen,
                   inPos := t.inPos, eFlags := t.eFlags, eBitpos := t.eBitpos,
                   eFlagpos := t.eFlagpos, dCtrl := 0, dBitpos := 8, mode := .done,
                   stop := .encEnd }

/-- 42_encoder.md R160 and R157: where the document's `compress` of `IN[0..IN_LEN)` fits in `OUT`,
`COMPRESS` leaves exactly it in `OUT[0..OUT_LEN)` and raises nothing; where it does not fit, `COMPRESS`
raises `OutOverflow` and `MODE` stays `ENC`. -/
def Obligations.CompressRefinesTheDocument : Prop :=
  ∀ s : State, Free s → 1 ≤ s.outCap → s.outCap < 2 ^ 32 →
    ∃ t, exec .compress s = .next t ∧
      ((Reference.compress (inputOf s)).length ≤ s.outCap →
        outputOf t = Reference.compress (inputOf s) ∧ t.mode = .done ∧ t.stop = .encEnd ∧
        t.err = s.err ∧ t.ecode = s.ecode ∧ t.faultInfo = s.faultInfo) ∧
      (s.outCap < (Reference.compress (inputOf s)).length →
        t.mode = .enc ∧ t.err = true ∧
        (s.err = false → t.ecode = .outOverflow ∧ t.faultInfo = 0x60000000#32))

/-- 42_encoder.md R158, 30_encoding.md R85: the empty input gives the stream `[0x00]`. -/
def Obligations.EmptyInputGivesOneZeroByte : Prop :=
  ∀ s : State, Free s → s.inLen = 0 →
    ∃ t, exec .compress s = .next t ∧ t.mode = .done ∧ t.stop = .encEnd ∧ outputOf t = [0x00]

/-- 42_encoder.md R161: the result of an encoder session depends only on `IN[0..IN_LEN)` (and on whether
`OUT_CAP` suffices): two states that agree on the input and on `OUT_CAP` reach, by `COMPRESS`, the same
stream, context, mode, stop and table, whatever `CTX`, `TBL` and the registers held before. -/
def Obligations.CompressDependsOnlyOnTheInput : Prop :=
  ∀ s s' : State, Free s → Free s' → s'.inLen = s.inLen → s'.outCap = s.outCap →
    s.outCap < 2 ^ 32 → 1 ≤ s.outCap →
    (∀ p, p < s.inLen.toNat → inRead s' p = inRead s p) →
    ∃ t t', exec .compress s = .next t ∧ exec .compress s' = .next t' ∧
      outputOf t' = outputOf t ∧ t'.mode = t.mode ∧ t'.stop = t.stop ∧ t'.ctx = t.ctx ∧
      t'.inPos = t.inPos ∧ ∀ k, predict t' k = predict t k

/-! ### The decoder (43_decoder.md) -/

/-- 43_decoder.md R180: `DEC_START`. -/
def Obligations.DecStartRule : Prop :=
  ∀ s : State,
    (∀ w : Word, decode w = .ok .decStart ↔ w = 0x40000000#32) ∧
    (Free s → ∃ t, exec .decStart s = .next t ∧
      t = { s with ctx := 0, tbl := t.tbl, inPos := 0, outLen := 0, eFlags := 0, eBitpos := 0,
                   eFlagpos := 0, dCtrl := 0, dBitpos := 8, stop := .none, mode := .dec } ∧
      ∀ k, predict t k = 0x00) ∧
    (InSession s → exec .decStart s = .next (raise .sequenceError 0x40000000#32 s)) ∧
    (∀ w : Word, w.extractLsb' 28 4 = 0x4#4 → w.extractLsb' 0 28 ≠ 0 →
      writeCmd w s = .next (raise .illegalCommand w s))

/-- 43_decoder.md R181, R183, R184 and R185: every path of `DEC_STEP`, in every state: the wrong mode,
the control-byte stop, the literal stop, the full buffer, and the producing path by a set slot or by
a literal. `c`, `p`, `i` are the control byte, the next input position and the slot of the step. -/
def Obligations.DecStepRule : Prop :=
  ∀ s : State,
    let fetch := s.dBitpos = 8#4
    let c := if fetch then inRead s s.inPos.toNat else s.dCtrl
    let p := if fetch then s.inPos + 1 else s.inPos
    let i := if fetch then 0#4 else s.dBitpos
    let k := hashKey s.ctx
    let hit := flagTest c i.toNat = true
    let b := if hit then predict s k else inRead s p.toNat
    (∀ w : Word, decode w = .ok .decStep ↔ w = 0x50000000#32) ∧
    (s.mode ≠ .dec → exec .decStep s = .next (raise .sequenceError 0x50000000#32 s)) ∧
    (s.mode = .dec → fetch → s.inPos = s.inLen →
      exec .decStep s = .next { s with mode := .done, stop := .noCtrl }) ∧
    (s.mode = .dec → ¬(fetch ∧ s.inPos = s.inLen) →
      (¬hit → p = s.inLen → exec .decStep s =
        .next { s with dCtrl := c, dBitpos := i, inPos := p, mode := .done, stop := .noLit }) ∧
      (¬(¬hit ∧ p = s.inLen) → s.outCap < s.outLen.toNat + 1 →
        exec .decStep s = .next (raise .outOverflow 0x50000000#32 s)) ∧
      (¬(¬hit ∧ p = s.inLen) → s.outLen.toNat + 1 ≤ s.outCap →
        ∃ t, exec .decStep s = .next t ∧
          t = { s with
                ctx := advance s.ctx b
                tbl := t.tbl
                outBuf := t.outBuf
                outLen := s.outLen + 1
                dCtrl := c
                inPos := if hit then p else p + 1
                dBitpos := i + 1 } ∧
          (∀ j, predict t j = if ¬hit ∧ j = k then b else predict s j) ∧
          (∀ q, outRead t q = if q = s.outLen.toNat then b else outRead s q))) ∧
    (∀ w : Word, w.extractLsb' 28 4 = 0x5#4 → w.extractLsb' 0 28 ≠ 0 →
      writeCmd w s = .next (raise .illegalCommand w s))

/-- 43_decoder.md R186: `DECOMPRESS` is `DEC_START` and then `DEC_STEP` while `MODE` is `DEC`, at most
`8 * IN_LEN + 1` times, with the fault of a step recorded under the word the host wrote. -/
def Obligations.DecompressIsItsSteps : Prop :=
  ∀ s : State, Free s →
    ∃ (n : Nat) (t : State), n ≤ 8 * s.inLen.toNat + 1 ∧
      execAll (.decStart :: List.replicate n .decStep) s = .next t ∧
      t.err = s.err ∧ t.ecode = s.ecode ∧ t.faultInfo = s.faultInfo ∧
      (t.mode = .done ∧ (t.stop = .noCtrl ∨ t.stop = .noLit) ∧ exec .decompress s = .next t ∨
        t.mode = .dec ∧ exec .decStep t = .next (raise .outOverflow 0x50000000#32 t) ∧
        exec .decompress s = .next (raise .outOverflow 0x70000000#32 t))

/-- 43_decoder.md R188 and R191, 60_exceptions.md R220: with room for eight times the input, `DECOMPRESS`
ends its session with no fault whatever `IN` holds, by one of the two stops. -/
def Obligations.DecompressCompletes : Prop :=
  ∀ s : State, Free s → s.outCap < 2 ^ 32 → 8 * s.inLen.toNat ≤ s.outCap →
    ∃ t, exec .decompress s = .next t ∧ t.mode = .done ∧ (t.stop = .noCtrl ∨ t.stop = .noLit) ∧
      t.inPos = s.inLen ∧ t.outLen.toNat ≤ 8 * s.inLen.toNat ∧
      (∀ p, 8 * s.inLen.toNat ≤ p → outRead t p = outRead s p) ∧
      t = { s with ctx := t.ctx, tbl := t.tbl, outBuf := t.outBuf, outLen := t.outLen,
                   inPos := t.inPos, eFlags := 0, eBitpos := 0, eFlagpos := 0, dCtrl := t.dCtrl,
                   dBitpos := t.dBitpos, mode := .done, stop := t.stop }

/-- 43_decoder.md R192 and R186: where the document's `decompress` of `IN[0..IN_LEN)` fits in `OUT`,
`DECOMPRESS` leaves exactly it in `OUT[0..OUT_LEN)` and raises nothing; where it does not fit,
`DECOMPRESS` raises `OutOverflow` and `MODE` stays `DEC`. -/
def Obligations.DecompressRefinesTheDocument : Prop :=
  ∀ s : State, Free s → s.outCap < 2 ^ 32 →
    ∃ t, exec .decompress s = .next t ∧
      ((Reference.decompress (inputOf s)).length ≤ s.outCap →
        outputOf t = Reference.decompress (inputOf s) ∧ t.mode = .done ∧
        (t.stop = .noCtrl ∨ t.stop = .noLit) ∧
        t.err = s.err ∧ t.ecode = s.ecode ∧ t.faultInfo = s.faultInfo) ∧
      (s.outCap < (Reference.decompress (inputOf s)).length →
        t.mode = .dec ∧ t.err = true ∧
        (s.err = false → t.ecode = .outOverflow ∧ t.faultInfo = 0x70000000#32))

/-- The round trip of the document's functions (43_decoder.md R190, quoting "for all byte sequences"). -/
def Obligations.ReferenceRoundTrip : Prop :=
  ∀ bs : List Byte, Reference.decompress (Reference.compress bs) = bs

/-- 43_decoder.md R190: the round trip on the machine. `COMPRESS` runs to its end in `s` and leaves `t`;
the bytes `OUT[0..OUT_LEN)` of `t` are the input of any state `u` with no session; `DECOMPRESS` there
gives the gives the input of `s` back, provided it raises no fault. It stops with `NO_LIT`, the whole stream read
(R189). That it raises none exactly where the input of `s` fits in `OUT` is inferred from R184. -/
def Obligations.RoundTrip : Prop :=
  ∀ s t u : State, Free s → Free u → 1 ≤ s.outCap → s.outCap < 2 ^ 32 → u.outCap < 2 ^ 32 →
    exec .compress s = .next t → t.mode = .done → inputOf u = outputOf t →
    ∃ v, exec .decompress u = .next v ∧ (v.mode = .done ↔ s.inLen.toNat ≤ u.outCap) ∧
      (v.mode = .done → outputOf v = inputOf s ∧ v.stop = .noLit ∧ v.inPos = u.inLen ∧
        v.err = u.err ∧ v.ecode = u.ecode ∧ v.faultInfo = u.faultInfo)

/-- 70_reset_and_hazards.md R264: while `MODE` is `DEC`, a step never rewrites an output byte: what
`OUT[0..OUT_LEN)` holds before `DEC_STEP` is a prefix of what it holds after. -/
def Obligations.DecoderNeverRewritesOutput : Prop :=
  ∀ s t : State, s.mode = .dec → s.outCap < 2 ^ 32 → exec .decStep s = .next t →
    outputOf s <+: outputOf t

/-! ### The whole machine -/

/-- The invariant of every observable point holds right after power-on reset (10_state.md R44). The
memories' canonical form in it is the model's choice (log 20), and so are the capacities as fields
(log 1). -/
def Obligations.InvariantHoldsAtReset : Prop := Inv State.reset

/-- 10_state.md R44: from every state that meets the invariant, a step that answers a next state keeps
it, whatever the host does. What `Inv` rests on beyond the spec is said at `InvariantHoldsAtReset`. -/
def Obligations.InvariantKeptByEveryStep : Prop :=
  ∀ s t : State, Inv s → step s = .next t → Inv t

/-- 70_reset_and_hazards.md R265: after `OutOverflow` a session of either kind is stuck until `INIT`. A step
that faults in its own mode can only raise `OutOverflow`; where an older fault stands, it shows by
changing nothing. `MODE` stays, and so it does where `COMPRESS` or `DECOMPRESS` overflows (R157, R186,
92_eei_decisions.md D36). -/
def Obligations.OverflowedSessionIsStuckUntilInit : Prop :=
  ∀ s t : State,
    (s.mode = .enc → exec .encStep s = .next t → t.err = true → (s.err = true → t = s) →
      t = raise .outOverflow 0x30000000#32 s ∧ t.mode = .enc ∧ StuckUntilInit t) ∧
    (s.mode = .dec → exec .decStep s = .next t → t.err = true → (s.err = true → t = s) →
      t = raise .outOverflow 0x50000000#32 s ∧ t.mode = .dec ∧ StuckUntilInit t) ∧
    (Free s → exec .compress s = .next t → t.mode ≠ .done →
      t.mode = .enc ∧ StuckUntilInit t ∧
      (s.err = false → t.ecode = .outOverflow ∧ t.faultInfo = 0x60000000#32)) ∧
    (Free s → exec .decompress s = .next t → t.mode ≠ .done →
      t.mode = .dec ∧ StuckUntilInit t ∧
      (s.err = false → t.ecode = .outOverflow ∧ t.faultInfo = 0x70000000#32))

/-- 10_state.md R26: no transition of `MODE` exists but those of its table (`ModeMove`). A step that changes
`MODE` is a reset going to `IDLE`, or a 32-bit write to `CMD` of a word that decodes to a command which
makes such a move: every other access, and an illegal word, leaves `MODE`. The queue is the model's
choice (log 5). -/
def Obligations.ModeTransitions : Prop :=
  (∀ (i : Instr) (s t : State), exec i s = .next t → t.mode ≠ s.mode → ModeMove i s t) ∧
  (∀ s t : State, step s = .next t → t.mode ≠ s.mode →
    (∃ rest, s.pending = .reset :: rest) ∧ t.mode = .idle ∨
    ∃ (w : Word) (i : Instr) (rest : List Access),
      s.pending = .write 0x00 .word w :: rest ∧ decode w = .ok i ∧ ModeMove i s t)

/-- 10_state.md R24, R31 and R40, 00_scope.md R12: no command writes `IN` or `IN_LEN`, only `CTX_HASH`,
`TBL_PREDICT` and `INIT` write `RESULT`, and none changes `BUSY` or what is not the block's: the
platform's parameters and the host's side, fields of the model's own (logs 1, 2, 3, 5 and 7). -/
def Obligations.WhatNoCommandWrites : Prop :=
  ∀ (i : Instr) (s t : State), exec i s = .next t →
    t.inBuf = s.inBuf ∧ t.inLen = s.inLen ∧ t.busy = s.busy ∧ t.inCap = s.inCap ∧
    t.outCap = s.outCap ∧ t.pending = s.pending ∧ t.busData = s.busData ∧ t.writes = s.writes ∧
    t.resets = s.resets ∧
    (i ≠ .ctxHash → i ≠ .init → (∀ k, i ≠ .tblPredict k) → t.result = s.result)

/-- 70_reset_and_hazards.md R250: the platform's reset is one step, between two host accesses, that leaves
the block at its reset values and `IN` as it is. What it does outside the block is the model's choice
(log 16): the accesses still pending, the last word read and the capacities stay, and the two counters
behind the free values of `OUT` and `TBL` go up. -/
def Obligations.ResetEventIsAStep : Prop :=
  ∀ (s : State) (rest : List Access), s.pending = .reset :: rest →
    ∃ t, step s = .next t ∧ AtReset t ∧ t.inBuf = s.inBuf ∧ t.pending = rest ∧
      t.busData = s.busData ∧ t.inCap = s.inCap ∧ t.outCap = s.outCap ∧
      t.writes = s.writes + 1 ∧ t.resets = s.resets + 1
end

