-- ==== Sys2Proof/Laws/Decode.lean ====
section
/-! SUPPORT. The fields of a command word and the must-be-zero masks, as arithmetic on the word's
number (30_encoding.md R71 to R73). -/

namespace Sys2Proof

open Machine

/-! ### Fields -/

/-- The three fields of an assembled word do not overlap: it is their weighted sum. -/
theorem packWord_toNat (o : BitVec 4) (k : Key) (d : Byte) :
    (packWord o k d).toNat = o.toNat * 2 ^ 28 + k.toNat * 2 ^ 8 + d.toNat := by
  have ho := o.isLt
  have hk := k.isLt
  have hd := d.isLt
  have h1 : k.toNat <<< 8 ||| d.toNat = k.toNat <<< 8 + d.toNat :=
    (Nat.shiftLeft_add_eq_or_of_lt hd _).symm
  have h2 : o.toNat <<< 28 ||| (k.toNat <<< 8 + d.toNat) =
      o.toNat <<< 28 + (k.toNat <<< 8 + d.toNat) :=
    (Nat.shiftLeft_add_eq_or_of_lt (by rw [Nat.shiftLeft_eq]; omega) _).symm
  have e1 : (o.setWidth 32 <<< 28).toNat = o.toNat <<< 28 := by
    simp [BitVec.toNat_shiftLeft, Nat.shiftLeft_eq]; omega
  have e2 : (k.setWidth 32 <<< 8).toNat = k.toNat <<< 8 := by
    simp [BitVec.toNat_shiftLeft, Nat.shiftLeft_eq]; omega
  have e3 : (d.setWidth 32).toNat = d.toNat := by simp; omega
  rw [packWord, BitVec.toNat_or, BitVec.toNat_or, e1, e2, e3, Nat.or_assoc, h1, h2,
    Nat.shiftLeft_eq, Nat.shiftLeft_eq]
  omega

theorem opField_toNat (w : Word) : (opField w).toNat = w.toNat / 2 ^ 28 := by
  simp [opField, BitVec.extractLsb'_toNat, Nat.shiftRight_eq_div_pow]; omega

theorem keyOperand_toNat (w : Word) : (keyOperand w).toNat = w.toNat / 2 ^ 8 % 2 ^ 12 := by
  simp [keyOperand, BitVec.extractLsb'_toNat, Nat.shiftRight_eq_div_pow]

theorem dataOperand_toNat (w : Word) : (dataOperand w).toNat = w.toNat % 2 ^ 8 := by
  simp [dataOperand, BitVec.extractLsb'_toNat]

@[simp] theorem opField_packWord (o : BitVec 4) (k : Key) (d : Byte) :
    opField (packWord o k d) = o := by
  apply BitVec.eq_of_toNat_eq; rw [opField_toNat, packWord_toNat]; omega

@[simp] theorem keyOperand_packWord (o : BitVec 4) (k : Key) (d : Byte) :
    keyOperand (packWord o k d) = k := by
  apply BitVec.eq_of_toNat_eq; rw [keyOperand_toNat, packWord_toNat]; omega

@[simp] theorem dataOperand_packWord (o : BitVec 4) (k : Key) (d : Byte) :
    dataOperand (packWord o k d) = d := by
  apply BitVec.eq_of_toNat_eq; rw [dataOperand_toNat, packWord_toNat]; omega

/-! ### Masks -/

/-- Masking with a run of `n` ones from bit `a` on keeps that field and clears the rest. -/
theorem and_run (w : Word) (a n : Nat) (m : Word)
    (hm : ∀ i, i < 32 → m.getLsbD i = (decide (a ≤ i) && decide (i < a + n))) :
    w &&& m = (w.extractLsb' a n).setWidth 32 <<< a := by
  ext i hi
  rw [BitVec.getElem_and, ← BitVec.getLsbD_eq_getElem, ← BitVec.getLsbD_eq_getElem, hm i hi]
  by_cases h1 : a ≤ i
  · by_cases h2 : i < a + n
    · simp [h1, h2, hi, show ¬ i < a by omega, show i - a < n by omega,
        show a + (i - a) = i by omega]
    · simp [h1, h2, hi, show ¬ i < a by omega, show ¬ i - a < n by omega]
  · simp [h1, show i < a by omega]

theorem and_run_toNat (w : Word) (a n : Nat) (m : Word) (han : a + n ≤ 32)
    (hm : ∀ i, i < 32 → m.getLsbD i = (decide (a ≤ i) && decide (i < a + n))) :
    (w &&& m).toNat = w.toNat / 2 ^ a % 2 ^ n * 2 ^ a := by
  have h2 : w.toNat / 2 ^ a % 2 ^ n * 2 ^ a < 2 ^ 32 := by
    calc w.toNat / 2 ^ a % 2 ^ n * 2 ^ a < 2 ^ n * 2 ^ a :=
          Nat.mul_lt_mul_of_pos_right (Nat.mod_lt _ (by positivity)) (by positivity)
      _ = 2 ^ (a + n) := by rw [Nat.add_comm, pow_add]
      _ ≤ 2 ^ 32 := Nat.pow_le_pow_right (by decide) han
  have h1 : w.toNat / 2 ^ a % 2 ^ n < 2 ^ 32 :=
    lt_of_le_of_lt (Nat.le_mul_of_pos_right _ (by positivity)) h2
  rw [and_run w a n m hm, BitVec.toNat_shiftLeft, BitVec.toNat_setWidth,
    BitVec.extractLsb'_toNat, Nat.shiftRight_eq_div_pow, Nat.shiftLeft_eq, Nat.mod_eq_of_lt h1,
    Nat.mod_eq_of_lt h2]

/-- A field masked by a run of ones is zero when the number has zeros there. -/
theorem and_run_eq_zero (w : Word) (a n : Nat) (m : Word) (han : a + n ≤ 32)
    (hm : ∀ i, i < 32 → m.getLsbD i = (decide (a ≤ i) && decide (i < a + n))) :
    w &&& m = 0#32 ↔ w.toNat / 2 ^ a % 2 ^ n = 0 := by
  rw [← BitVec.toNat_inj, and_run_toNat w a n m han hm]
  simp

theorem and_or_distrib (a b c : Word) : a &&& (b ||| c) = (a &&& b) ||| (a &&& c) := by
  ext i hi
  simp only [BitVec.getElem_and, BitVec.getElem_or]
  cases a[i] <;> simp

theorem or_eq_zero_iff {a b : Word} : a ||| b = 0#32 ↔ a = 0#32 ∧ b = 0#32 := by
  refine ⟨fun h => ⟨?_, ?_⟩, fun ⟨h1, h2⟩ => by simp [h1, h2]⟩
  all_goals
    ext i hi
    have := congrArg (fun v : Word => v.getLsbD i) h
    simp [BitVec.getLsbD_eq_getElem hi] at this
    simp [this]

theorem and_maskZ (w : Word) : w &&& 0x0FFFFFFF#32 = 0#32 ↔ w.toNat % 2 ^ 28 = 0 := by
  rw [and_run_eq_zero w 0 28 _ (by decide) (by decide)]; simp

theorem and_maskD (w : Word) : w &&& 0x0FFFFF00#32 = 0#32 ↔ w.toNat / 2 ^ 8 % 2 ^ 20 = 0 :=
  and_run_eq_zero w 8 20 _ (by decide) (by decide)

theorem and_maskKD (w : Word) : w &&& 0x0FF00000#32 = 0#32 ↔ w.toNat / 2 ^ 20 % 2 ^ 8 = 0 :=
  and_run_eq_zero w 20 8 _ (by decide) (by decide)

theorem and_maskK (w : Word) :
    w &&& 0x0FF000FF#32 = 0#32 ↔ w.toNat / 2 ^ 20 % 2 ^ 8 = 0 ∧ w.toNat % 2 ^ 8 = 0 := by
  rw [show 0x0FF000FF#32 = 0x0FF00000#32 ||| 0x000000FF#32 from rfl, and_or_distrib,
    or_eq_zero_iff, and_maskKD, and_run_eq_zero w 0 8 _ (by decide) (by decide)]
  simp

/-! ### Opcodes -/

@[simp] theorem mnemonicOf_opcode (m : Mnemonic) : mnemonicOf (opcode m) = some m := by
  cases m <;> rfl

/-- An opcode selects at most one command. -/
theorem opcode_of_mnemonicOf {o : BitVec 4} {m : Mnemonic} (h : mnemonicOf o = some m) :
    o = opcode m := by
  revert o
  cases m <;> decide

theorem mnemonicOf_eq_none {o : BitVec 4} : mnemonicOf o = none ↔ 12 ≤ o.toNat := by
  revert o
  decide

/-- A word decodes exactly when its opcode is one of the twelve and its format's bits are zero; what
it decodes to is the opcode's command with the word's fields. -/
theorem decode_eq_ok {w : Word} {i : Instr} :
    decode w = .ok i ↔ ∃ m, opField w = opcode m ∧ w &&& zeroMask (format m) = 0#32 ∧
      i = withOperands m w := by
  unfold decode
  constructor
  · intro h
    split at h
    · cases h
    · next m hm =>
      split at h
      · next hz => cases h; exact ⟨m, opcode_of_mnemonicOf hm, hz, rfl⟩
      · cases h
  · rintro ⟨m, ho, hz, rfl⟩
    rw [ho, mnemonicOf_opcode]
    simp [hz]

end Sys2Proof
end

