-- ==== Sys2Proof/Laws/Memory.lean ====
section
/-! SUPPORT. The laws of memory and of the predictor table: read after write, and that every operation
keeps the canonical form. -/

namespace Sys2Proof.Machine

/-! ### Reads after writes -/

@[simp] theorem Memory.get?_nil (a : Nat) : Memory.get? [] a = none := rfl

theorem Memory.get?_set (m : Memory) (a b : Nat) (v : Byte) :
    Memory.get? (Memory.set m a v) b = if b = a then some v else Memory.get? m b := by
  induction m with
  | nil =>
    by_cases h : b = a
    · simp [Memory.set, Memory.get?, h]
    · simp [Memory.set, Memory.get?, h, Ne.symm h]
  | cons c t ih =>
    obtain ⟨c, d⟩ := c
    by_cases h1 : a < c
    · by_cases h : b = a
      · simp [Memory.set, Memory.get?, h1, h]
      · simp [Memory.set, Memory.get?, h1, h, Ne.symm h]
    · by_cases h2 : a = c
      · subst h2
        by_cases h : b = a
        · simp [Memory.set, Memory.get?, h]
        · simp [Memory.set, Memory.get?, h, Ne.symm h]
      · rw [Memory.set, if_neg h1, if_neg h2]
        by_cases h3 : c = b
        · have h4 : b ≠ a := by omega
          simp [Memory.get?, h3, h4]
        · simp [Memory.get?, h3, ih]

@[simp] theorem Memory.get?_set_self (m : Memory) (a : Nat) (v : Byte) :
    Memory.get? (Memory.set m a v) a = some v := by simp [Memory.get?_set]

theorem Memory.get?_set_ne (m : Memory) {a b : Nat} (v : Byte) (h : b ≠ a) :
    Memory.get? (Memory.set m a v) b = Memory.get? m b := by simp [Memory.get?_set, h]

theorem Memory.get?_erase (m : Memory) (a b : Nat) :
    Memory.get? (Memory.erase m a) b = if b = a then none else Memory.get? m b := by
  induction m with
  | nil => simp [Memory.erase]
  | cons c t ih =>
    obtain ⟨c, d⟩ := c
    unfold Memory.erase at ih ⊢
    by_cases h : c = a
    · subst h
      by_cases h' : b = c
      · simpa [h'] using ih
      · simpa [Memory.get?, h', Ne.symm h'] using ih
    · by_cases h' : c = b
      · subst h'
        simp [Memory.get?, h]
      · simpa [Memory.get?, h, h'] using ih

theorem Memory.get?_append (m n : Memory) (a : Nat) :
    Memory.get? (m ++ n) a = (Memory.get? m a).or (Memory.get? n a) := by
  induction m with
  | nil => simp
  | cons c t ih =>
    obtain ⟨c, d⟩ := c
    by_cases h : c = a
    · simp [Memory.get?, h]
    · simp [Memory.get?, h, ih]

theorem Memory.get?_of_not_listed {m : Memory} {a : Nat} (h : ∀ c ∈ m, c.1 ≠ a) :
    Memory.get? m a = none := by
  induction m with
  | nil => rfl
  | cons c t ih =>
    obtain ⟨c, d⟩ := c
    have hc : c ≠ a := h (c, d) (by simp)
    simp only [Memory.get?, if_neg hc]
    exact ih fun e he => h e (by simp [he])

theorem Memory.mem_nonzeroAt {m : Memory} {n : Nat} {c : Host.Cell} (h : c ∈ m.nonzeroAt n) :
    c.1 = n ∧ c.2 ≠ 0x00#8 := by
  unfold Memory.nonzeroAt at h
  split at h
  · split at h
    · simp at h
    · next h0 => simp at h; subst h; exact ⟨rfl, h0⟩
  · simp at h

theorem Memory.nonzeroBelow_lt {m : Memory} {n : Nat} {c : Host.Cell}
    (h : c ∈ m.nonzeroBelow n) : c.1 < n := by
  induction n with
  | zero => simp [Memory.nonzeroBelow] at h
  | succ n ih =>
    rcases List.mem_append.mp h with h | h
    · exact Nat.lt_succ_of_lt (ih h)
    · exact (Memory.mem_nonzeroAt h).1 ▸ Nat.lt_succ_self _

/-- Keeping the entries below `n` that are not 0x00 keeps what they hold and drops the rest. -/
theorem Memory.get?_nonzeroBelow (m : Memory) (n a : Nat) :
    Memory.get? (m.nonzeroBelow n) a =
      if a < n ∧ Memory.get? m a ≠ some 0x00#8 then Memory.get? m a else none := by
  induction n with
  | zero => simp [Memory.nonzeroBelow]
  | succ n ih =>
    rw [Memory.nonzeroBelow, Memory.get?_append, ih]
    by_cases ha : a = n
    · subst ha
      cases hm : Memory.get? m a with
      | none => simp [Memory.nonzeroAt, hm]
      | some b => by_cases h0 : b = 0x00#8 <;> simp [Memory.nonzeroAt, hm, h0, Memory.get?]
    · have hn : Memory.get? (m.nonzeroAt n) a = none :=
        Memory.get?_of_not_listed fun c hc => (Memory.mem_nonzeroAt hc).1 ▸ Ne.symm ha
      rw [hn, Option.or_none]
      have : a < n + 1 ↔ a < n := by omega
      simp [this]

theorem Memory.get?_of_mem {m : Memory} (hw : Memory.wf m) {a : Nat} {b : Byte}
    (h : (a, b) ∈ m) : Memory.get? m a = some b := by
  induction m with
  | nil => simp at h
  | cons c t ih =>
    obtain ⟨c, d⟩ := c
    have ⟨hlt, hw'⟩ := List.pairwise_cons.mp hw
    rcases List.mem_cons.mp h with h | h
    · cases h; simp [Memory.get?]
    · have := hlt _ h
      simp only [Memory.get?]
      rw [if_neg (by simp at this; omega)]
      exact ih hw' h

theorem Memory.mem_of_get? {m : Memory} {a : Nat} {b : Byte} (h : Memory.get? m a = some b) :
    (a, b) ∈ m := by
  induction m with
  | nil => simp at h
  | cons c t ih =>
    obtain ⟨c, d⟩ := c
    by_cases hc : c = a
    · simp [Memory.get?, hc] at h; simp [hc, h]
    · simp [Memory.get?, hc] at h; simp [ih h]

/-! ### The canonical form -/

theorem Memory.mem_set {m : Memory} {a : Nat} {v : Byte} {c : Host.Cell}
    (h : c ∈ Memory.set m a v) : c = (a, v) ∨ c ∈ m := by
  induction m with
  | nil => simpa [Memory.set] using h
  | cons d t ih =>
    obtain ⟨x, y⟩ := d
    simp only [Memory.set] at h
    split at h
    · simpa using h
    · split at h
      · rcases List.mem_cons.mp h with h | h
        · exact .inl h
        · exact .inr (by simp [h])
      · rcases List.mem_cons.mp h with h | h
        · exact .inr (by simp [h])
        · rcases ih h with h | h
          · exact .inl h
          · exact .inr (by simp [h])

theorem Memory.wf_set {m : Memory} (a : Nat) (v : Byte) (hw : Memory.wf m) :
    Memory.wf (Memory.set m a v) := by
  induction m with
  | nil => simp [Memory.set]
  | cons d t ih =>
    obtain ⟨x, y⟩ := d
    have ⟨hlt, hw'⟩ := List.pairwise_cons.mp hw
    simp only [Memory.set]
    split
    · next h =>
      refine List.pairwise_cons.mpr ⟨?_, hw⟩
      intro c hc
      rcases List.mem_cons.mp hc with rfl | hc
      · exact h
      · have := hlt c hc; simp at this ⊢; omega
    · split
      · next h =>
        subst h
        exact List.pairwise_cons.mpr ⟨hlt, hw'⟩
      · refine List.pairwise_cons.mpr ⟨?_, ih hw'⟩
        intro c hc
        rcases Memory.mem_set hc with rfl | hc
        · simp; omega
        · exact hlt c hc

theorem Memory.wf_filter {m : Memory} (p : Host.Cell → Bool) (hw : Memory.wf m) :
    Memory.wf (m.filter p) := List.Pairwise.filter p hw

theorem Memory.wf_nonzeroAt (m : Memory) (n : Nat) : Memory.wf (m.nonzeroAt n) := by
  unfold Memory.nonzeroAt
  split
  · split <;> simp
  · simp

theorem Memory.wf_nonzeroBelow (m : Memory) (n : Nat) : Memory.wf (m.nonzeroBelow n) := by
  induction n with
  | zero => simp [Memory.nonzeroBelow]
  | succ n ih =>
    refine List.pairwise_append.mpr ⟨ih, Memory.wf_nonzeroAt m n, ?_⟩
    intro c hc d hd
    exact (Memory.mem_nonzeroAt hd).1 ▸ Memory.nonzeroBelow_lt hc

theorem Memory.nonzeroBelow_ne {m : Memory} {n : Nat} {c : Host.Cell}
    (h : c ∈ m.nonzeroBelow n) : c.2 ≠ 0x00#8 := by
  induction n with
  | zero => simp [Memory.nonzeroBelow] at h
  | succ n ih =>
    rcases List.mem_append.mp h with h | h
    · exact ih h
    · exact (Memory.mem_nonzeroAt h).2

theorem Memory.wf_erase {m : Memory} (a : Nat) (hw : Memory.wf m) : Memory.wf (Memory.erase m a) :=
  Memory.wf_filter _ hw

theorem Memory.wf_load {m : Memory} (p : Nat) (bs : List Byte) (hw : Memory.wf m) :
    Memory.wf (Memory.load m p bs) := by
  induction bs generalizing m p with
  | nil => exact hw
  | cons b bs ih => exact ih _ (Memory.wf_set p b hw)

theorem Memory.mem_load {m : Memory} {p : Nat} {bs : List Byte} {c : Host.Cell}
    (h : c ∈ Memory.load m p bs) : c ∈ m ∨ (p ≤ c.1 ∧ c.1 < p + bs.length) := by
  induction bs generalizing m p with
  | nil => exact .inl h
  | cons b bs ih =>
    rcases ih h with h | h
    · rcases Memory.mem_set h with rfl | h
      · exact .inr ⟨Nat.le_refl _, by simp⟩
      · exact .inl h
    · exact .inr ⟨by omega, by simp; omega⟩

theorem Memory.get?_load (m : Memory) (p : Nat) (bs : List Byte) (a : Nat) :
    Memory.get? (Memory.load m p bs) a =
      if p ≤ a ∧ a < p + bs.length then bs[a - p]? else Memory.get? m a := by
  induction bs generalizing m p with
  | nil => simp [Memory.load]
  | cons b bs ih =>
    rw [Memory.load, ih, Memory.get?_set]
    by_cases h1 : p + 1 ≤ a ∧ a < p + 1 + bs.length
    · rw [if_pos h1, if_pos (by simp; omega)]
      have : a - p = (a - (p + 1)) + 1 := by omega
      rw [this, List.getElem?_cons_succ]
    · rw [if_neg h1]
      by_cases h2 : a = p
      · subst h2; simp
      · rw [if_neg h2, if_neg (by simp; omega)]

theorem Memory.fullBelow_iff (m : Memory) (n : Nat) :
    m.fullBelow n = true ↔ ∀ k, k < n → (Memory.get? m k).isSome := by
  induction n with
  | zero => simp [Memory.fullBelow]
  | succ n ih =>
    rw [Memory.fullBelow, Bool.and_eq_true, ih]
    constructor
    · rintro ⟨h1, h2⟩ k hk
      rcases Nat.lt_succ_iff_lt_or_eq.mp hk with h | h
      · exact h2 k h
      · exact h ▸ h1
    · exact fun h => ⟨h n (Nat.lt_succ_self n), fun k hk => h k (Nat.lt_succ_of_lt hk)⟩

/-! ### The predictor table (40_context_hash_table.md R103, R104) -/

@[simp] theorem Table.get?_zero (k : Nat) : Table.zero.get? k = some 0x00#8 := rfl

theorem Table.set_zeroed (m : Memory) (k : Nat) (b : Byte) :
    Table.set ⟨.zeroed, m⟩ k b =
      ⟨.zeroed, if b = 0x00#8 then Memory.erase m k else Memory.set m k b⟩ := rfl

/-- A write that leaves no slot unspecified settles the table over the zeroed base. -/
theorem Table.set_full {m : Memory} {k : Nat} {b : Byte}
    (h : (Memory.set m k b).fullBelow Config.tblSize = true) :
    Table.set ⟨.unspecified, m⟩ k b =
      ⟨.zeroed, (Memory.set m k b).nonzeroBelow Config.tblSize⟩ := if_pos h

/-- A write that leaves some slot unspecified lists the byte written. -/
theorem Table.set_partial {m : Memory} {k : Nat} {b : Byte}
    (h : ¬(Memory.set m k b).fullBelow Config.tblSize = true) :
    Table.set ⟨.unspecified, m⟩ k b = ⟨.unspecified, Memory.set m k b⟩ := if_neg h

theorem Table.get?_zeroed (m : Memory) (k : Nat) :
    Table.get? ⟨.zeroed, m⟩ k = some ((Memory.get? m k).getD 0x00#8) := by
  unfold Table.get?
  cases Memory.get? m k <;> rfl

theorem Table.get?_unspecified (m : Memory) (k : Nat) :
    Table.get? ⟨.unspecified, m⟩ k = Memory.get? m k := by
  unfold Table.get?
  cases Memory.get? m k <;> rfl

theorem Table.get?_settled {m : Memory} {n k : Nat} {v : Byte} (hk : k < n)
    (hv : Memory.get? m k = some v) : Table.get? ⟨.zeroed, m.nonzeroBelow n⟩ k = some v := by
  rw [Table.get?_zeroed, Memory.get?_nonzeroBelow, hv]
  by_cases h0 : v = 0x00#8 <;> simp [h0, hk]

/-- Read after write: the slot written holds the byte, every other slot is as before. -/
theorem Table.get?_set (t : Table) {k j : Nat} (hj : j < Config.tblSize) (b : Byte) :
    (t.set k b).get? j = if j = k then some b else t.get? j := by
  obtain ⟨base, m⟩ := t
  cases base with
  | zeroed =>
    rw [Table.set_zeroed, Table.get?_zeroed, Table.get?_zeroed]
    by_cases hb : b = 0x00#8
    · rw [if_pos hb, Memory.get?_erase]
      by_cases hk : j = k <;> simp [hk, hb]
    · rw [if_neg hb, Memory.get?_set]
      by_cases hk : j = k <;> simp [hk]
  | unspecified =>
    rw [Table.get?_unspecified, ← Memory.get?_set]
    by_cases h : (Memory.set m k b).fullBelow Config.tblSize = true
    · obtain ⟨v, hv⟩ := Option.isSome_iff_exists.mp ((Memory.fullBelow_iff _ _).mp h j hj)
      rw [Table.set_full h, Table.get?_settled hj hv, hv]
    · rw [Table.set_partial h, Table.get?_unspecified]

theorem Table.wf_zero : Table.zero.wf := by
  refine ⟨List.Pairwise.nil, ?_, ?_, ?_⟩
  · intro c hc; simp [Table.zero] at hc
  · intro _ c hc; simp [Table.zero] at hc
  · intro h; simp [Table.zero] at h

theorem Table.wf_set {t : Table} (hw : t.wf) {k : Nat} (hk : k < Config.tblSize) (b : Byte) :
    (t.set k b).wf := by
  obtain ⟨base, cells⟩ := t
  obtain ⟨hs, hb, hz, hu⟩ := hw
  have hset : ∀ c ∈ Memory.set cells k b, c.1 < Config.tblSize := by
    intro c hc
    rcases Memory.mem_set hc with rfl | hc
    · exact hk
    · exact hb c hc
  cases base with
  | zeroed =>
    have hz' := hz rfl
    by_cases h0 : b = 0x00#8
    · refine ⟨?_, ?_, ?_, ?_⟩
      · simpa [Table.set, h0] using Memory.wf_erase k hs
      · intro c hc
        simp only [Table.set, h0, if_true, Memory.erase, List.mem_filter] at hc
        exact hb c hc.1
      · intro _ c hc
        simp only [Table.set, h0, if_true, Memory.erase, List.mem_filter] at hc
        exact hz' c hc.1
      · nofun
    · refine ⟨?_, ?_, ?_, ?_⟩
      · simpa [Table.set, h0] using Memory.wf_set k b hs
      · intro c hc
        simp only [Table.set, h0, if_false] at hc
        exact hset c hc
      · intro _ c hc
        simp only [Table.set, h0, if_false] at hc
        rcases Memory.mem_set hc with rfl | hc
        · exact h0
        · exact hz' c hc
      · nofun
  | unspecified =>
    by_cases h : (Memory.set cells k b).fullBelow Config.tblSize = true
    · rw [Table.set_full h]
      exact ⟨Memory.wf_nonzeroBelow _ _, fun c hc => Memory.nonzeroBelow_lt hc,
        fun _ c hc => Memory.nonzeroBelow_ne hc, nofun⟩
    · rw [Table.set_partial h]
      exact ⟨Memory.wf_set k b hs, hset, nofun, fun _ => Bool.eq_false_of_not_eq_true h⟩

/-- Over a zeroed base no slot is unspecified. -/
theorem Table.set_base_zeroed {t : Table} (h : t.base = .zeroed) (k : Nat) (b : Byte) :
    (t.set k b).base = .zeroed := by simp [Table.set, h]

end Sys2Proof.Machine
end

