-- ==== Sys2Proof/Laws/State.lean ====
section
/-! SUPPORT. What each named update of the state leaves in each field, one lemma per field, true by `rfl`. -/

namespace Sys2Proof.Machine

/-! Taking a fault writes the fault record and nothing else (60_exceptions.md R222). -/

@[simp] theorem raise_ctx (c : Cause) (v : Word) (s : State) : (raise c v s).ctx = s.ctx := rfl
@[simp] theorem raise_result (c : Cause) (v : Word) (s : State) : (raise c v s).result = s.result := rfl
@[simp] theorem raise_mode (c : Cause) (v : Word) (s : State) : (raise c v s).mode = s.mode := rfl
@[simp] theorem raise_stop (c : Cause) (v : Word) (s : State) : (raise c v s).stop = s.stop := rfl
@[simp] theorem raise_err (c : Cause) (v : Word) (s : State) : (raise c v s).err = true := rfl
@[simp] theorem raise_ecode (c : Cause) (v : Word) (s : State) : (raise c v s).ecode = if s.err then s.ecode else c.ecode := rfl
@[simp] theorem raise_busy (c : Cause) (v : Word) (s : State) : (raise c v s).busy = s.busy := rfl
@[simp] theorem raise_faultInfo (c : Cause) (v : Word) (s : State) : (raise c v s).faultInfo = if s.err then s.faultInfo else v := rfl
@[simp] theorem raise_inLen (c : Cause) (v : Word) (s : State) : (raise c v s).inLen = s.inLen := rfl
@[simp] theorem raise_inPos (c : Cause) (v : Word) (s : State) : (raise c v s).inPos = s.inPos := rfl
@[simp] theorem raise_outLen (c : Cause) (v : Word) (s : State) : (raise c v s).outLen = s.outLen := rfl
@[simp] theorem raise_eFlags (c : Cause) (v : Word) (s : State) : (raise c v s).eFlags = s.eFlags := rfl
@[simp] theorem raise_eBitpos (c : Cause) (v : Word) (s : State) : (raise c v s).eBitpos = s.eBitpos := rfl
@[simp] theorem raise_eFlagpos (c : Cause) (v : Word) (s : State) : (raise c v s).eFlagpos = s.eFlagpos := rfl
@[simp] theorem raise_dCtrl (c : Cause) (v : Word) (s : State) : (raise c v s).dCtrl = s.dCtrl := rfl
@[simp] theorem raise_dBitpos (c : Cause) (v : Word) (s : State) : (raise c v s).dBitpos = s.dBitpos := rfl
@[simp] theorem raise_tbl (c : Cause) (v : Word) (s : State) : (raise c v s).tbl = s.tbl := rfl
@[simp] theorem raise_outBuf (c : Cause) (v : Word) (s : State) : (raise c v s).outBuf = s.outBuf := rfl
@[simp] theorem raise_inBuf (c : Cause) (v : Word) (s : State) : (raise c v s).inBuf = s.inBuf := rfl
@[simp] theorem raise_inCap (c : Cause) (v : Word) (s : State) : (raise c v s).inCap = s.inCap := rfl
@[simp] theorem raise_outCap (c : Cause) (v : Word) (s : State) : (raise c v s).outCap = s.outCap := rfl
@[simp] theorem raise_pending (c : Cause) (v : Word) (s : State) : (raise c v s).pending = s.pending := rfl
@[simp] theorem raise_busData (c : Cause) (v : Word) (s : State) : (raise c v s).busData = s.busData := rfl
@[simp] theorem raise_writes (c : Cause) (v : Word) (s : State) : (raise c v s).writes = s.writes := rfl
@[simp] theorem raise_resets (c : Cause) (v : Word) (s : State) : (raise c v s).resets = s.resets := rfl

/-! `update` writes `TBL` and nothing else (40_context_hash_table.md R104). -/

@[simp] theorem update_ctx (k : Key) (b : Byte) (s : State) : (update k b s).ctx = s.ctx := rfl
@[simp] theorem update_result (k : Key) (b : Byte) (s : State) : (update k b s).result = s.result := rfl
@[simp] theorem update_mode (k : Key) (b : Byte) (s : State) : (update k b s).mode = s.mode := rfl
@[simp] theorem update_stop (k : Key) (b : Byte) (s : State) : (update k b s).stop = s.stop := rfl
@[simp] theorem update_err (k : Key) (b : Byte) (s : State) : (update k b s).err = s.err := rfl
@[simp] theorem update_ecode (k : Key) (b : Byte) (s : State) : (update k b s).ecode = s.ecode := rfl
@[simp] theorem update_busy (k : Key) (b : Byte) (s : State) : (update k b s).busy = s.busy := rfl
@[simp] theorem update_faultInfo (k : Key) (b : Byte) (s : State) : (update k b s).faultInfo = s.faultInfo := rfl
@[simp] theorem update_inLen (k : Key) (b : Byte) (s : State) : (update k b s).inLen = s.inLen := rfl
@[simp] theorem update_inPos (k : Key) (b : Byte) (s : State) : (update k b s).inPos = s.inPos := rfl
@[simp] theorem update_outLen (k : Key) (b : Byte) (s : State) : (update k b s).outLen = s.outLen := rfl
@[simp] theorem update_eFlags (k : Key) (b : Byte) (s : State) : (update k b s).eFlags = s.eFlags := rfl
@[simp] theorem update_eBitpos (k : Key) (b : Byte) (s : State) : (update k b s).eBitpos = s.eBitpos := rfl
@[simp] theorem update_eFlagpos (k : Key) (b : Byte) (s : State) : (update k b s).eFlagpos = s.eFlagpos := rfl
@[simp] theorem update_dCtrl (k : Key) (b : Byte) (s : State) : (update k b s).dCtrl = s.dCtrl := rfl
@[simp] theorem update_dBitpos (k : Key) (b : Byte) (s : State) : (update k b s).dBitpos = s.dBitpos := rfl
@[simp] theorem update_tbl (k : Key) (b : Byte) (s : State) : (update k b s).tbl = s.tbl.set k.toNat b := rfl
@[simp] theorem update_outBuf (k : Key) (b : Byte) (s : State) : (update k b s).outBuf = s.outBuf := rfl
@[simp] theorem update_inBuf (k : Key) (b : Byte) (s : State) : (update k b s).inBuf = s.inBuf := rfl
@[simp] theorem update_inCap (k : Key) (b : Byte) (s : State) : (update k b s).inCap = s.inCap := rfl
@[simp] theorem update_outCap (k : Key) (b : Byte) (s : State) : (update k b s).outCap = s.outCap := rfl
@[simp] theorem update_pending (k : Key) (b : Byte) (s : State) : (update k b s).pending = s.pending := rfl
@[simp] theorem update_busData (k : Key) (b : Byte) (s : State) : (update k b s).busData = s.busData := rfl
@[simp] theorem update_writes (k : Key) (b : Byte) (s : State) : (update k b s).writes = s.writes := rfl
@[simp] theorem update_resets (k : Key) (b : Byte) (s : State) : (update k b s).resets = s.resets := rfl

/-! `MemWrite(OUT, p, 1, b)` writes `OUT` and nothing else (00_scope.md R12). -/

@[simp] theorem outWrite_ctx (p : Nat) (b : Byte) (s : State) : (outWrite p b s).ctx = s.ctx := rfl
@[simp] theorem outWrite_result (p : Nat) (b : Byte) (s : State) : (outWrite p b s).result = s.result := rfl
@[simp] theorem outWrite_mode (p : Nat) (b : Byte) (s : State) : (outWrite p b s).mode = s.mode := rfl
@[simp] theorem outWrite_stop (p : Nat) (b : Byte) (s : State) : (outWrite p b s).stop = s.stop := rfl
@[simp] theorem outWrite_err (p : Nat) (b : Byte) (s : State) : (outWrite p b s).err = s.err := rfl
@[simp] theorem outWrite_ecode (p : Nat) (b : Byte) (s : State) : (outWrite p b s).ecode = s.ecode := rfl
@[simp] theorem outWrite_busy (p : Nat) (b : Byte) (s : State) : (outWrite p b s).busy = s.busy := rfl
@[simp] theorem outWrite_faultInfo (p : Nat) (b : Byte) (s : State) : (outWrite p b s).faultInfo = s.faultInfo := rfl
@[simp] theorem outWrite_inLen (p : Nat) (b : Byte) (s : State) : (outWrite p b s).inLen = s.inLen := rfl
@[simp] theorem outWrite_inPos (p : Nat) (b : Byte) (s : State) : (outWrite p b s).inPos = s.inPos := rfl
@[simp] theorem outWrite_outLen (p : Nat) (b : Byte) (s : State) : (outWrite p b s).outLen = s.outLen := rfl
@[simp] theorem outWrite_eFlags (p : Nat) (b : Byte) (s : State) : (outWrite p b s).eFlags = s.eFlags := rfl
@[simp] theorem outWrite_eBitpos (p : Nat) (b : Byte) (s : State) : (outWrite p b s).eBitpos = s.eBitpos := rfl
@[simp] theorem outWrite_eFlagpos (p : Nat) (b : Byte) (s : State) : (outWrite p b s).eFlagpos = s.eFlagpos := rfl
@[simp] theorem outWrite_dCtrl (p : Nat) (b : Byte) (s : State) : (outWrite p b s).dCtrl = s.dCtrl := rfl
@[simp] theorem outWrite_dBitpos (p : Nat) (b : Byte) (s : State) : (outWrite p b s).dBitpos = s.dBitpos := rfl
@[simp] theorem outWrite_tbl (p : Nat) (b : Byte) (s : State) : (outWrite p b s).tbl = s.tbl := rfl
@[simp] theorem outWrite_outBuf (p : Nat) (b : Byte) (s : State) : (outWrite p b s).outBuf = s.outBuf.set p b := rfl
@[simp] theorem outWrite_inBuf (p : Nat) (b : Byte) (s : State) : (outWrite p b s).inBuf = s.inBuf := rfl
@[simp] theorem outWrite_inCap (p : Nat) (b : Byte) (s : State) : (outWrite p b s).inCap = s.inCap := rfl
@[simp] theorem outWrite_outCap (p : Nat) (b : Byte) (s : State) : (outWrite p b s).outCap = s.outCap := rfl
@[simp] theorem outWrite_pending (p : Nat) (b : Byte) (s : State) : (outWrite p b s).pending = s.pending := rfl
@[simp] theorem outWrite_busData (p : Nat) (b : Byte) (s : State) : (outWrite p b s).busData = s.busData := rfl
@[simp] theorem outWrite_writes (p : Nat) (b : Byte) (s : State) : (outWrite p b s).writes = s.writes := rfl
@[simp] theorem outWrite_resets (p : Nat) (b : Byte) (s : State) : (outWrite p b s).resets = s.resets := rfl

/-! `OutAppend` writes `OUT` and `OUT_LEN` and nothing else (00_scope.md R12). -/

@[simp] theorem outAppend_ctx (b : Byte) (s : State) : (outAppend b s).ctx = s.ctx := rfl
@[simp] theorem outAppend_result (b : Byte) (s : State) : (outAppend b s).result = s.result := rfl
@[simp] theorem outAppend_mode (b : Byte) (s : State) : (outAppend b s).mode = s.mode := rfl
@[simp] theorem outAppend_stop (b : Byte) (s : State) : (outAppend b s).stop = s.stop := rfl
@[simp] theorem outAppend_err (b : Byte) (s : State) : (outAppend b s).err = s.err := rfl
@[simp] theorem outAppend_ecode (b : Byte) (s : State) : (outAppend b s).ecode = s.ecode := rfl
@[simp] theorem outAppend_busy (b : Byte) (s : State) : (outAppend b s).busy = s.busy := rfl
@[simp] theorem outAppend_faultInfo (b : Byte) (s : State) : (outAppend b s).faultInfo = s.faultInfo := rfl
@[simp] theorem outAppend_inLen (b : Byte) (s : State) : (outAppend b s).inLen = s.inLen := rfl
@[simp] theorem outAppend_inPos (b : Byte) (s : State) : (outAppend b s).inPos = s.inPos := rfl
@[simp] theorem outAppend_outLen (b : Byte) (s : State) : (outAppend b s).outLen = s.outLen + 1 := rfl
@[simp] theorem outAppend_eFlags (b : Byte) (s : State) : (outAppend b s).eFlags = s.eFlags := rfl
@[simp] theorem outAppend_eBitpos (b : Byte) (s : State) : (outAppend b s).eBitpos = s.eBitpos := rfl
@[simp] theorem outAppend_eFlagpos (b : Byte) (s : State) : (outAppend b s).eFlagpos = s.eFlagpos := rfl
@[simp] theorem outAppend_dCtrl (b : Byte) (s : State) : (outAppend b s).dCtrl = s.dCtrl := rfl
@[simp] theorem outAppend_dBitpos (b : Byte) (s : State) : (outAppend b s).dBitpos = s.dBitpos := rfl
@[simp] theorem outAppend_tbl (b : Byte) (s : State) : (outAppend b s).tbl = s.tbl := rfl
@[simp] theorem outAppend_outBuf (b : Byte) (s : State) : (outAppend b s).outBuf = s.outBuf.set s.outLen.toNat b := rfl
@[simp] theorem outAppend_inBuf (b : Byte) (s : State) : (outAppend b s).inBuf = s.inBuf := rfl
@[simp] theorem outAppend_inCap (b : Byte) (s : State) : (outAppend b s).inCap = s.inCap := rfl
@[simp] theorem outAppend_outCap (b : Byte) (s : State) : (outAppend b s).outCap = s.outCap := rfl
@[simp] theorem outAppend_pending (b : Byte) (s : State) : (outAppend b s).pending = s.pending := rfl
@[simp] theorem outAppend_busData (b : Byte) (s : State) : (outAppend b s).busData = s.busData := rfl
@[simp] theorem outAppend_writes (b : Byte) (s : State) : (outAppend b s).writes = s.writes := rfl
@[simp] theorem outAppend_resets (b : Byte) (s : State) : (outAppend b s).resets = s.resets := rfl

/-! `stop(reason)` writes `MODE` and `STATUS.STOP` and nothing else (00_scope.md R12). -/

@[simp] theorem stopSession_ctx (r : Stop) (s : State) : (stopSession r s).ctx = s.ctx := rfl
@[simp] theorem stopSession_result (r : Stop) (s : State) : (stopSession r s).result = s.result := rfl
@[simp] theorem stopSession_mode (r : Stop) (s : State) : (stopSession r s).mode = .done := rfl
@[simp] theorem stopSession_stop (r : Stop) (s : State) : (stopSession r s).stop = r := rfl
@[simp] theorem stopSession_err (r : Stop) (s : State) : (stopSession r s).err = s.err := rfl
@[simp] theorem stopSession_ecode (r : Stop) (s : State) : (stopSession r s).ecode = s.ecode := rfl
@[simp] theorem stopSession_busy (r : Stop) (s : State) : (stopSession r s).busy = s.busy := rfl
@[simp] theorem stopSession_faultInfo (r : Stop) (s : State) : (stopSession r s).faultInfo = s.faultInfo := rfl
@[simp] theorem stopSession_inLen (r : Stop) (s : State) : (stopSession r s).inLen = s.inLen := rfl
@[simp] theorem stopSession_inPos (r : Stop) (s : State) : (stopSession r s).inPos = s.inPos := rfl
@[simp] theorem stopSession_outLen (r : Stop) (s : State) : (stopSession r s).outLen = s.outLen := rfl
@[simp] theorem stopSession_eFlags (r : Stop) (s : State) : (stopSession r s).eFlags = s.eFlags := rfl
@[simp] theorem stopSession_eBitpos (r : Stop) (s : State) : (stopSession r s).eBitpos = s.eBitpos := rfl
@[simp] theorem stopSession_eFlagpos (r : Stop) (s : State) : (stopSession r s).eFlagpos = s.eFlagpos := rfl
@[simp] theorem stopSession_dCtrl (r : Stop) (s : State) : (stopSession r s).dCtrl = s.dCtrl := rfl
@[simp] theorem stopSession_dBitpos (r : Stop) (s : State) : (stopSession r s).dBitpos = s.dBitpos := rfl
@[simp] theorem stopSession_tbl (r : Stop) (s : State) : (stopSession r s).tbl = s.tbl := rfl
@[simp] theorem stopSession_outBuf (r : Stop) (s : State) : (stopSession r s).outBuf = s.outBuf := rfl
@[simp] theorem stopSession_inBuf (r : Stop) (s : State) : (stopSession r s).inBuf = s.inBuf := rfl
@[simp] theorem stopSession_inCap (r : Stop) (s : State) : (stopSession r s).inCap = s.inCap := rfl
@[simp] theorem stopSession_outCap (r : Stop) (s : State) : (stopSession r s).outCap = s.outCap := rfl
@[simp] theorem stopSession_pending (r : Stop) (s : State) : (stopSession r s).pending = s.pending := rfl
@[simp] theorem stopSession_busData (r : Stop) (s : State) : (stopSession r s).busData = s.busData := rfl
@[simp] theorem stopSession_writes (r : Stop) (s : State) : (stopSession r s).writes = s.writes := rfl
@[simp] theorem stopSession_resets (r : Stop) (s : State) : (stopSession r s).resets = s.resets := rfl

/-! The writes that `INIT` and the start commands share (44_session_control.md R211). -/

@[simp] theorem freshSession_ctx (s : State) : (freshSession s).ctx = 0 := rfl
@[simp] theorem freshSession_result (s : State) : (freshSession s).result = s.result := rfl
@[simp] theorem freshSession_mode (s : State) : (freshSession s).mode = s.mode := rfl
@[simp] theorem freshSession_stop (s : State) : (freshSession s).stop = .none := rfl
@[simp] theorem freshSession_err (s : State) : (freshSession s).err = s.err := rfl
@[simp] theorem freshSession_ecode (s : State) : (freshSession s).ecode = s.ecode := rfl
@[simp] theorem freshSession_busy (s : State) : (freshSession s).busy = s.busy := rfl
@[simp] theorem freshSession_faultInfo (s : State) : (freshSession s).faultInfo = s.faultInfo := rfl
@[simp] theorem freshSession_inLen (s : State) : (freshSession s).inLen = s.inLen := rfl
@[simp] theorem freshSession_inPos (s : State) : (freshSession s).inPos = 0 := rfl
@[simp] theorem freshSession_outLen (s : State) : (freshSession s).outLen = 0 := rfl
@[simp] theorem freshSession_eFlags (s : State) : (freshSession s).eFlags = 0x00 := rfl
@[simp] theorem freshSession_eBitpos (s : State) : (freshSession s).eBitpos = 0 := rfl
@[simp] theorem freshSession_eFlagpos (s : State) : (freshSession s).eFlagpos = 0 := rfl
@[simp] theorem freshSession_dCtrl (s : State) : (freshSession s).dCtrl = 0x00 := rfl
@[simp] theorem freshSession_dBitpos (s : State) : (freshSession s).dBitpos = 8 := rfl
@[simp] theorem freshSession_tbl (s : State) : (freshSession s).tbl = Table.zero := rfl
@[simp] theorem freshSession_outBuf (s : State) : (freshSession s).outBuf = s.outBuf := rfl
@[simp] theorem freshSession_inBuf (s : State) : (freshSession s).inBuf = s.inBuf := rfl
@[simp] theorem freshSession_inCap (s : State) : (freshSession s).inCap = s.inCap := rfl
@[simp] theorem freshSession_outCap (s : State) : (freshSession s).outCap = s.outCap := rfl
@[simp] theorem freshSession_pending (s : State) : (freshSession s).pending = s.pending := rfl
@[simp] theorem freshSession_busData (s : State) : (freshSession s).busData = s.busData := rfl
@[simp] theorem freshSession_writes (s : State) : (freshSession s).writes = s.writes := rfl
@[simp] theorem freshSession_resets (s : State) : (freshSession s).resets = s.resets := rfl

end Sys2Proof.Machine
end

