-- ==== Sys2Proof/Laws/Ops.lean ====
section
/-! SUPPORT. What each shared operation does to the bytes of `TBL`, `OUT` and `IN`, and to the fault
record. -/

namespace Sys2Proof.Machine

theorem Key.lt_tblSize (k : Key) : k.toNat < Config.tblSize := k.isLt

/-! ### The predictor table -/

/-- `update` overwrites one slot (40_context_hash_table.md R104). -/
theorem predict_update (k j : Key) (b : Byte) (s : State) :
    predict (update k b s) j = if j = k then b else predict s j := by
  unfold predict
  rw [update_tbl, update_resets, Table.get?_set _ (Key.lt_tblSize j)]
  by_cases h : j = k
  · simp [h]
  · rw [if_neg h, if_neg (fun e => h (BitVec.eq_of_toNat_eq e))]

/-- `predict` reads `TBL` and the free value's counter, and nothing else. -/
theorem predict_congr {s t : State} (h : t.tbl = s.tbl) (hr : t.resets = s.resets) (k : Key) :
    predict t k = predict s k := by unfold predict; rw [h, hr]

/-- A table just zeroed predicts 0x00 everywhere (40_context_hash_table.md R106). -/
theorem predict_of_tbl_zero {s : State} (h : s.tbl = Table.zero) (k : Key) :
    predict s k = 0x00#8 := by unfold predict; rw [h, Table.get?_zero]; rfl

@[simp] theorem predict_raise (c : Cause) (v : Word) (s : State) (k : Key) :
    predict (raise c v s) k = predict s k := rfl

@[simp] theorem predict_outWrite (p : Nat) (b : Byte) (s : State) (k : Key) :
    predict (outWrite p b s) k = predict s k := rfl

@[simp] theorem predict_outAppend (b : Byte) (s : State) (k : Key) :
    predict (outAppend b s) k = predict s k := rfl

@[simp] theorem predict_stopSession (r : Stop) (s : State) (k : Key) :
    predict (stopSession r s) k = predict s k := rfl

@[simp] theorem predict_freshSession (s : State) (k : Key) :
    predict (freshSession s) k = 0x00#8 := predict_of_tbl_zero rfl k

/-! ### The output buffer -/

/-- `outRead` reads `OUT` and the free value's counter, and nothing else. -/
theorem outRead_congr {s t : State} (h : t.outBuf = s.outBuf) (hw : t.writes = s.writes) (p : Nat) :
    outRead t p = outRead s p := by unfold outRead; rw [h, hw]

theorem outRead_outWrite (p q : Nat) (b : Byte) (s : State) :
    outRead (outWrite p b s) q = if q = p then b else outRead s q := by
  unfold outRead
  rw [outWrite_outBuf, outWrite_writes, Memory.get?_set]
  by_cases h : q = p <;> simp [h]

theorem outRead_outAppend (q : Nat) (b : Byte) (s : State) :
    outRead (outAppend b s) q = if q = s.outLen.toNat then b else outRead s q :=
  outRead_outWrite s.outLen.toNat q b s

@[simp] theorem outRead_raise (c : Cause) (v : Word) (s : State) (p : Nat) :
    outRead (raise c v s) p = outRead s p := rfl

@[simp] theorem outRead_update (k : Key) (b : Byte) (s : State) (p : Nat) :
    outRead (update k b s) p = outRead s p := rfl

@[simp] theorem outRead_stopSession (r : Stop) (s : State) (p : Nat) :
    outRead (stopSession r s) p = outRead s p := rfl

@[simp] theorem outRead_freshSession (s : State) (p : Nat) :
    outRead (freshSession s) p = outRead s p := rfl

/-! ### The input buffer -/

/-- `inRead` reads `IN` and nothing else. -/
theorem inRead_congr {s t : State} (h : t.inBuf = s.inBuf) (p : Nat) : inRead t p = inRead s p := by
  unfold inRead; rw [h]

/-! ### Faults -/

theorem raise_of_err {s : State} (h : s.err = true) (c : Cause) (v : Word) : raise c v s = s := by
  unfold raise; cases s; simp_all

theorem raise_of_not_err {s : State} (h : s.err = false) (c : Cause) (v : Word) :
    raise c v s = { s with err := true, ecode := c.ecode, faultInfo := v } := by
  unfold raise; simp [h]

@[simp] theorem complete_ok (w : Word) (s t : State) : complete w s (.ok t) = t := rfl

@[simp] theorem complete_error (w : Word) (s : State) (c : Cause) :
    complete w s (.error c) = raise c w s := rfl

/-! ### Modes -/

theorem sessionFree_iff {s : State} : sessionFree s = true ↔ s.mode = .idle ∨ s.mode = .done := by
  simp [sessionFree]

theorem sessionFree_eq_false_iff {s : State} :
    sessionFree s = false ↔ s.mode = .enc ∨ s.mode = .dec := by
  cases h : s.mode <;> simp [sessionFree, h]

end Sys2Proof.Machine
end

