-- ==== Sys2Proof/Laws/Decoder.lean ====
section
/-! SUPPORT. What a step of the decoder can do, once (43_decoder.md R181), and how its loop goes. -/

namespace Sys2Proof.Machine

/-! ### The producing path -/

/-- Every register after the producing path. -/
theorem decProduce_eq (c : Byte) (p : Word) (i : BitVec 4) (b : Byte) (lit : Bool) (s : State) :
    decProduce c p i b lit s =
      { s with
        ctx := advance s.ctx b
        tbl := (decProduce c p i b lit s).tbl
        outBuf := Memory.set s.outBuf s.outLen.toNat b
        outLen := s.outLen + 1
        dCtrl := c
        inPos := p
        dBitpos := i + 1 } := by
  cases lit <;> rfl

/-- The table after the producing path: a literal is learnt, a hit changes nothing. -/
theorem decProduce_tbl (c : Byte) (p : Word) (i : BitVec 4) (b : Byte) (lit : Bool) (s : State) :
    (decProduce c p i b lit s).tbl = if lit then s.tbl.set (hashKey s.ctx).toNat b else s.tbl := by
  cases lit <;> rfl

theorem predict_decProduce (c : Byte) (p : Word) (i : BitVec 4) (b : Byte) (lit : Bool) (s : State)
    (j : Key) :
    predict (decProduce c p i b lit s) j =
      if lit = true ∧ j = hashKey s.ctx then b else predict s j := by
  have hr : (decProduce c p i b lit s).resets = s.resets := by rw [decProduce_eq]
  cases lit
  · rw [predict_congr (by rw [decProduce_tbl]; rfl) hr]; simp
  · have ht : (decProduce c p i b true s).tbl = (update (hashKey s.ctx) b s).tbl := by
      rw [decProduce_tbl]; rfl
    rw [predict_congr ht hr, predict_update]
    simp

theorem outRead_decProduce (c : Byte) (p : Word) (i : BitVec 4) (b : Byte) (lit : Bool) (s : State)
    (q : Nat) :
    outRead (decProduce c p i b lit s) q = if q = s.outLen.toNat then b else outRead s q := by
  have h : outRead (decProduce c p i b lit s) q = outRead (outAppend b s) q := by
    cases lit <;> rfl
  rw [h, outRead_outAppend]

/-! ### The step -/

theorem decEmit_eq (c : Byte) (p : Word) (i : BitVec 4) (b : Byte) (lit : Bool) (s : State) :
    decEmit c p i b lit s =
      if s.outCap < s.outLen.toNat + 1 then .error .outOverflow
      else .ok (decProduce c p i b lit s) := rfl

/-- Where the step takes its control byte `c`, its next input position `p` and its slot `i` from: a
control byte it reads, or the one it holds (43_decoder.md R181). -/
abbrev DecAt (s : State) (c : Byte) (p : Word) (i : BitVec 4) : Prop :=
  s.dBitpos = 8#4 ∧ s.inPos ≠ s.inLen ∧ c = inRead s s.inPos.toNat ∧ p = s.inPos + 1 ∧ i = 0#4 ∨
    s.dBitpos ≠ 8#4 ∧ c = s.dCtrl ∧ p = s.inPos ∧ i = s.dBitpos

/-- In a session the step either stops for want of a control byte or handles a slot. -/
theorem decStep_dec {s : State} (hm : s.mode = .dec) :
    s.dBitpos = 8#4 ∧ s.inPos = s.inLen ∧ decStep s = .ok (stopSession .noCtrl s) ∨
      ∃ c p i, DecAt s c p i ∧ decStep s = decSlot c p i s := by
  unfold decStep
  by_cases h8 : s.dBitpos = 8#4
  · by_cases hp : s.inPos = s.inLen
    · exact .inl ⟨h8, hp, by simp [hm, h8, hp]⟩
    · exact .inr ⟨_, _, _, .inl ⟨h8, hp, rfl, rfl, rfl⟩, by simp [hm, h8, hp]⟩
  · exact .inr ⟨_, _, _, .inr ⟨h8, rfl, rfl, rfl⟩, by simp [hm, h8]⟩

theorem decSlot_ok_cases {c : Byte} {p : Word} {i : BitVec 4} {s t : State}
    (h : decSlot c p i s = .ok t) :
    flagTest c i.toNat = true ∧ s.outLen.toNat + 1 ≤ s.outCap ∧
        t = decProduce c p i (predict s (hashKey s.ctx)) false s ∨
      flagTest c i.toNat = false ∧ p = s.inLen ∧
        t = stopSession .noLit { s with dCtrl := c, dBitpos := i, inPos := p } ∨
      flagTest c i.toNat = false ∧ p ≠ s.inLen ∧ s.outLen.toNat + 1 ≤ s.outCap ∧
        t = decProduce c (p + 1) i (inRead s p.toNat) true s := by
  unfold decSlot at h
  simp only [decEmit_eq] at h
  split_ifs at h with h1 h2 h3 h4
  · cases h; exact .inl ⟨h1, by omega, rfl⟩
  · cases h; exact .inr (.inl ⟨by simpa using h1, h3, rfl⟩)
  · cases h; exact .inr (.inr ⟨by simpa using h1, h3, by omega, rfl⟩)

theorem decSlot_error_cases {c : Byte} {p : Word} {i : BitVec 4} {s : State} {e : Cause}
    (h : decSlot c p i s = .error e) :
    s.outCap < s.outLen.toNat + 1 ∧ (flagTest c i.toNat = true ∨ p ≠ s.inLen) ∧
      e = .outOverflow := by
  unfold decSlot at h
  simp only [decEmit_eq] at h
  split_ifs at h with h1 h2 h3 h4
  · cases h; exact ⟨h2, .inl h1, rfl⟩
  · cases h; exact ⟨h4, .inr h3, rfl⟩

theorem decStep_ok_cases {s t : State} (h : decStep s = .ok t) :
    s.mode = .dec ∧
      (s.dBitpos = 8#4 ∧ s.inPos = s.inLen ∧ t = stopSession .noCtrl s ∨
        ∃ c p i, DecAt s c p i ∧ decSlot c p i s = .ok t) := by
  by_cases hm : s.mode = .dec
  · refine ⟨hm, ?_⟩
    rcases decStep_dec hm with ⟨h8, hp, he⟩ | ⟨c, p, i, ha, he⟩
    · rw [he] at h; cases h; exact .inl ⟨h8, hp, rfl⟩
    · exact .inr ⟨c, p, i, ha, by rw [← he, h]⟩
  · unfold decStep at h; simp [hm] at h

theorem decStep_error_cases {s : State} {e : Cause} (h : decStep s = .error e) :
    s.mode ≠ .dec ∧ e = .sequenceError ∨
      s.mode = .dec ∧ s.outCap < s.outLen.toNat + 1 ∧ e = .outOverflow := by
  by_cases hm : s.mode = .dec
  · rcases decStep_dec hm with ⟨-, -, he⟩ | ⟨c, p, i, -, he⟩
    · rw [he] at h; cases h
    · rw [he] at h
      obtain ⟨ho, -, rfl⟩ := decSlot_error_cases h
      exact .inr ⟨hm, ho, rfl⟩
  · unfold decStep at h
    simp [hm] at h
    exact .inl ⟨hm, h.symm⟩

/-- A step that ends in no fault writes only the session's registers, `TBL` and `OUT`. -/
theorem decStep_frame {s t : State} (h : decStep s = .ok t) :
    t = { s with mode := t.mode, stop := t.stop, inPos := t.inPos, ctx := t.ctx, tbl := t.tbl,
                 outBuf := t.outBuf, outLen := t.outLen, dCtrl := t.dCtrl,
                 dBitpos := t.dBitpos } := by
  obtain ⟨-, ⟨-, -, rfl⟩ | ⟨c, p, i, -, hs⟩⟩ := decStep_ok_cases h
  · rfl
  · rcases decSlot_ok_cases hs with ⟨-, -, rfl⟩ | ⟨-, -, rfl⟩ | ⟨-, -, -, rfl⟩
    · rw [decProduce_eq]
    · rfl
    · rw [decProduce_eq]

/-! ### The loop of `DECOMPRESS` -/

theorem decLoop_of_mode_ne {s : State} (h : s.mode ≠ .dec) (n : Nat) : decLoop n s = (s, none) := by
  cases n <;> simp [decLoop, h]

theorem decLoop_succ_ok {s t : State} (h : decStep s = .ok t) (n : Nat) :
    decLoop (n + 1) s = decLoop n t := by
  simp [decLoop, (decStep_ok_cases h).1, h]

theorem decLoop_succ_error {s : State} {c : Cause} (hm : s.mode = .dec) (h : decStep s = .error c)
    (n : Nat) : decLoop (n + 1) s = (s, some c) := by
  simp [decLoop, hm, h]

/-- What every step keeps, the loop keeps. -/
theorem decLoop_keeps {P : State → Prop} (hP : ∀ s t, P s → decStep s = .ok t → P t) (n : Nat)
    {s : State} (h : P s) : P (decLoop n s).1 := by
  induction n generalizing s with
  | zero => exact h
  | succ n ih =>
    by_cases hm : s.mode = .dec
    · cases hs : decStep s with
      | ok t => rw [decLoop_succ_ok hs]; exact ih (hP s t h hs)
      | error c => rw [decLoop_succ_error hm hs]; exact h
    · rw [decLoop_of_mode_ne hm]; exact h

/-- The loop reports a fault only where the next step of the state it leaves raises it. -/
theorem decLoop_fault {n : Nat} {s t : State} {c : Cause} (h : decLoop n s = (t, some c)) :
    t.mode = .dec ∧ decStep t = .error c ∧ c = .outOverflow := by
  induction n generalizing s with
  | zero => simp [decLoop] at h
  | succ n ih =>
    by_cases hm : s.mode = .dec
    · cases hs : decStep s with
      | ok u => rw [decLoop_succ_ok hs] at h; exact ih h
      | error d =>
        rw [decLoop_succ_error hm hs] at h
        cases h
        rcases decStep_error_cases hs with ⟨hne, -⟩ | ⟨-, -, hc⟩
        · exact absurd hm hne
        · exact ⟨hm, hs, hc⟩
    · rw [decLoop_of_mode_ne hm] at h; cases h

/-- The slots still to come at most: eight for each input byte left and those left of the control byte
held (43_decoder.md R188). -/
abbrev slotsLeft (s : State) : Nat :=
  8 * (s.inLen.toNat - s.inPos.toNat) + (8 - s.dBitpos.toNat)

/-- A step that does not end the session uses at least one of the slots still to come, and keeps the
positions in range. -/
theorem slotsLeft_decStep {s t : State} (h : decStep s = .ok t) (hp : s.inPos.toNat ≤ s.inLen.toNat)
    (hb : s.dBitpos.toNat ≤ 8) :
    t.inPos.toNat ≤ t.inLen.toNat ∧ t.dBitpos.toNat ≤ 8 ∧
      (t.mode = .done ∨ t.mode = .dec ∧ slotsLeft t < slotsLeft s) := by
  obtain ⟨hm, ⟨-, -, rfl⟩ | ⟨c, p, i, ha, hs⟩⟩ := decStep_ok_cases h
  · exact ⟨hp, hb, .inl rfl⟩
  · have hl := s.inLen.isLt
    have hpi : p.toNat ≤ s.inLen.toNat ∧ i.toNat < 8 ∧
        8 * (s.inLen.toNat - p.toNat) + (8 - i.toNat) ≤ slotsLeft s := by
      rcases ha with ⟨h8, hne, -, rfl, rfl⟩ | ⟨h8, -, rfl, rfl⟩
      · have hlt : s.inPos.toNat < s.inLen.toNat :=
          lt_of_le_of_ne hp (fun e => hne (BitVec.eq_of_toNat_eq e))
        have hq : (s.inPos + 1).toNat = s.inPos.toNat + 1 := by
          simp [BitVec.toNat_add]; omega
        have h8n : s.dBitpos.toNat = 8 := by rw [h8]; rfl
        have h0 : (0#4).toNat = 0 := rfl
        rw [hq, h0]
        exact ⟨by omega, by decide, by simp only [slotsLeft]; omega⟩
      · have : s.dBitpos.toNat ≠ 8 := fun e => h8 (BitVec.eq_of_toNat_eq e)
        exact ⟨hp, by omega, Nat.le_refl _⟩
    obtain ⟨hp', hi, hle⟩ := hpi
    have hi1 : (i + 1).toNat = i.toNat + 1 := by simp [BitVec.toNat_add]; omega
    rcases decSlot_ok_cases hs with ⟨-, -, rfl⟩ | ⟨-, -, rfl⟩ | ⟨-, hne, -, rfl⟩
    · rw [decProduce_eq]
      refine ⟨hp', by simp only [hi1]; omega, .inr ⟨hm, ?_⟩⟩
      simp only [slotsLeft, hi1] at hle ⊢
      omega
    · exact ⟨hp', by simp; omega, .inl rfl⟩
    · have hlt : p.toNat < s.inLen.toNat :=
        lt_of_le_of_ne hp' (fun e => hne (BitVec.eq_of_toNat_eq e))
      have hq : (p + 1).toNat = p.toNat + 1 := by simp [BitVec.toNat_add]; omega
      rw [decProduce_eq]
      refine ⟨by simp only [hq]; omega, by simp only [hi1]; omega, .inr ⟨hm, ?_⟩⟩
      simp only [slotsLeft, hi1, hq] at hle ⊢
      omega

/-- The slots still to come bound the passes: with more of them the loop ends because `MODE` left `DEC`
or because a step raised a fault, never because the passes ran out. -/
theorem decLoop_ends {n : Nat} {s : State} (hp : s.inPos.toNat ≤ s.inLen.toNat)
    (hb : s.dBitpos.toNat ≤ 8) (hn : slotsLeft s < n) :
    (decLoop n s).1.mode ≠ .dec ∨ ∃ c, (decLoop n s).2 = some c := by
  induction n generalizing s with
  | zero => omega
  | succ n ih =>
    by_cases hm : s.mode = .dec
    · cases hs : decStep s with
      | error c => rw [decLoop_succ_error hm hs]; exact .inr ⟨c, rfl⟩
      | ok t =>
        rw [decLoop_succ_ok hs]
        obtain ⟨hp', hb', hd | ⟨-, hlt⟩⟩ := slotsLeft_decStep hs hp hb
        · rw [decLoop_of_mode_ne (by simp [hd])]; exact .inl (by simp [hd])
        · exact ih hp' hb' (by omega)
    · rw [decLoop_of_mode_ne hm]; exact .inl hm

end Sys2Proof.Machine
end

