-- ==== Sys2Proof/Laws/Encoder.lean ====
section
/-! SUPPORT. What a step of the encoder can do, once (42_encoder.md R151), and how its loop goes. -/

namespace Sys2Proof.Machine

/-! ### The byte path -/

/-- Every register after the byte path. -/
theorem encByte_eq (s : State) :
    encByte s =
      { s with
        inPos := s.inPos + 1
        ctx := advance s.ctx (inRead s s.inPos.toNat)
        tbl := (encByte s).tbl
        outBuf := (encByte s).outBuf
        outLen :=
          if encLast s then (if encHit s then s.outLen else s.outLen + 1) + 1
          else if encHit s then s.outLen else s.outLen + 1
        eFlags :=
          if encLast s then 0x00
          else if encHit s then flagSet s.eFlags s.eBitpos.toNat else s.eFlags
        eBitpos := if encLast s then 0 else s.eBitpos + 1
        eFlagpos :=
          if encLast s then (if encHit s then s.outLen else s.outLen + 1) else s.eFlagpos } := by
  cases hh : encHit s <;> cases hl : encLast s <;> simp only [encByte, hh, hl] <;> rfl

/-- The table after the byte path: a miss learns its byte, a hit changes nothing (42_encoder.md
R154). -/
theorem encByte_tbl (s : State) :
    (encByte s).tbl =
      if encHit s then s.tbl
      else s.tbl.set (hashKey s.ctx).toNat (inRead s s.inPos.toNat) := by
  cases hh : encHit s <;> cases hl : encLast s <;> simp only [encByte, hh, hl] <;> rfl

theorem predict_encByte (s : State) (j : Key) :
    predict (encByte s) j =
      if encHit s = false ∧ j = hashKey s.ctx then inRead s s.inPos.toNat else predict s j := by
  have hr : (encByte s).resets = s.resets := by rw [encByte_eq]
  cases hh : encHit s
  · have ht : (encByte s).tbl = (update (hashKey s.ctx) (inRead s s.inPos.toNat) s).tbl := by
      rw [encByte_tbl, hh]; rfl
    rw [predict_congr ht hr, predict_update]
    simp
  · rw [predict_congr (by rw [encByte_tbl, hh]; rfl) hr]
    simp

/-- The output buffer after the byte path, as the writes it makes in order. -/
theorem encByte_outBuf (s : State) :
    (encByte s).outBuf =
      let m := if encHit s then s.outBuf
        else Memory.set s.outBuf s.outLen.toNat (inRead s s.inPos.toNat)
      let f := if encHit s then flagSet s.eFlags s.eBitpos.toNat else s.eFlags
      let n := if encHit s then s.outLen else s.outLen + 1
      if encLast s then Memory.set (Memory.set m s.eFlagpos.toNat f) n.toNat 0x00#8 else m := by
  cases hh : encHit s <;> cases hl : encLast s <;> simp only [encByte, hh, hl] <;> rfl

theorem get?_encByte_outBuf (s : State) (p : Nat) :
    Memory.get? (encByte s).outBuf p =
      let f := if encHit s then flagSet s.eFlags s.eBitpos.toNat else s.eFlags
      let n := if encHit s then s.outLen else s.outLen + 1
      if encLast s = true ∧ p = n.toNat then some 0x00#8
      else if encLast s = true ∧ p = s.eFlagpos.toNat then some f
      else if encHit s = false ∧ p = s.outLen.toNat then some (inRead s s.inPos.toNat)
      else Memory.get? s.outBuf p := by
  rw [encByte_outBuf]
  cases hh : encHit s <;> cases hl : encLast s <;> simp [Memory.get?_set]

theorem outRead_encByte (s : State) (p : Nat) :
    outRead (encByte s) p =
      let f := if encHit s then flagSet s.eFlags s.eBitpos.toNat else s.eFlags
      let n := if encHit s then s.outLen else s.outLen + 1
      if encLast s = true ∧ p = n.toNat then 0x00#8
      else if encLast s = true ∧ p = s.eFlagpos.toNat then f
      else if encHit s = false ∧ p = s.outLen.toNat then inRead s s.inPos.toNat
      else outRead s p := by
  have hw : (encByte s).writes = s.writes := by rw [encByte_eq]
  unfold outRead
  rw [get?_encByte_outBuf, hw]
  dsimp only
  split_ifs <;> rfl

/-! ### The step -/

/-- The three ways `ENC_STEP` can go: refused by the mode, finalising, or over the byte path, which a
full buffer stops. -/
theorem encStep_eq (s : State) :
    encStep s =
      if s.mode ≠ .enc then .error .sequenceError
      else if s.inPos = s.inLen then
        .ok (stopSession .encEnd (outWrite s.eFlagpos.toNat s.eFlags s))
      else if s.outCap < s.outLen.toNat + encNeed (encHit s) (encLast s) then .error .outOverflow
      else .ok (encByte s) := rfl

theorem encStep_ok_cases {s t : State} (h : encStep s = .ok t) :
    s.mode = .enc ∧
      (s.inPos = s.inLen ∧
          t = stopSession .encEnd (outWrite s.eFlagpos.toNat s.eFlags s) ∨
        s.inPos ≠ s.inLen ∧ s.outLen.toNat + encNeed (encHit s) (encLast s) ≤ s.outCap ∧
          t = encByte s) := by
  rw [encStep_eq] at h
  split_ifs at h with h1 h2 h3
  · cases h; exact ⟨not_not.mp h1, .inl ⟨h2, rfl⟩⟩
  · cases h; exact ⟨not_not.mp h1, .inr ⟨h2, by omega, rfl⟩⟩

theorem encStep_error_cases {s : State} {c : Cause} (h : encStep s = .error c) :
    s.mode ≠ .enc ∧ c = .sequenceError ∨
      s.mode = .enc ∧ s.inPos ≠ s.inLen ∧
        s.outCap < s.outLen.toNat + encNeed (encHit s) (encLast s) ∧ c = .outOverflow := by
  rw [encStep_eq] at h
  split_ifs at h with h1 h2 h3
  · cases h; exact .inl ⟨h1, rfl⟩
  · cases h; exact .inr ⟨not_not.mp h1, h2, h3, rfl⟩

/-- A step that ends in no fault writes only the session's registers, `TBL` and `OUT`. -/
theorem encStep_frame {s t : State} (h : encStep s = .ok t) :
    t = { s with mode := t.mode, stop := t.stop, inPos := t.inPos, ctx := t.ctx, tbl := t.tbl,
                 outBuf := t.outBuf, outLen := t.outLen, eFlags := t.eFlags, eBitpos := t.eBitpos,
                 eFlagpos := t.eFlagpos } := by
  obtain ⟨-, ⟨-, rfl⟩ | ⟨-, -, rfl⟩⟩ := encStep_ok_cases h
  · rfl
  · rw [encByte_eq]

/-! ### The loop of `COMPRESS` -/

theorem encLoop_of_mode_ne {s : State} (h : s.mode ≠ .enc) (n : Nat) : encLoop n s = (s, none) := by
  cases n <;> simp [encLoop, h]

theorem encLoop_succ_ok {s t : State} (h : encStep s = .ok t) (n : Nat) :
    encLoop (n + 1) s = encLoop n t := by
  simp [encLoop, (encStep_ok_cases h).1, h]

theorem encLoop_succ_error {s : State} {c : Cause} (hm : s.mode = .enc) (h : encStep s = .error c)
    (n : Nat) : encLoop (n + 1) s = (s, some c) := by
  simp [encLoop, hm, h]

/-- What every step keeps, the loop keeps. -/
theorem encLoop_keeps {P : State → Prop} (hP : ∀ s t, P s → encStep s = .ok t → P t) (n : Nat)
    {s : State} (h : P s) : P (encLoop n s).1 := by
  induction n generalizing s with
  | zero => exact h
  | succ n ih =>
    by_cases hm : s.mode = .enc
    · cases hs : encStep s with
      | ok t => rw [encLoop_succ_ok hs]; exact ih (hP s t h hs)
      | error c => rw [encLoop_succ_error hm hs]; exact h
    · rw [encLoop_of_mode_ne hm]; exact h

/-- The loop reports a fault only where the next step of the state it leaves raises it. -/
theorem encLoop_fault {n : Nat} {s t : State} {c : Cause} (h : encLoop n s = (t, some c)) :
    t.mode = .enc ∧ encStep t = .error c ∧ c = .outOverflow := by
  induction n generalizing s with
  | zero => simp [encLoop] at h
  | succ n ih =>
    by_cases hm : s.mode = .enc
    · cases hs : encStep s with
      | ok u => rw [encLoop_succ_ok hs] at h; exact ih h
      | error d =>
        rw [encLoop_succ_error hm hs] at h
        cases h
        rcases encStep_error_cases hs with ⟨hne, -⟩ | ⟨-, -, -, hc⟩
        · exact absurd hm hne
        · exact ⟨hm, hs, hc⟩
    · rw [encLoop_of_mode_ne hm] at h; cases h

/-- The bytes still to read bound the passes: with `IN_LEN - IN_POS + 1` of them or more, the loop ends
because `MODE` left `ENC` or because a step raised a fault, never because the passes ran out. -/
theorem encLoop_ends {n : Nat} {s : State} (hp : s.inPos.toNat ≤ s.inLen.toNat)
    (hn : s.inLen.toNat - s.inPos.toNat < n) :
    (encLoop n s).1.mode ≠ .enc ∨ ∃ c, (encLoop n s).2 = some c := by
  induction n generalizing s with
  | zero => omega
  | succ n ih =>
    by_cases hm : s.mode = .enc
    · cases hs : encStep s with
      | error c => rw [encLoop_succ_error hm hs]; exact .inr ⟨c, rfl⟩
      | ok t =>
        rw [encLoop_succ_ok hs]
        obtain ⟨-, ⟨-, rfl⟩ | ⟨hne, -, rfl⟩⟩ := encStep_ok_cases hs
        · rw [encLoop_of_mode_ne (by simp)]; simp
        · have hlt : s.inPos.toNat < s.inLen.toNat :=
            lt_of_le_of_ne hp (fun e => hne (BitVec.eq_of_toNat_eq e))
          have hb := s.inLen.isLt
          have hpos : (encByte s).inPos.toNat = s.inPos.toNat + 1 := by
            rw [encByte_eq]; simp [BitVec.toNat_add]; omega
          have hlen : (encByte s).inLen = s.inLen := by rw [encByte_eq]
          exact ih (by rw [hpos, hlen]; omega) (by rw [hpos, hlen]; omega)
    · rw [encLoop_of_mode_ne hm]; exact .inl hm

end Sys2Proof.Machine
end

