-- ==== Sys2Proof/Laws/Output.lean ====
section
/-! SUPPORT. What each operation leaves of the bytes `OUT[0..OUT_LEN)`, as a list. -/

namespace Sys2Proof.Machine

theorem outputOf_congr {s t : State} (h1 : t.outLen = s.outLen) (h2 : t.outBuf = s.outBuf)
    (h3 : t.writes = s.writes) : outputOf t = outputOf s := by
  unfold outputOf
  rw [h1]
  exact List.map_congr_left fun p _ => outRead_congr h2 h3 p

@[simp] theorem length_outputOf (s : State) : (outputOf s).length = s.outLen.toNat := by
  simp [outputOf]

@[simp] theorem length_inputOf (s : State) : (inputOf s).length = s.inLen.toNat := by
  simp [inputOf]

theorem getElem?_outputOf {s : State} {p : Nat} (h : p < s.outLen.toNat) :
    (outputOf s)[p]? = some (outRead s p) := by simp [outputOf, h]

/-- A position register below its capacity steps up by one without wrapping. -/
theorem toNat_succ_of_room {w : Word} {c : Nat} (hc : c < 2 ^ 32) (h : w.toNat + 1 ≤ c) :
    (w + 1).toNat = w.toNat + 1 := by
  rw [BitVec.toNat_add]; show (w.toNat + 1) % 2 ^ 32 = _; omega

/-- The back-patch changes one byte and no other. -/
theorem outputOf_outWrite (p : Nat) (b : Byte) (s : State) :
    outputOf (outWrite p b s) = (outputOf s).set p b := by
  apply List.ext_getElem?
  intro q
  by_cases hq : q < s.outLen.toNat
  · rw [getElem?_outputOf (by exact hq), outRead_outWrite, List.getElem?_set]
    by_cases h : q = p
    · subst h; simp [hq]
    · rw [if_neg h, if_neg (Ne.symm h), getElem?_outputOf hq]
  · rw [List.getElem?_eq_none (by rw [length_outputOf]; exact Nat.le_of_not_lt hq),
      List.getElem?_eq_none (by rw [List.length_set, length_outputOf]; omega)]

/-- One more byte, at `OUT_LEN`, with every byte before it kept. -/
theorem outputOf_snoc {s t : State} (b : Byte) (hl : t.outLen.toNat = s.outLen.toNat + 1)
    (hr : ∀ p, p < s.outLen.toNat → outRead t p = outRead s p) (hb : outRead t s.outLen.toNat = b) :
    outputOf t = outputOf s ++ [b] := by
  unfold outputOf
  rw [hl, List.range_succ, List.map_append]
  congr 1
  · exact List.map_congr_left fun p hp => hr p (by simpa using hp)
  · simp [hb]

/-- With room, `OutAppend` appends. -/
theorem outputOf_outAppend (b : Byte) (s : State) {c : Nat} (hc : c < 2 ^ 32)
    (h : s.outLen.toNat + 1 ≤ c) : outputOf (outAppend b s) = outputOf s ++ [b] := by
  apply outputOf_snoc
  · exact toNat_succ_of_room hc h
  · intro q hq; rw [outRead_outAppend, if_neg (by omega)]
  · rw [outRead_outAppend, if_pos rfl]

/-- With room, the decoder's producing path appends its byte. -/
theorem outputOf_decProduce (c : Byte) (p : Word) (i : BitVec 4) (b : Byte) (lit : Bool) {s : State}
    (hc : s.outCap < 2 ^ 32) (h : s.outLen.toNat + 1 ≤ s.outCap) :
    outputOf (decProduce c p i b lit s) = outputOf s ++ [b] := by
  apply outputOf_snoc
  · rw [decProduce_eq]; exact toNat_succ_of_room hc h
  · intro q hq; rw [outRead_decProduce, if_neg (by omega)]
  · rw [outRead_decProduce, if_pos rfl]

end Sys2Proof.Machine
end

