-- ==== Sys2Proof/Laws/PerInstr.lean ====
section
/-! SUPPORT. One lemma per instruction: its word stands in its row of the opcode table. -/

namespace Sys2Proof.Laws.RowMatch

open Sys2Proof

/-- The mask of each format's rows in spec/opcode_table.json (30_encoding.md R73). -/
def rowMask : Format → Word
  | .z => 0xFFFFFFFF#32
  | .d => 0xFFFFFF00#32
  | .k => 0xFFF000FF#32
  | .kd => 0xFFF00000#32

/-- The match word of each row in spec/opcode_table.json (30_encoding.md R73). -/
def rowMatch : Mnemonic → Word
  | .nop => 0x00000000#32
  | .init => 0x10000000#32
  | .encStart => 0x20000000#32
  | .encStep => 0x30000000#32
  | .decStart => 0x40000000#32
  | .decStep => 0x50000000#32
  | .compress => 0x60000000#32
  | .decompress => 0x70000000#32
  | .ctxAdvance => 0x80000000#32
  | .ctxHash => 0x90000000#32
  | .tblPredict => 0xA0000000#32
  | .tblUpdate => 0xB0000000#32

/-- The word of the instruction is selected by its own row: `w & mask = match`. -/
def Statement (i : Instr) : Prop :=
  encode i &&& rowMask (format i.mnemonic) = rowMatch i.mnemonic

theorem nop : Statement .nop := by unfold Statement; decide

theorem init : Statement .init := by unfold Statement; decide

theorem encStart : Statement .encStart := by unfold Statement; decide

theorem encStep : Statement .encStep := by unfold Statement; decide

theorem decStart : Statement .decStart := by unfold Statement; decide

theorem decStep : Statement .decStep := by unfold Statement; decide

theorem compress : Statement .compress := by unfold Statement; decide

theorem decompress : Statement .decompress := by unfold Statement; decide

theorem ctxAdvance (data : Byte) : Statement (.ctxAdvance data) := by
  show packWord 0x8#4 0#12 data &&& 0xFFFFFF00#32 = 0x80000000#32
  apply BitVec.eq_of_getLsbD_eq
  intro i hi
  unfold packWord
  interval_cases i <;> simp

theorem ctxHash : Statement .ctxHash := by unfold Statement; decide

theorem tblPredict (key : Key) : Statement (.tblPredict key) := by
  show packWord 0xA#4 key 0#8 &&& 0xFFF000FF#32 = 0xA0000000#32
  apply BitVec.eq_of_getLsbD_eq
  intro i hi
  unfold packWord
  interval_cases i <;> simp

theorem tblUpdate (key : Key) (data : Byte) : Statement (.tblUpdate key data) := by
  show packWord 0xB#4 key data &&& 0xFFF00000#32 = 0xB0000000#32
  apply BitVec.eq_of_getLsbD_eq
  intro i hi
  unfold packWord
  interval_cases i <;> simp

end Sys2Proof.Laws.RowMatch
end

