-- ==== Sys2Proof/Laws/Session.lean ====
section
/-! SUPPORT. What the start commands, the datapath commands and the `IN_LEN` write do in each mode, and
how a command ends. -/

namespace Sys2Proof.Machine

/-! ### Modes -/

theorem sessionFree_of_free {s : State} (h : Free s) : sessionFree s = true := sessionFree_iff.mpr h

theorem sessionFree_of_inSession {s : State} (h : InSession s) : sessionFree s = false :=
  sessionFree_eq_false_iff.mpr h

theorem free_or_inSession (s : State) : Free s ∨ InSession s := by
  cases h : s.mode <;> simp [Free, InSession, h]

/-! ### The commands that need no session to be running -/

theorem whenFree_of_free {s : State} (h : Free s) (f : State → State) : whenFree s f = .ok (f s) := by
  simp [whenFree, sessionFree_of_free h]

theorem whenFree_of_inSession {s : State} (h : InSession s) (f : State → State) :
    whenFree s f = .error .sequenceError := by
  simp [whenFree, sessionFree_of_inSession h]

theorem encStart_of_free {s : State} (h : Free s) :
    encStart s = .ok { outAppend 0x00#8 (freshSession s) with mode := .enc } := by
  simp [encStart, sessionFree_of_free h]

theorem encStart_of_inSession {s : State} (h : InSession s) :
    encStart s = .error .sequenceError := by
  simp [encStart, sessionFree_of_inSession h]

theorem decStart_of_free {s : State} (h : Free s) :
    decStart s = .ok { freshSession s with mode := .dec } := by
  simp [decStart, sessionFree_of_free h]

theorem decStart_of_inSession {s : State} (h : InSession s) :
    decStart s = .error .sequenceError := by
  simp [decStart, sessionFree_of_inSession h]

/-! ### The write of `IN_LEN` -/

/-- The three ways a write of `IN_LEN` can go (44_session_control.md R213). -/
theorem setInLen_cases (v : Word) (s : State) :
    InSession s ∧ setInLen v s = .error .sequenceError ∨
      Free s ∧ s.inCap < v.toNat ∧ setInLen v s = .error .badLength ∨
        Free s ∧ v.toNat ≤ s.inCap ∧ setInLen v s = .ok { s with inLen := v } := by
  unfold setInLen
  rcases free_or_inSession s with h | h
  · by_cases hv : s.inCap < v.toNat
    · exact .inr (.inl ⟨h, hv, by simp [sessionFree_of_free h, hv]⟩)
    · exact .inr (.inr ⟨h, Nat.le_of_not_lt hv, by simp [sessionFree_of_free h, hv]⟩)
  · exact .inl ⟨h, by simp [sessionFree_of_inSession h]⟩

/-! ### How a command ends -/

/-- A command that completes writes what it says; one that faults records the fault and nothing
else (00_scope.md R13). -/
theorem complete_cases (w : Word) (s : State) (r : Except Cause State) :
    (∃ t, r = .ok t ∧ complete w s r = t) ∨ ∃ c, r = .error c ∧ complete w s r = raise c w s := by
  cases r with
  | ok t => exact .inl ⟨t, rfl, rfl⟩
  | error c => exact .inr ⟨c, rfl, rfl⟩

/-- A whole session ends in the state its loop leaves, with the loop's fault recorded on it. -/
theorem finish_cases (w : Word) (p : State × Option Cause) :
    p.2 = none ∧ finish w p = p.1 ∨ ∃ c, p.2 = some c ∧ finish w p = raise c w p.1 := by
  obtain ⟨t, c⟩ := p
  cases c with
  | none => exact .inl ⟨rfl, rfl⟩
  | some c => exact .inr ⟨c, rfl, rfl⟩

end Sys2Proof.Machine
end

