-- ==== Sys2Proof/Laws/Window.lean ====
section
/-! SUPPORT. What a step does with each kind of access, once, so that no proof unfolds `serve`. -/

namespace Sys2Proof.Machine

theorem step_idle {s : State} (h : s.pending = []) : step s = .next s := by
  unfold step serve; rw [h]

theorem step_pending {s : State} {a : Access} {rest : List Access} (h : s.pending = a :: rest) :
    step s = performAccess a { s with pending := rest } := by
  unfold step serve; rw [h]

theorem step_reset {s : State} {rest : List Access} (h : s.pending = .reset :: rest) :
    step s = .next (resetEvent { s with pending := rest }) := by rw [step_pending h]; rfl

theorem step_write {s : State} {off : Nat} {width : Width} {v : Word} {rest : List Access}
    (h : s.pending = .write off width v :: rest) (hb : s.busy = false) :
    step s = writeWindow off width v { s with pending := rest, writes := s.writes + 1 } := by
  rw [step_pending h]; dsimp only [performAccess]; rw [if_neg (by simp [hb])]

theorem step_read {s : State} {off : Nat} {width : Width} {rest : List Access}
    (h : s.pending = .read off width :: rest) (hb : s.busy = false) :
    step s = readWindow off width { s with pending := rest } := by
  rw [step_pending h]; dsimp only [performAccess]; rw [if_neg (by simp [hb])]

theorem step_loadIn {s : State} {bytes : List Byte} {rest : List Access}
    (h : s.pending = .loadIn bytes :: rest) (hb : s.busy = false) :
    step s = placeInput 0 bytes { s with pending := rest, writes := s.writes + 1 } := by
  rw [step_pending h]; dsimp only [performAccess]; rw [if_neg (by simp [hb])]

theorem step_writeIn {s : State} {p : Nat} {b : Byte} {rest : List Access}
    (h : s.pending = .writeIn p b :: rest) (hb : s.busy = false) :
    step s = placeInput p [b] { s with pending := rest, writes := s.writes + 1 } := by
  rw [step_pending h]; dsimp only [performAccess]; rw [if_neg (by simp [hb])]

theorem step_readIn {s : State} {p : Nat} {rest : List Access}
    (h : s.pending = .readIn p :: rest) (hb : s.busy = false) :
    step s = if p < s.inCap then
        .next { s with pending := rest, busData := (inRead s p).setWidth 32 }
      else .fault .noSuchInByte := by
  rw [step_pending h]; dsimp only [performAccess]; rw [if_neg (by simp [hb])]; rfl

theorem step_readOut {s : State} {p : Nat} {rest : List Access}
    (h : s.pending = .readOut p :: rest) (hb : s.busy = false) :
    step s = .next { s with pending := rest, busData := (hostOutByte s p).setWidth 32 } := by
  rw [step_pending h]; dsimp only [performAccess]; rw [if_neg (by simp [hb])]; rfl

/-- Only aligned 32-bit accesses of the window are admitted (20_memory.md R53). -/
theorem admitWindow_word {off : Nat} (h4 : off % 4 = 0) (k : Host.Outcome State Fault Refusal) :
    admitWindow off .word k = k := by
  unfold admitWindow; rw [if_neg (by simp), if_neg (by simp [h4])]

/-- The offsets below 0x38 that are aligned name a register, and no other offset does
(10_state.md R34). -/
theorem windowReg_eq_none {off : Nat} (h : 0x38 ≤ off) : windowReg off = none := by
  unfold windowReg; split <;> first | omega | rfl

theorem windowReg_eq_cmd {off : Nat} (h : windowReg off = some .cmd) : off = 0x00 := by
  unfold windowReg at h; split at h <;> simp_all

theorem windowReg_eq_inLen {off : Nat} (h : windowReg off = some .inLen) : off = 0x08 := by
  unfold windowReg at h; split at h <;> simp_all

/-- A write to an offset that is neither `CMD` nor `IN_LEN` is ignored (10_state.md R38). -/
theorem writeOffset_ignored {off : Nat} (h0 : off ≠ 0x00) (h8 : off ≠ 0x08) (v : Word) (s : State) :
    writeOffset off v s = .next s := by
  unfold writeOffset
  split
  · next h => exact absurd (windowReg_eq_cmd h) h0
  · next h => exact absurd (windowReg_eq_inLen h) h8
  · rfl
  · rfl

/-- What bytes a host write of `IN` leaves in it. -/
theorem inRead_placed (s : State) (p : Nat) (bytes : List Byte) (a : Nat) :
    inRead { s with inBuf := Memory.load s.inBuf p bytes } a =
      if p ≤ a ∧ a < p + bytes.length then bytes.getD (a - p) 0x00 else inRead s a := by
  unfold inRead
  dsimp only
  rw [Memory.get?_load]
  split_ifs with h
  · have hl : a - p < bytes.length := by omega
    simp [hl]
  · rfl

end Sys2Proof.Machine
end

