-- ==== Sys2Proof/Tests/Slice0.lean ====
section
/-!
SUPPORT. Tests, each about one step, one word or one operation. The expected values are those of
spec/95_test_vectors.md, under the vector or program each comment names, or the example of the rule it
names. The witnesses at the end show that what each statement assumes can be met.
-/

namespace Sys2Proof.Tests

open Sys2Proof Sys2Proof.Machine

/-- `IDLE` with the bytes given in `IN`, `IN_LEN` their number, `IN_CAP` = 16 and `OUT_CAP` = 16. -/
def idle (bytes : List Byte) : State :=
  { State.reset with
    inCap := 16, outCap := 16, inBuf := Memory.load [] 0 bytes,
    inLen := BitVec.ofNat 32 bytes.length }

/-- The state a command leaves. -/
def after (i : Instr) (s : State) : State :=
  match exec i s with
  | .next t => t
  | _ => s

/-- What `f` sees in the state an outcome answers. -/
def seen {α : Type} (f : State → α) : Host.Outcome State Fault Refusal → Option α
  | .next t => some (f t)
  | _ => none

/-- In `ENC`, just after `ENC_START`. -/
def encoding (bytes : List Byte) : State := after .encStart (idle bytes)

/-- In `DEC`, just after `DEC_START`. -/
def decoding (bytes : List Byte) : State := after .decStart (idle bytes)

/-- `DONE`, after `COMPRESS` of the bytes. -/
def compressed (bytes : List Byte) : State := after .compress (idle bytes)

/-- In `ENC` with `OUT` full: `OUT_CAP` = 1 holds the provisional slot only. -/
def fullEncoder : State := { encoding [0x41] with outCap := 1 }

/-- In `DEC` with `OUT` full. -/
def fullDecoder : State := { decoding [0xff] with outCap := 0 }

/-- The state with one host access pending. -/
def ask (a : Access) (s : State) : State := { s with pending := [a] }

/-! ### WellFormed: an ill-formed line for each check, refused (30_encoding.md R76) -/

theorem test_refuses_an_operand_of_nop : AsmLine.wellFormed ⟨.nop, [0]⟩ = false := by decide
theorem test_refuses_a_missing_byte : AsmLine.wellFormed ⟨.ctxAdvance, []⟩ = false := by decide
theorem test_refuses_a_missing_key : AsmLine.wellFormed ⟨.tblPredict, []⟩ = false := by decide
theorem test_refuses_one_operand_of_two : AsmLine.wellFormed ⟨.tblUpdate, [5]⟩ = false := by decide
theorem test_refuses_byte_256 : AsmLine.wellFormed ⟨.ctxAdvance, [256]⟩ = false := by decide
theorem test_refuses_key_4096 : AsmLine.wellFormed ⟨.tblPredict, [4096]⟩ = false := by decide
theorem test_refuses_update_key_4096 : AsmLine.wellFormed ⟨.tblUpdate, [4096, 0]⟩ = false := by decide
theorem test_refuses_update_byte_256 : AsmLine.wellFormed ⟨.tblUpdate, [0, 256]⟩ = false := by decide

/-! ### Decode: a word of each command, bit by bit from 30_encoding.md R71 and R73 -/

theorem test_decode_nop : decode 0b0000_00000000_000000000000_00000000#32 = .ok .nop := by decide
theorem test_decode_init : decode 0b0001_00000000_000000000000_00000000#32 = .ok .init := by decide
theorem test_decode_encStart :
    decode 0b0010_00000000_000000000000_00000000#32 = .ok .encStart := by decide
theorem test_decode_encStep :
    decode 0b0011_00000000_000000000000_00000000#32 = .ok .encStep := by decide
theorem test_decode_decStart :
    decode 0b0100_00000000_000000000000_00000000#32 = .ok .decStart := by decide
theorem test_decode_decStep :
    decode 0b0101_00000000_000000000000_00000000#32 = .ok .decStep := by decide
theorem test_decode_compress :
    decode 0b0110_00000000_000000000000_00000000#32 = .ok .compress := by decide
theorem test_decode_decompress :
    decode 0b0111_00000000_000000000000_00000000#32 = .ok .decompress := by decide
theorem test_decode_ctxAdvance :
    decode 0b1000_00000000_000000000000_01000001#32 = .ok (.ctxAdvance 0x41#8) := by decide
theorem test_decode_ctxHash :
    decode 0b1001_00000000_000000000000_00000000#32 = .ok .ctxHash := by decide
theorem test_decode_tblPredict :
    decode 0b1010_00000000_001101110011_00000000#32 = .ok (.tblPredict 883#12) := by decide
theorem test_decode_tblUpdate :
    decode 0b1011_00000000_111111111111_10101011#32 = .ok (.tblUpdate 4095#12 0xAB#8) := by decide

/-- V-S8. -/
theorem test_decode_reserved_opcodes :
    decode 0xC0000000#32 = .error .reservedOpcode ∧ decode 0xF0000000#32 = .error .reservedOpcode := by
  decide

/-- V-A8, V-H21, V-T7, V-T8, V-S9. -/
theorem test_decode_reserved_bits :
    decode 0x80000141#32 = .error .reservedBits ∧ decode 0x90000100#32 = .error .reservedBits ∧
    decode 0xA00000FF#32 = .error .reservedBits ∧ decode 0xB0FFF0AB#32 = .error .reservedBits ∧
    decode 0x10000001#32 = .error .reservedBits := by decide

/-- V-T2. -/
theorem test_assemble_tblUpdate : assemble ⟨.tblUpdate, [883, 0x41]⟩ = some 0xB0037341#32 := by decide

theorem test_decodeTableWord_tblUpdate :
    decodeTableWord 32 0xB0037341 = some (.tblUpdate 883#12 0x41#8) := by decide

/-! ### One step of each command -/

/-- V-S1. -/
theorem test_nop_in_session : exec .nop (encoding [0x61, 0x62]) = .next (encoding [0x61, 0x62]) := rfl

/-- V-S2. -/
theorem test_init_in_session :
    seen (fun t => (t.mode, t.outLen, t.ctx, t.result, t.inLen, t.tbl)) (exec .init (encoding [0x61])) =
      some (.idle, 0, 0, 0, 1, Table.zero) := by decide

/-- 42_encoder.md R150, the example. -/
theorem test_encStart_from_idle :
    seen (fun t => (t.mode, t.outLen, t.eFlagpos, outRead t 0)) (exec .encStart (idle [0x41])) =
      some (.enc, 1, 0, 0x00) := by decide

/-- 42_encoder.md R151, the example: a miss appends the literal. -/
theorem test_encStep_miss :
    seen (fun t => (outputOf t, t.eBitpos, t.ctx, t.inPos)) (exec .encStep (encoding [0x41])) =
      some ([0x00, 0x41], 1, 0x41, 1) := by decide

/-- P4 step 8: a hit on the 8th byte of a group finalises it and reserves the next slot. -/
theorem test_encStep_boundary :
    seen (fun t => (outputOf t, t.eFlags, t.eBitpos, t.eFlagpos))
      (exec .encStep { encoding [0x00] with eFlags := 0xfe, eBitpos := 7 }) =
      some ([0xff, 0x00], 0x00, 0, 1) := by decide

/-- 43_decoder.md R180, the example: from `DONE`. -/
theorem test_decStart_from_done :
    seen (fun t => (t.mode, t.outLen, t.dBitpos)) (exec .decStart (compressed [0x41])) =
      some (.dec, 0, 8) := by decide

/-- 43_decoder.md R181, the example: a control byte and a literal. -/
theorem test_decStep_literal :
    seen (fun t => (outputOf t, predict t 0, t.inPos, t.dBitpos, t.ctx))
      (exec .decStep (decoding [0x00, 0x41])) = some ([0x41], 0x41, 2, 1, 0x41) := by decide

/-- V-D2: the literal stop keeps the control byte it read. -/
theorem test_decStep_literal_stop :
    seen (fun t => (t.mode, t.stop, t.inPos, t.dCtrl, t.dBitpos, t.outLen))
      (exec .decStep (decoding [0x00])) = some (.done, .noLit, 1, 0x00, 0, 0) := by decide

/-- V-E12 and P1. -/
theorem test_compress_abcabcabc :
    outputOf (compressed [0x61, 0x62, 0x63, 0x61, 0x62, 0x63, 0x61, 0x62, 0x63]) =
      [0x03, 0x61, 0x62, 0x63, 0x61, 0x62, 0x63, 0x80] := by decide

/-- P5: the fault records the word the host wrote, and the steps before it are kept. -/
theorem test_compress_overflow :
    seen (fun t => (t.mode, outputOf t, t.inPos, t.ecode, t.faultInfo))
      (exec .compress { idle [0x61, 0x62, 0x63] with outCap := 3 }) =
      some (.enc, [0x00, 0x61, 0x62], 2, .outOverflow, 0x60000000) := by decide

/-- V-D8. -/
theorem test_decompress_truncated :
    seen (fun t => (outputOf t, t.stop, t.ctx, t.inPos, t.dCtrl, t.dBitpos))
      (exec .decompress (idle [0x0f, 0x41, 0x41, 0x41])) =
      some ([0x41, 0x41, 0x41], .noLit, 0x414141, 4, 0x0f, 3) := by decide

/-- V-D15. -/
theorem test_decompress_overflow :
    seen (fun t => (t.mode, t.outLen, t.dBitpos, t.ecode, t.faultInfo))
      (exec .decompress { idle [0xff] with outCap := 5 }) =
      some (.dec, 5, 5, .outOverflow, 0x70000000) := by decide

/-- V-A4: the oldest byte falls off the top. -/
theorem test_ctxAdvance :
    seen (fun t => t.ctx) (exec (.ctxAdvance 0x44) { idle [] with ctx := 0x414243 }) =
      some 0x424344 := by decide

/-- V-A9. -/
theorem test_ctxAdvance_in_session :
    seen (fun t => (t.err, t.ecode, t.faultInfo, t.ctx))
      (exec (.ctxAdvance 0x41) (encoding [0x61, 0x62])) =
      some (true, .sequence, 0x80000041, 0) := by decide

/-- V-H6. -/
theorem test_ctxHash :
    seen (fun t => t.result) (exec .ctxHash { idle [] with ctx := 0x414141 }) = some 883 := by decide

/-- V-H19: another context with the key of context 0. -/
theorem test_ctxHash_collision :
    seen (fun t => t.result) (exec .ctxHash { idle [] with ctx := 0x226173 }) = some 0 := by decide

/-- V-T6: no other slot changes. -/
theorem test_tblPredict_other_slot :
    seen (fun t => t.result)
      (exec (.tblPredict 6) (after (.tblUpdate 5 0x77) (after .init (idle [])))) = some 0x00 := by
  decide

/-- V-T3: the highest key. -/
theorem test_tblUpdate_highest_key :
    seen (fun t => predict t 4095) (exec (.tblUpdate 4095 0xAB) (after .init (idle []))) =
      some 0xAB := by decide

/-- A slot that something wrote after reset holds its byte (V-T10 leaves the others open). -/
theorem test_tblUpdate_after_reset :
    seen (fun t => predict t 7) (exec (.tblUpdate 7 0x12) (idle [])) = some 0x12 := by decide

/-! ### The host's accesses -/

/-- V-S3 and V-S4, `IN_CAP` = 16. -/
theorem test_write_inLen :
    seen (fun t => (t.inLen, t.err)) (step (ask (.write 0x08 .word 16) (idle []))) =
      some (16, false) ∧
    seen (fun t => (t.inLen, t.ecode, t.faultInfo)) (step (ask (.write 0x08 .word 17) (idle []))) =
      some (0, .badLength, 0x11) := by decide

/-- V-S7. -/
theorem test_illegal_before_sequence :
    seen (fun t => (t.ecode, t.faultInfo)) (step (ask (.write 0x00 .word 0x30000001) (idle []))) =
      some (.illegalCmd, 0x30000001) := by decide

/-- V-S12 and V-S14. -/
theorem test_read_param_and_fsm :
    seen (fun t => t.busData) (step (ask (.read 0x28 .word) State.reset)) = some 0x00010C03 ∧
    seen (fun t => t.busData) (step (ask (.read 0x20 .word) State.reset)) = some 0x08000000 := by
  decide

/-- V-S16. -/
theorem test_read_status_after_session :
    seen (fun t => t.busData) (step (ask (.read 0x04 .word) (compressed [0x61, 0x62, 0x63]))) =
      some 0x00000007 := by decide

/-- The word placed for the fetch is the command the next step runs. -/
theorem test_withFetchWord :
    seen (fun t => (t.mode, t.outLen)) (step (State.reset.withFetchWord 32 0x20000000)) =
      some (.enc, 1) := by decide

/-! ### Witnesses: what the statements assume can be met -/

theorem test_witness_modes :
    Free (idle []) ∧ Free (compressed []) ∧ InSession (encoding []) ∧ InSession (decoding []) := by
  decide

theorem test_witness_illegal_word (i : Instr) :
    decode 0xC0000000#32 ≠ .ok i ∧ decode 0x00000001#32 ≠ .ok i := by
  have h1 : decode 0xC0000000#32 = .error .reservedOpcode := by decide
  have h2 : decode 0x00000001#32 = .error .reservedBits := by decide
  rw [h1, h2]
  exact ⟨nofun, nofun⟩

theorem test_witness_OpcodeMapSelectsRows :
    0xC0000000 ≤ (0xC0000000#32).toNat ∧ 0xC0000000 ≤ (0xFFFFFFFF#32).toNat ∧
    ¬0xC0000000 ≤ (0xBFFFFFFF#32).toNat := by decide

theorem test_witness_AssemblerEncodesOrRefuses :
    255 < 256 ∧ 4095 < 4096 ∧ ([1] : List Nat).length ≠ Instr.nop.line.operands.length ∧
    ([] : List Nat).length ≠ (Instr.ctxAdvance 0).line.operands.length := by decide

theorem test_witness_StepRunsTheDecodedCommand :
    (ask (.write 0x00 .word 0x10000000) (idle [])).pending = [.write 0x00 .word 0x10000000] ∧
    (idle []).busy = false ∧ decode 0x10000000#32 = .ok .init := by decide

theorem test_witness_StepRunsTheDecodedCommand_illegal (i : Instr) :
    (ask (.write 0x00 .word 0xC0000000) (idle [])).pending = [.write 0x00 .word 0xC0000000] ∧
    (idle []).busy = false ∧ decode 0xC0000000#32 ≠ .ok i :=
  ⟨rfl, rfl, (test_witness_illegal_word i).1⟩

/-- Each clause at the lowest and the highest bit it names. -/
theorem test_witness_IllegalWordsRaiseIllegalCommand :
    (0xC0000000#32 >>> 28).toNat = 0xC ∧ (0xFFFFFFFF#32 >>> 28).toNat = 0xF ∧
    (0x00000001#32 >>> 28).toNat = 0x0 ∧ 0x00000001#32 &&& 0x0FFFFFFF#32 ≠ 0#32 ∧
    (0x98000000#32 >>> 28).toNat = 0x9 ∧ 0x98000000#32 &&& 0x0FFFFFFF#32 ≠ 0#32 ∧
    (0x80000100#32 >>> 28).toNat = 0x8 ∧ 0x80000100#32 &&& 0x0FFFFF00#32 ≠ 0#32 ∧
    (0xA0000001#32 >>> 28).toNat = 0xA ∧ 0xA0000001#32 &&& 0x0FF000FF#32 ≠ 0#32 ∧
    (0xA0100000#32 >>> 28).toNat = 0xA ∧ 0xA0100000#32 &&& 0x0FF000FF#32 ≠ 0#32 ∧
    (0xB8000000#32 >>> 28).toNat = 0xB ∧ 0xB8000000#32 &&& 0x0FF00000#32 ≠ 0#32 ∧
    (idle []).err = false ∧ (after .encStep (idle [])).err = true := by decide

theorem test_witness_WindowAccessRules :
    (idle []).busy = false ∧ Width.byte ≠ Width.word ∧ 0x02 % 4 ≠ 0 ∧ 0x04 % 4 = 0 ∧ 0x38 % 4 = 0 ∧
    (ask (.write 0x04 .word 1) (idle [])).pending = [.write 0x04 .word 1] ∧
    (ask (.write 0x08 .word 1) (idle [])).pending = [.write 0x08 .word 1] ∧
    (ask (.write 0x00 .word 1) (idle [])).pending = [.write 0x00 .word 1] ∧
    (ask (.write 0x02 .word 1) (idle [])).pending = [.write 0x02 .word 1] ∧
    (ask (.write 0x00 .half 1) (idle [])).pending = [.write 0x00 .half 1] ∧
    (ask (.read 0x00 .word) (idle [])).pending = [.read 0x00 .word] ∧
    (ask (.read 0x38 .word) (idle [])).pending = [.read 0x38 .word] ∧
    (ask (.read 0x02 .word) (idle [])).pending = [.read 0x02 .word] ∧
    (ask (.read 0x04 .byte) (idle [])).pending = [.read 0x04 .byte] := by decide

theorem test_witness_WindowReadsReturnTheRegisters :
    ∀ off ∈ [0x04, 0x08, 0x0C, 0x10, 0x14, 0x18, 0x1C, 0x20, 0x24, 0x28, 0x2C, 0x30, 0x34],
      off % 4 = 0 ∧ (ask (.read off .word) (idle [])).pending = [.read off .word] ∧
      (ask (.read off .word) (idle [])).busy = false := by decide

/-- A session, the first value above `IN_CAP`, and `IN_CAP` itself. -/
theorem test_witness_InLenWriteRule :
    (ask (.write 0x08 .word 99) (encoding [0x61])).pending = [.write 0x08 .word 99] ∧
    InSession (encoding [0x61]) ∧ (encoding [0x61]).busy = false ∧
    (ask (.write 0x08 .word 17) (idle [])).pending = [.write 0x08 .word 17] ∧
    Free (idle []) ∧ (idle []).inCap < (17#32).toNat ∧ (16#32).toNat ≤ (idle []).inCap := by decide

/-- The last byte of the stream, the first beyond it, one beyond `OUT_CAP`, the last byte of `IN` and the
first that does not exist. -/
theorem test_witness_HostByteReadsHaveNoSideEffect :
    (ask (.readOut 1) (compressed [0x41])).pending = [.readOut 1] ∧
    1 < (compressed [0x41]).outLen.toNat ∧ ¬2 < (compressed [0x41]).outLen.toNat ∧
    (ask (.readOut 16) (compressed [0x41])).pending = [.readOut 16] ∧
    (compressed [0x41]).outCap ≤ 16 ∧
    (ask (.readIn 15) (idle [])).pending = [.readIn 15] ∧ 15 < (idle []).inCap ∧
    (ask (.readIn 16) (idle [])).pending = [.readIn 16] ∧ (idle []).inCap ≤ 16 ∧
    (idle []).busy = false ∧ (compressed [0x41]).busy = false := by decide

/-- As many bytes as `IN_CAP`, one more, and a session. -/
theorem test_witness_LoadInPlacesTheBytes :
    (List.replicate 16 (0x41 : Byte)).length ≤ (idle []).inCap ∧
    (idle []).inCap < (List.replicate 17 (0x41 : Byte)).length ∧ Free (idle []) ∧
    (ask (.loadIn [0x41]) (encoding [])).pending = [.loadIn [0x41]] ∧ InSession (encoding []) ∧
    ([0x41] : List Byte) ≠ [] ∧ (idle []).busy = false ∧ (encoding []).busy = false := by decide

theorem test_witness_ResetEventIsAStep :
    (ask .reset (encoding [0x61])).pending = [.reset] := rfl

theorem test_witness_NothingHappensWithoutAnAccess : (encoding [0x61]).pending = [] := rfl

theorem test_witness_FaultRecord :
    (idle []).err = false ∧ (after .encStep (idle [])).err = true := by decide

/-- In each mode a command that is legal and one that is not. -/
theorem test_witness_ModeLegalityTable :
    legalIn .encStart (idle []).mode = true ∧ legalIn .encStep (idle []).mode = false ∧
    legalIn .encStep (encoding []).mode = true ∧ legalIn .compress (encoding []).mode = false ∧
    legalIn .decStep (decoding []).mode = true ∧ legalIn .ctxHash (decoding []).mode = false ∧
    legalIn .ctxHash (compressed []).mode = true ∧ legalIn .decStep (compressed []).mode = false := by
  decide

theorem test_witness_FaultPriority :
    (idle []).mode ≠ .enc ∧ (idle []).mode ≠ .dec ∧ fullEncoder.mode = .enc ∧
    fullEncoder.err = false ∧ seen (fun t => t.err) (exec .encStep fullEncoder) = some true ∧
    fullDecoder.mode = .dec ∧ fullDecoder.err = false ∧
    seen (fun t => t.err) (exec .decStep fullDecoder) = some true ∧
    InSession fullEncoder ∧ fullEncoder.inCap < (17#32).toNat := by decide

theorem test_witness_FaultRecordIsSticky :
    (ask (.write 0x00 .word 0xC0000000) (after .encStep (idle []))).err = true ∧
    (ask (.write 0x00 .word 0xC0000000) (after .encStep (idle []))).pending ≠ [.reset] ∧
    seen (fun t => t.ecode)
      (step (ask (.write 0x00 .word 0xC0000000) (after .encStep (idle [])))) = some .sequence := by
  decide

theorem test_witness_AdvanceShiftsTheByteIn : (0xFFFFFF : Ctx).toNat < 2 ^ 24 := by decide

/-- For each opcode a word with a required-zero bit set: the lowest such bit, then the highest. -/
theorem test_witness_reserved_bits_of_the_rules :
    (∀ op ∈ ([0x0, 0x1, 0x2, 0x3, 0x4, 0x5, 0x6, 0x7, 0x9] : List Nat),
      (BitVec.ofNat 32 (op * 2 ^ 28 + 1)).extractLsb' 28 4 = BitVec.ofNat 4 op ∧
      (BitVec.ofNat 32 (op * 2 ^ 28 + 1)).extractLsb' 0 28 ≠ 0 ∧
      (BitVec.ofNat 32 (op * 2 ^ 28 + 2 ^ 27)).extractLsb' 28 4 = BitVec.ofNat 4 op ∧
      (BitVec.ofNat 32 (op * 2 ^ 28 + 2 ^ 27)).extractLsb' 0 28 ≠ 0) ∧
    (0x80000100#32).extractLsb' 28 4 = 0x8#4 ∧ (0x80000100#32).extractLsb' 8 20 ≠ 0 ∧
    (0xA0000001#32).extractLsb' 28 4 = 0xA#4 ∧ (0xA0000001#32).extractLsb' 0 8 ≠ 0 ∧
    (0xA8000000#32).extractLsb' 28 4 = 0xA#4 ∧ (0xA8000000#32).extractLsb' 20 8 ≠ 0 ∧
    (0xB0100000#32).extractLsb' 28 4 = 0xB#4 ∧ (0xB0100000#32).extractLsb' 20 8 ≠ 0 := by decide

/-- Both free modes and both session modes, and a state that `INIT` answers (40_context_hash_table.md
R107 to R110, 42_encoder.md R150, 43_decoder.md R180). -/
theorem test_witness_CtxAdvanceRule_CtxHashRule_TblPredictRule_TblUpdateRule_EncStartRule_DecStartRule :
    (Free (idle [0x61]) ∧ Free (compressed [0x61])) ∧
    (InSession (encoding [0x61]) ∧ InSession (decoding [0x61])) ∧
    exec .init (idle [0x61]) = .next (after .init (idle [0x61])) := ⟨by decide, by decide, rfl⟩

theorem test_witness_FlagSlotsAreBits : 0 < 8 ∧ 7 < 8 := by decide

theorem test_witness_PackThenUnpackIsIdentity :
    ([] : List Bool).length ≤ 8 ∧ [false, true, false, true, false, true, false, true].length ≤ 8 := by
  decide

/-- The finalising path, the full buffer, and the byte path with a miss and with a hit, each inside a
group and on its 8th byte (`need` from 0 to 2, the room exactly enough). -/
theorem test_witness_EncStepRule :
    (idle []).mode ≠ .enc ∧
    ((encoding []).mode = .enc ∧ (encoding []).inPos = (encoding []).inLen) ∧
    (fullEncoder.mode = .enc ∧ fullEncoder.inPos ≠ fullEncoder.inLen ∧ encHit fullEncoder = false ∧
      encLast fullEncoder = false ∧ fullEncoder.outCap < fullEncoder.outLen.toNat + 1) ∧
    (let s := { encoding [0x00] with outCap := 1 };
      s.mode = .enc ∧ s.inPos ≠ s.inLen ∧ encHit s = true ∧ encLast s = false ∧
        s.outLen.toNat + 0 ≤ s.outCap) ∧
    (let s := { encoding [0x41] with outCap := 2 };
      s.mode = .enc ∧ s.inPos ≠ s.inLen ∧ encHit s = false ∧ encLast s = false ∧
        s.outLen.toNat + 1 ≤ s.outCap) ∧
    (let s := { encoding [0x00] with outCap := 2, eBitpos := 7 };
      s.mode = .enc ∧ s.inPos ≠ s.inLen ∧ encHit s = true ∧ encLast s = true ∧
        s.outLen.toNat + 1 ≤ s.outCap) ∧
    (let s := { encoding [0x41] with outCap := 3, eBitpos := 7 };
      s.mode = .enc ∧ s.inPos ≠ s.inLen ∧ encHit s = false ∧ encLast s = true ∧
        s.outLen.toNat + 2 ≤ s.outCap) := by decide

/-- A state of a mode that is free, for the statements that assume no more (`IN_LEN` = 0 in the last). -/
theorem test_witness_CompressIsItsSteps_DecompressIsItsSteps_EmptyInputGivesOneZeroByte :
    Free (idle [0x61]) ∧ Free (idle []) ∧ (idle []).inLen = 0 := by decide

/-- `OUT_CAP` exactly the bound `n + n/8 + 1`, for 8 bytes and for none. -/
theorem test_witness_CompressCompletes :
    (let s := { idle [1, 2, 3, 4, 5, 6, 7, 8] with outCap := 10 };
      Free s ∧ s.outCap < 2 ^ 32 ∧ s.inLen.toNat + s.inLen.toNat / 8 + 1 ≤ s.outCap) ∧
    (let s := { idle [] with outCap := 1 };
      Free s ∧ s.outCap < 2 ^ 32 ∧ s.inLen.toNat + s.inLen.toNat / 8 + 1 ≤ s.outCap) := by decide

/-- V-E11 and P5: the stream of "abc" fits in 4 bytes and not in 3. -/
theorem test_witness_CompressRefinesTheDocument :
    (let s := { idle [0x61, 0x62, 0x63] with outCap := 4 };
      Free s ∧ 1 ≤ s.outCap ∧ s.outCap < 2 ^ 32 ∧
        (Reference.compress (inputOf s)).length ≤ s.outCap) ∧
    (let s := { idle [0x61, 0x62, 0x63] with outCap := 3 };
      Free s ∧ 1 ≤ s.outCap ∧ s.outCap < 2 ^ 32 ∧
        s.outCap < (Reference.compress (inputOf s)).length) := by decide

/-- The same input beside another context, another table and another result, with room for the stream
and without. -/
theorem test_witness_CompressDependsOnlyOnTheInput :
    (let s := idle [0x61, 0x62];
     let s' := { after (.tblUpdate 0 0x61) (after .init (idle [0x61, 0x62])) with ctx := 0x414141 };
      Free s ∧ Free s' ∧ s'.inLen = s.inLen ∧ s'.outCap = s.outCap ∧ s.outCap < 2 ^ 32 ∧
        1 ≤ s.outCap ∧ ∀ p, p < s.inLen.toNat → inRead s' p = inRead s p) ∧
    (let s := { idle [0x61, 0x62] with outCap := 1 };
     let s' := { s with ctx := 0x414141, result := 7 };
      Free s ∧ Free s' ∧ s'.inLen = s.inLen ∧ s'.outCap = s.outCap ∧ s.outCap < 2 ^ 32 ∧
        1 ≤ s.outCap ∧ (∀ p, p < s.inLen.toNat → inRead s' p = inRead s p) ∧
        (after .compress s).mode = .enc ∧ (after .compress s').mode = .enc) := by decide

/-- The control-byte stop, the literal stop with a fresh and with a held control byte, the full
buffer, and the producing path by a set slot and by a literal, the room exactly enough. -/
theorem test_witness_DecStepRule :
    (idle []).mode ≠ .dec ∧
    ((decoding []).mode = .dec ∧ (decoding []).dBitpos = 8#4 ∧
      (decoding []).inPos = (decoding []).inLen) ∧
    (let s := decoding [0x00];
      s.mode = .dec ∧ s.dBitpos = 8#4 ∧ s.inPos ≠ s.inLen ∧
        flagTest (inRead s s.inPos.toNat) 0 = false ∧ s.inPos + 1 = s.inLen) ∧
    (let s := { decoding [] with dCtrl := 0x80, dBitpos := 1 };
      s.mode = .dec ∧ s.dBitpos ≠ 8#4 ∧ flagTest s.dCtrl 1 = false ∧ s.inPos = s.inLen) ∧
    (fullDecoder.mode = .dec ∧ fullDecoder.inPos ≠ fullDecoder.inLen ∧
      flagTest (inRead fullDecoder 0) 0 = true ∧
      fullDecoder.outCap < fullDecoder.outLen.toNat + 1) ∧
    (let s := { decoding [0xff] with outCap := 1 };
      s.mode = .dec ∧ s.inPos ≠ s.inLen ∧ flagTest (inRead s 0) 0 = true ∧
        s.outLen.toNat + 1 ≤ s.outCap) ∧
    (let s := { decoding [0x00, 0x41] with outCap := 1 };
      s.mode = .dec ∧ s.inPos ≠ s.inLen ∧ flagTest (inRead s 0) 0 = false ∧ s.inPos + 1 ≠ s.inLen ∧
        s.outLen.toNat + 1 ≤ s.outCap) := by decide

/-- V-D4: the bound `8 * IN_LEN` met exactly. -/
theorem test_witness_DecompressCompletes :
    (let s := { idle [0xff] with outCap := 8 };
      Free s ∧ s.outCap < 2 ^ 32 ∧ 8 * s.inLen.toNat ≤ s.outCap) := by decide

/-- V-D15: eight bytes fit in 8 and not in 5. -/
theorem test_witness_DecompressRefinesTheDocument :
    (let s := { idle [0xff] with outCap := 8 };
      Free s ∧ s.outCap < 2 ^ 32 ∧ (Reference.decompress (inputOf s)).length ≤ s.outCap) ∧
    (let s := { idle [0xff] with outCap := 5 };
      Free s ∧ s.outCap < 2 ^ 32 ∧ s.outCap < (Reference.decompress (inputOf s)).length) := by decide

/-- V-E3 and V-D5. -/
theorem test_witness_RoundTrip :
    Free (idle [0x41]) ∧ Free (idle [0x00, 0x41]) ∧ 1 ≤ (idle [0x41]).outCap ∧
    (idle [0x41]).outCap < 2 ^ 32 ∧ (idle [0x00, 0x41]).outCap < 2 ^ 32 ∧
    exec .compress (idle [0x41]) = .next (compressed [0x41]) ∧ (compressed [0x41]).mode = .done ∧
    inputOf (idle [0x00, 0x41]) = outputOf (compressed [0x41]) :=
  ⟨by decide, by decide, by decide, by decide, by decide, rfl, by decide, by decide⟩

theorem test_witness_DecoderNeverRewritesOutput :
    (decoding [0x00, 0x41]).mode = .dec ∧ (decoding [0x00, 0x41]).outCap < 2 ^ 32 ∧
    (seen id (exec .decStep (decoding [0x00, 0x41]))).isSome = true := by decide

/-- A session under way, with the next `ENC_STEP` pending, meets the invariant. -/
theorem test_witness_InvariantKeptByEveryStep :
    let s := ask (.write 0x00 .word 0x30000000) (after .encStep (encoding [0x41, 0x42]));
    Machine.Inv s ∧ seen (fun t => t.inPos) (step s) = some 2 := by
  refine ⟨?_, by decide⟩
  constructor
  case encoder =>
    intro _
    refine ⟨by decide, by decide, fun j _ h => ?_, by decide⟩
    exact (show ∀ j < 8, flagTest 0x00 j = false by decide) j h
  case tbl_form => exact ⟨by decide, by decide, by decide, nofun⟩
  all_goals decide

/-- Both kinds of session, with no older fault and with one, and both whole sessions. -/
theorem test_witness_OverflowedSessionIsStuckUntilInit :
    (fullEncoder.mode = .enc ∧ seen (fun t => t.err) (exec .encStep fullEncoder) = some true ∧
      fullEncoder.err = false) ∧
    (let s := after .encStep fullEncoder; s.mode = .enc ∧ s.err = true ∧ exec .encStep s = .next s) ∧
    (fullDecoder.mode = .dec ∧ seen (fun t => t.err) (exec .decStep fullDecoder) = some true ∧
      fullDecoder.err = false) ∧
    (let s := after .decStep fullDecoder; s.mode = .dec ∧ s.err = true ∧ exec .decStep s = .next s) ∧
    (let s := { idle [0x61, 0x62] with outCap := 1 };
      Free s ∧ s.err = false ∧ (after .compress s).mode ≠ .done) ∧
    (let s := { idle [0xff] with outCap := 1 };
      Free s ∧ s.err = false ∧ (after .decompress s).mode ≠ .done) := by
  refine ⟨by decide, ⟨by decide, by decide, rfl⟩, by decide, ⟨by decide, by decide, rfl⟩, by decide,
    by decide⟩

/-- Each way a command can leave the mode, and a step for a command and for a reset. -/
theorem test_witness_ModeTransitions :
    (after .init (encoding [0x61])).mode ≠ (encoding [0x61]).mode ∧
    (encoding [0x61]).mode ≠ (idle [0x61]).mode ∧ (decoding [0x61]).mode ≠ (idle [0x61]).mode ∧
    (after .encStep (encoding [])).mode ≠ (encoding []).mode ∧
    (after .decStep (decoding [])).mode ≠ (decoding []).mode ∧
    (compressed [0x61]).mode ≠ (idle [0x61]).mode ∧
    (after .decompress (idle [])).mode ≠ (idle []).mode ∧
    seen (fun t => t.mode) (step (ask (.write 0x00 .word 0x20000000) (idle []))) = some .enc ∧
    seen (fun t => t.mode) (step (ask .reset (encoding []))) = some .idle := by decide

theorem test_witness_WhatNoCommandWrites :
    exec .encStep (encoding [0x61]) = .next (after .encStep (encoding [0x61])) ∧
    Instr.encStep ≠ .ctxHash ∧ Instr.encStep ≠ .init := ⟨rfl, by decide, by decide⟩

end Sys2Proof.Tests
end

section
/-!
PROOFS. The reset values (10_state.md R43): they hold at power-on, they do not rest on what stands outside
the block, and so the reset event brings them back. The window's constants read alike in every state.
-/

namespace Sys2Proof.Machine

/-! ### The reset values -/

/-- Right after power-on nothing has written `TBL`: its empty list stands over the unspecified base. -/
theorem atReset_powerOn : AtReset State.reset where
  ctx := rfl
  result := rfl
  mode := rfl
  stop := rfl
  err := rfl
  ecode := rfl
  busy := rfl
  faultInfo := rfl
  inLen := rfl
  inPos := rfl
  outLen := rfl
  eFlags := rfl
  eBitpos := rfl
  eFlagpos := rfl
  dCtrl := rfl
  dBitpos := rfl
  tbl k := (Table.get?_unspecified [] k).trans (Memory.get?_nil k)
  outBuf := Memory.get?_nil

/-- The reset values say nothing of `IN`, of the platform's parameters and of the model's own fields. -/
theorem AtReset.of_outside {s : State} (h : AtReset s) (inBuf : Memory) (inCap outCap : Nat)
    (pending : List Access) (busData : Word) (writes resets : Nat) :
    AtReset { s with inBuf, inCap, outCap, pending, busData, writes, resets } := { h with }

/-- The reset event differs from power-on outside the block only (70_reset_and_hazards.md R250). -/
theorem atReset_resetEvent (s : State) : AtReset (resetEvent s) :=
  atReset_powerOn.of_outside s.inBuf s.inCap s.outCap s.pending s.busData (s.writes + 1) (s.resets + 1)

@[simp] theorem resetEvent_inBuf (s : State) : (resetEvent s).inBuf = s.inBuf := rfl

/-! ### The constants of the register window (10_state.md R34 and R37) -/

/-- `ORDER` 3, `NUMBITS` 12 and version 1 in their fields. -/
theorem paramWord_eq : paramWord = 0x00010C03#32 := by decide

theorem readOffset_param (s : State) : readOffset 0x28 s = 0x00010C03#32 :=
  calc readOffset 0x28 s = paramWord := rfl
    _ = 0x00010C03#32 := paramWord_eq

theorem readOffset_mixerLo (s : State) : readOffset 0x2C s = 0xed558ccd#32 :=
  calc readOffset 0x2C s = Config.mixer.extractLsb' 0 32 := rfl
    _ = 0xed558ccd#32 := by decide

theorem readOffset_mixerHi (s : State) : readOffset 0x30 s = 0xff51afd7#32 :=
  calc readOffset 0x30 s = Config.mixer.extractLsb' 32 32 := rfl
    _ = 0xff51afd7#32 := by decide

/-- Settles O14: the values at power-on, carried over by the reset event, and the window's constants. -/
theorem resetValues : Obligations.ResetValues :=
  ⟨atReset_powerOn, fun s => ⟨atReset_resetEvent s, resetEvent_inBuf s⟩,
    fun s => ⟨readOffset_param s, readOffset_mixerLo s, readOffset_mixerHi s⟩⟩

end Sys2Proof.Machine
end

section
/-!
PROOFS. The rows of the opcode map (30_encoding.md R73): decoding tests the opcode and then the
must-be-zero bits, a row tests both at once with one `match` and one `mask`. The two tests are the
same, for every command and every word.
-/

namespace Sys2Proof

open Machine (opField)
open Laws.RowMatch (rowMask rowMatch)

/-! ### A masked word against a row -/

/-- The mask of a row covers `OP` and the bits its format requires to be zero. -/
theorem rowMask_eq_or_zeroMask (f : Format) : rowMask f = 0xF0000000#32 ||| zeroMask f := by
  cases f <;> rfl

/-- The match of a row is the row's opcode, with 0 in every other bit. -/
theorem rowMatch_eq_packWord (m : Mnemonic) : rowMatch m = packWord (opcode m) 0#12 0#8 := by
  cases m <;> rfl

theorem or_and_self_left (a b : Word) : (a ||| b) &&& a = a := by
  ext i hi
  simpa using Or.inl

/-- Comparing under two masks at once is comparing under each, where the value compared with lies
within the first mask and outside the second. -/
theorem and_or_eq_iff {w a z r : Word} (ha : r &&& a = r) (hz : r &&& z = 0#32) :
    w &&& (a ||| z) = r ↔ w &&& a = r ∧ w &&& z = 0#32 := by
  constructor
  · intro h
    constructor
    · calc w &&& a = w &&& ((a ||| z) &&& a) := by rw [or_and_self_left]
        _ = r &&& a := by rw [← BitVec.and_assoc, h]
        _ = r := ha
    · calc w &&& z = w &&& ((a ||| z) &&& z) := by rw [BitVec.or_comm, or_and_self_left]
        _ = r &&& z := by rw [← BitVec.and_assoc, h]
        _ = 0#32 := hz
  · rintro ⟨h1, h2⟩
    rw [and_or_distrib, h1, h2, BitVec.or_zero]

/-- Under the mask of `OP` a word is an opcode alone exactly when that opcode is its field. -/
theorem and_opMask_eq_packWord (w : Word) (o : BitVec 4) :
    w &&& 0xF0000000#32 = packWord o 0#12 0#8 ↔ opField w = o := by
  have hmask : (w &&& 0xF0000000#32).toNat = w.toNat / 2 ^ 28 % 2 ^ 4 * 2 ^ 28 :=
    and_run_toNat w 28 4 _ (by decide) (by decide)
  rw [← BitVec.toNat_inj, ← BitVec.toNat_inj, hmask, packWord_toNat, opField_toNat]
  simp only [BitVec.toNat_ofNat]
  omega

theorem and_rowMask_eq_rowMatch (w : Word) (m : Mnemonic) :
    w &&& rowMask (format m) = rowMatch m ↔
      opField w = opcode m ∧ w &&& zeroMask (format m) = 0#32 := by
  have inOp : rowMatch m &&& 0xF0000000#32 = rowMatch m := by cases m <;> decide
  have outsideZero : rowMatch m &&& zeroMask (format m) = 0#32 := by cases m <;> decide
  rw [rowMask_eq_or_zeroMask, and_or_eq_iff inOp outsideZero, rowMatch_eq_packWord,
    and_opMask_eq_packWord]

/-! ### Decoding by rows -/

@[simp] theorem mnemonic_withOperands (m : Mnemonic) (w : Word) :
    (withOperands m w).mnemonic = m := by
  cases m <;> rfl

/-- A word decodes to a command exactly when it selects the command's row and the command's operands
are the word's fields. -/
theorem decode_eq_ok_iff_row {w : Word} {i : Instr} :
    decode w = .ok i ↔
      w &&& rowMask (format i.mnemonic) = rowMatch i.mnemonic ∧ i = withOperands i.mnemonic w := by
  rw [decode_eq_ok, and_rowMask_eq_rowMatch]
  constructor
  · rintro ⟨m, hop, hzero, rfl⟩
    rw [mnemonic_withOperands]
    exact ⟨⟨hop, hzero⟩, rfl⟩
  · rintro ⟨⟨hop, hzero⟩, hi⟩
    exact ⟨i.mnemonic, hop, hzero, hi⟩

/-- A command without operands has nothing to compare but its row. -/
theorem decode_eq_ok_iff_row_of_no_operands {w : Word} {i : Instr}
    (h : i = withOperands i.mnemonic w) :
    decode w = .ok i ↔ w &&& rowMask (format i.mnemonic) = rowMatch i.mnemonic :=
  decode_eq_ok_iff_row.trans (and_iff_left h)

/-- For a command with operands, comparing it with the word's fields is comparing its operands. -/
theorem decode_eq_ok_iff_row_of_operands {w : Word} {i : Instr} {operands : Prop}
    (h : (i = withOperands i.mnemonic w) = operands) :
    decode w = .ok i ↔ w &&& rowMask (format i.mnemonic) = rowMatch i.mnemonic ∧ operands :=
  h ▸ decode_eq_ok_iff_row

/-- The opcodes from 0xC on are reserved (30_encoding.md R74): no command has one. -/
theorem decode_ne_ok_of_reserved {w : Word} (h : 0xC0000000 ≤ w.toNat) (i : Instr) :
    decode w ≠ .ok i := by
  intro hd
  obtain ⟨m, hop, -, -⟩ := decode_eq_ok.1 hd
  have reserved : mnemonicOf (opField w) = none :=
    mnemonicOf_eq_none.2 (by rw [opField_toNat]; omega)
  rw [hop, mnemonicOf_opcode] at reserved
  cases reserved

/-- Settles O1: nine rows without operands, three with, and the reserved opcodes. The masks and
the matches written out in the statement are the values of `rowMask` and `rowMatch`. -/
theorem opcodeMapSelectsRows : Obligations.OpcodeMapSelectsRows := fun _ =>
  ⟨decode_eq_ok_iff_row_of_no_operands (i := .nop) rfl,
    decode_eq_ok_iff_row_of_no_operands (i := .init) rfl,
    decode_eq_ok_iff_row_of_no_operands (i := .encStart) rfl,
    decode_eq_ok_iff_row_of_no_operands (i := .encStep) rfl,
    decode_eq_ok_iff_row_of_no_operands (i := .decStart) rfl,
    decode_eq_ok_iff_row_of_no_operands (i := .decStep) rfl,
    decode_eq_ok_iff_row_of_no_operands (i := .compress) rfl,
    decode_eq_ok_iff_row_of_no_operands (i := .decompress) rfl,
    fun d => decode_eq_ok_iff_row_of_operands (Instr.ctxAdvance.injEq d ..),
    decode_eq_ok_iff_row_of_no_operands (i := .ctxHash) rfl,
    fun k => decode_eq_ok_iff_row_of_operands (Instr.tblPredict.injEq k ..),
    fun k d => decode_eq_ok_iff_row_of_operands (Instr.tblUpdate.injEq k d ..),
    decode_ne_ok_of_reserved⟩

end Sys2Proof
end

section
/-!
PROOFS. The datapath and the four commands that expose it (40_context_hash_table.md). The words of a
command are its row of the opcode map; a word with the command's opcode and a required-zero bit set is
no command; each of the four runs where no session does and raises `SequenceError` elsewhere.
-/

namespace Sys2Proof

open Laws.RowMatch (rowMask rowMatch)

/-! ### Format Z: one word per command -/

/-- The row of a command without operands is compared under a mask of all ones. -/
theorem decode_eq_ok_iff_eq_rowMatch {w : Word} {i : Instr} (hi : i = withOperands i.mnemonic w)
    (hz : format i.mnemonic = .z) : decode w = .ok i ↔ w = rowMatch i.mnemonic := by
  have full : w &&& rowMask (format i.mnemonic) = w := by rw [hz]; exact BitVec.and_allOnes
  rw [decode_eq_ok_iff_row_of_no_operands hi, full]

/-! ### The bits a format requires to be zero (30_encoding.md R71), as fields of the word -/

theorem extractLsb'_eq_zero_iff (w : Word) (a n : Nat) :
    w.extractLsb' a n = 0 ↔ w.toNat / 2 ^ a % 2 ^ n = 0 := by
  rw [← BitVec.toNat_inj, BitVec.extractLsb'_toNat, Nat.shiftRight_eq_div_pow]
  rfl

theorem and_zeroMask_z (w : Word) : w &&& zeroMask .z = 0#32 ↔ w.extractLsb' 0 28 = 0 := by
  rw [extractLsb'_eq_zero_iff, pow_zero, Nat.div_one]
  exact and_maskZ w

theorem and_zeroMask_d (w : Word) : w &&& zeroMask .d = 0#32 ↔ w.extractLsb' 8 20 = 0 :=
  (and_maskD w).trans (extractLsb'_eq_zero_iff w 8 20).symm

theorem and_zeroMask_k (w : Word) :
    w &&& zeroMask .k = 0#32 ↔ w.extractLsb' 20 8 = 0 ∧ w.extractLsb' 0 8 = 0 := by
  rw [extractLsb'_eq_zero_iff, extractLsb'_eq_zero_iff, pow_zero, Nat.div_one]
  exact and_maskK w

theorem and_zeroMask_kd (w : Word) : w &&& zeroMask .kd = 0#32 ↔ w.extractLsb' 20 8 = 0 :=
  (and_maskKD w).trans (extractLsb'_eq_zero_iff w 20 8).symm

theorem opcode_injective {m n : Mnemonic} (h : opcode m = opcode n) : m = n :=
  Option.some.inj (by rw [← mnemonicOf_opcode m, h, mnemonicOf_opcode])

/-- An opcode has one format: a word with a bit set that this format requires to be zero is no command
(30_encoding.md R74). -/
theorem decode_ne_ok_of_zeroMask {w : Word} {m : Mnemonic} (hop : w.extractLsb' 28 4 = opcode m)
    (hz : w &&& zeroMask (format m) ≠ 0#32) (i : Instr) : decode w ≠ .ok i := by
  intro hd
  obtain ⟨n, hn, hzero, -⟩ := decode_eq_ok.1 hd
  obtain rfl : m = n := opcode_injective (hop.symm.trans hn)
  exact hz hzero

/-! ### The words of the datapath commands, as `SequenceError` records them -/

theorem encode_ctxAdvance (d : Byte) :
    encode (.ctxAdvance d) = 0x80000000#32 ||| d.setWidth 32 := by
  simp [encode, packWord, opcode, Instr.mnemonic]

theorem encode_tblPredict (k : Key) :
    encode (.tblPredict k) = 0xA0000000#32 ||| (k.setWidth 32 <<< 8) := by
  simp [encode, packWord, opcode, Instr.mnemonic]

theorem encode_tblUpdate (k : Key) (d : Byte) :
    encode (.tblUpdate k d) = 0xB0000000#32 ||| (k.setWidth 32 <<< 8) ||| d.setWidth 32 := by
  simp [encode, packWord, opcode, Instr.mnemonic]

namespace Machine

/-! ### A word that is no command -/

theorem writeCmd_of_decode_ne_ok {w : Word} (h : ∀ i, decode w ≠ .ok i) (s : State) :
    writeCmd w s = .next (raise .illegalCommand w s) := by
  unfold writeCmd
  split
  · next i hd => exact absurd hd (h i)
  · rfl

theorem writeCmd_of_zeroMask {w : Word} {m : Mnemonic} (hop : w.extractLsb' 28 4 = opcode m)
    (hz : w &&& zeroMask (format m) ≠ 0#32) (s : State) :
    writeCmd w s = .next (raise .illegalCommand w s) :=
  writeCmd_of_decode_ne_ok (decode_ne_ok_of_zeroMask hop hz) s

/-! ### The datapath functions, as arithmetic -/

/-- `CTX_MASK` keeps the number modulo 2^24, so what the shift carries out of 64 bits is lost with the
rest. -/
theorem advance_toNat (ctx : Ctx) (b : Byte) :
    (advance ctx b).toNat = (ctx.toNat * 2 ^ 8 + b.toNat) % 2 ^ 24 := by
  have mask : Config.ctxMask.toNat = 2 ^ 24 - 1 := rfl
  rw [advance, BitVec.toNat_and, mask, Nat.and_two_pow_sub_one_eq_mod, BitVec.toNat_add,
    BitVec.toNat_shiftLeft, Nat.shiftLeft_eq, BitVec.toNat_setWidth]
  omega

/-- The two younger bytes move up and the byte enters below them. -/
theorem advance_eq_append (ctx : Ctx) (b : Byte) :
    advance ctx b = (ctx.extractLsb' 0 16 ++ b).setWidth 64 := by
  apply BitVec.eq_of_toNat_eq
  have low : ((ctx.extractLsb' 0 16 ++ b).setWidth 64).toNat =
      ctx.toNat % 2 ^ 16 * 2 ^ 8 + b.toNat := by
    rw [BitVec.toNat_setWidth_of_le (by decide), BitVec.toNat_append, BitVec.extractLsb'_toNat,
      Nat.shiftRight_zero, ← Nat.shiftLeft_add_eq_or_of_lt b.isLt, Nat.shiftLeft_eq]
  rw [advance_toNat, low]
  omega

/-- A 64-bit product shifted right by 52 has 12 bits, so the key loses none of them. -/
theorem hashKey_toNat (ctx : Ctx) :
    (hashKey ctx).toNat = ctx.toNat * 0xff51afd7ed558ccd % 2 ^ 64 / 2 ^ 52 := by
  have mixer : Config.mixer.toNat = 0xff51afd7ed558ccd := rfl
  have shift : Config.shift = 52 := rfl
  rw [hashKey, BitVec.toNat_setWidth, BitVec.toNat_ushiftRight, BitVec.toNat_mul, mixer, shift,
    Nat.shiftRight_eq_div_pow]
  omega

/-! ### Commands that are legal in `IDLE` and `DONE` only (44_session_control.md R212) -/

theorem complete_whenFree_of_free {s : State} (h : Free s) (w : Word) (f : State → State) :
    complete w s (whenFree s f) = f s := by
  rw [whenFree_of_free h, complete_ok]

theorem complete_whenFree_of_inSession {s : State} (h : InSession s) (w : Word)
    (f : State → State) : complete w s (whenFree s f) = raise .sequenceError w s := by
  rw [whenFree_of_inSession h, complete_error]

theorem exec_ctxAdvance_of_free {s : State} (h : Free s) (d : Byte) :
    exec (.ctxAdvance d) s = .next { s with ctx := advance s.ctx d } :=
  congrArg Host.Outcome.next (complete_whenFree_of_free h ..)

theorem exec_ctxHash_of_free {s : State} (h : Free s) :
    exec .ctxHash s = .next { s with result := (hashKey s.ctx).setWidth 16 } :=
  congrArg Host.Outcome.next (complete_whenFree_of_free h ..)

theorem exec_tblPredict_of_free {s : State} (h : Free s) (k : Key) :
    exec (.tblPredict k) s = .next { s with result := (predict s k).setWidth 16 } :=
  congrArg Host.Outcome.next (complete_whenFree_of_free h ..)

theorem exec_tblUpdate_of_free {s : State} (h : Free s) (k : Key) (d : Byte) :
    exec (.tblUpdate k d) s = .next (update k d s) :=
  congrArg Host.Outcome.next (complete_whenFree_of_free h ..)

theorem exec_ctxAdvance_of_inSession {s : State} (h : InSession s) (d : Byte) :
    exec (.ctxAdvance d) s = .next (raise .sequenceError (encode (.ctxAdvance d)) s) :=
  congrArg Host.Outcome.next (complete_whenFree_of_inSession h ..)

theorem exec_ctxHash_of_inSession {s : State} (h : InSession s) :
    exec .ctxHash s = .next (raise .sequenceError (encode .ctxHash) s) :=
  congrArg Host.Outcome.next (complete_whenFree_of_inSession h ..)

theorem exec_tblPredict_of_inSession {s : State} (h : InSession s) (k : Key) :
    exec (.tblPredict k) s = .next (raise .sequenceError (encode (.tblPredict k)) s) :=
  congrArg Host.Outcome.next (complete_whenFree_of_inSession h ..)

theorem exec_tblUpdate_of_inSession {s : State} (h : InSession s) (k : Key) (d : Byte) :
    exec (.tblUpdate k d) s = .next (raise .sequenceError (encode (.tblUpdate k d)) s) :=
  congrArg Host.Outcome.next (complete_whenFree_of_inSession h ..)

/-! ### What the commands leave in `RESULT` and `TBL` -/

/-- A 12-bit key fits in `RESULT`. -/
theorem hashKey_setWidth_toNat (ctx : Ctx) :
    ((hashKey ctx).setWidth 16).toNat = ctx.toNat * 0xff51afd7ed558ccd % 2 ^ 64 / 2 ^ 52 := by
  rw [BitVec.toNat_setWidth_of_le (by decide), hashKey_toNat]

/-- `INIT` leaves every slot 0x00 and `RESULT` 0 (44_session_control.md R211), so reading a slot changes
nothing. -/
theorem exec_tblPredict_after_init {s t : State} (h : exec .init s = .next t) (k : Key) :
    exec (.tblPredict k) t = .next t := by
  obtain rfl : { freshSession s with result := 0, mode := .idle } = t := Host.Outcome.next.inj h
  rw [exec_tblPredict_of_free (.inl rfl), predict_of_tbl_zero rfl]
  rfl

/-! ### The statements -/

/-- Settles O21: both forms hold of every context, so the premise on it is not needed. -/
theorem advanceShiftsTheByteIn : Obligations.AdvanceShiftsTheByteIn :=
  ⟨fun ctx b _ => ⟨advance_toNat ctx b, advance_eq_append ctx b⟩, by decide⟩

/-- Settles O22: the product as a number, and the rule's four examples by evaluation. -/
theorem hashTakesTheTopBitsOfTheProduct : Obligations.HashTakesTheTopBitsOfTheProduct :=
  ⟨hashKey_toNat, by decide⟩

/-- Settles O23: read after write in `TBL`; the frame is the definition of `update`. -/
theorem updateOverwritesOneSlot : Obligations.UpdateOverwritesOneSlot := fun k b s =>
  ⟨rfl, fun j => predict_update k j b s⟩

/-- Settles O24: the row of format D, the two kinds of mode, and `w[27:8]`. -/
theorem ctxAdvanceRule : Obligations.CtxAdvanceRule := fun s =>
  ⟨fun _ d => decode_eq_ok_iff_row_of_operands (Instr.ctxAdvance.injEq d ..),
    fun d h => exec_ctxAdvance_of_free h d,
    fun d h => encode_ctxAdvance d ▸ exec_ctxAdvance_of_inSession h d,
    fun w hop hz => writeCmd_of_zeroMask (m := .ctxAdvance) hop (mt (and_zeroMask_d w).1 hz) s⟩

/-- Settles O25: the one word of format Z, the two kinds of mode, and `w[27:0]`. -/
theorem ctxHashRule : Obligations.CtxHashRule := fun s =>
  ⟨fun _ => decode_eq_ok_iff_eq_rowMatch (i := .ctxHash) rfl rfl,
    fun h => ⟨_, exec_ctxHash_of_free h, rfl, hashKey_setWidth_toNat s.ctx⟩,
    exec_ctxHash_of_inSession,
    fun w hop hz => writeCmd_of_zeroMask (m := .ctxHash) hop (mt (and_zeroMask_z w).1 hz) s⟩

/-- Settles O26: the row of format K, the two kinds of mode, `w[27:20]` and `w[7:0]`, and the table that
`INIT` leaves. -/
theorem tblPredictRule : Obligations.TblPredictRule := fun s =>
  ⟨fun _ k => decode_eq_ok_iff_row_of_operands (Instr.tblPredict.injEq k ..),
    fun k h => ⟨_, exec_tblPredict_of_free h k, rfl, rfl⟩,
    fun k h => encode_tblPredict k ▸ exec_tblPredict_of_inSession h k,
    fun w hop hz => writeCmd_of_zeroMask (m := .tblPredict) hop
      (mt (and_zeroMask_k w).1 (not_and_or.2 hz)) s,
    fun k _ h => exec_tblPredict_after_init h k⟩

/-- Settles O27: the row of format KD, the two kinds of mode with O23's read after write, and
`w[27:20]`. -/
theorem tblUpdateRule : Obligations.TblUpdateRule := fun s =>
  ⟨fun _ k d => decode_eq_ok_iff_row_of_operands (Instr.tblUpdate.injEq k d ..),
    fun k d h => ⟨_, exec_tblUpdate_of_free h k d, rfl, fun j => predict_update k j d s⟩,
    fun k d h => encode_tblUpdate k d ▸ exec_tblUpdate_of_inSession h k d,
    fun w hop hz => writeCmd_of_zeroMask (m := .tblUpdate) hop (mt (and_zeroMask_kd w).1 hz) s⟩

end Machine

end Sys2Proof
end

section
/-!
PROOFS. The control-flag codec (41_control_flags.md): the bits of a slot's weight, of a byte with the slot
set, and the one bit a slot's test reads.
-/

namespace Sys2Proof.Machine

/-! ### A slot's weight -/

/-- The weight of slot 0 is the top bit alone (00_scope.md R11). -/
theorem slotZero_eq_twoPow : 0x80#8 = BitVec.twoPow 8 7 := by decide

/-- The one bit of a slot's weight; a shift past slot 7 leaves none. -/
theorem slotWeight_getLsbD (i j : Nat) : (0x80#8 >>> i).getLsbD j = decide (i + j = 7) := by
  rw [BitVec.getLsbD_ushiftRight, slotZero_eq_twoPow, BitVec.getLsbD_twoPow]
  simp [eq_comm]

/-! ### `flag_set` (41_control_flags.md R130) -/

theorem flagSet_getLsbD (f : Byte) (i j : Nat) :
    (flagSet f i).getLsbD j = (f.getLsbD j || decide (i + j = 7)) := by
  rw [flagSet, BitVec.getLsbD_or, slotWeight_getLsbD]

/-! ### `flag_test` (41_control_flags.md R131) -/

/-- Masking with 1 keeps bit 0 and nothing else. -/
theorem and_one_beq_one (c : Byte) : (c &&& 1#8 == 1#8) = c.getLsbD 0 := by
  rw [BitVec.and_one_eq_setWidth_ofBool_getLsbD]
  cases c.getLsbD 0 <;> rfl

theorem flagTest_eq_getLsbD (c : Byte) (i : Nat) : flagTest c i = c.getLsbD (7 - i) := by
  rw [flagTest, and_one_beq_one, BitVec.getLsbD_ushiftRight, Nat.add_zero]

/-! ### The statement -/

/-- Settles O28: the bits of each function, where `i + j = 7` is `j = 7 - i` for a slot; the rules' six
examples by evaluation. -/
theorem flagSlotsAreBits : Obligations.FlagSlotsAreBits := by
  refine ⟨fun f i j hi _ => ?_, fun c i _ => flagTest_eq_getLsbD c i, by decide⟩
  have slot_iff : i + j = 7 ↔ j = 7 - i := by omega
  simp only [flagSet_getLsbD, slot_iff]

end Sys2Proof.Machine
end

section
/-!
PROOFS. `ENC_START` and `ENC_STEP` (42_encoder.md R150, R151, R153). The laws speak of a hit and of the
8th byte as the Booleans `encHit` and `encLast`; here they are the comparisons of the pseudocode.
-/

namespace Sys2Proof.Machine

/-! ### `ENC_START` in each kind of mode -/

theorem exec_encStart_of_free {s : State} (h : Free s) :
    exec .encStart s = .next { outAppend 0x00#8 (freshSession s) with mode := .enc } :=
  congrArg Host.Outcome.next (by rw [encStart_of_free h, complete_ok])

theorem exec_encStart_of_inSession {s : State} (h : InSession s) :
    exec .encStart s = .next (raise .sequenceError (encode .encStart) s) :=
  congrArg Host.Outcome.next (by rw [encStart_of_inSession h, complete_error])

/-- The first provisional control byte is the only byte of `OUT` that a fresh encoder session writes. -/
theorem outRead_outAppend_freshSession (b : Byte) (s : State) (p : Nat) :
    outRead (outAppend b (freshSession s)) p = if p = 0 then b else outRead s p := by
  rw [outRead_outAppend, outRead_freshSession]
  rfl

/-! ### The tests of the byte path -/

theorem encHit_iff {s : State} :
    encHit s = true ↔ predict s (hashKey s.ctx) = inRead s s.inPos.toNat := beq_iff_eq

theorem encHit_eq_false_iff {s : State} :
    encHit s = false ↔ ¬predict s (hashKey s.ctx) = inRead s s.inPos.toNat := beq_eq_false_iff_ne

theorem encLast_iff {s : State} : encLast s = true ↔ s.eBitpos = 7#3 := beq_iff_eq

/-- A miss needs a byte for its literal, the 8th byte one for the next control byte (42_encoder.md
R159). -/
theorem encNeed_eq (s : State) :
    encNeed (encHit s) (encLast s) =
      (if predict s (hashKey s.ctx) = inRead s s.inPos.toNat then 0 else 1) +
        (if s.eBitpos = 7#3 then 1 else 0) := by
  simp only [encNeed, encHit_iff, encLast_iff]

/-! ### Each path of `ENC_STEP` -/

theorem encStep_of_mode_ne {s : State} (h : s.mode ≠ .enc) : encStep s = .error .sequenceError := by
  rw [encStep_eq, if_pos h]

theorem encStep_of_exhausted {s : State} (hm : s.mode = .enc) (hp : s.inPos = s.inLen) :
    encStep s = .ok (stopSession .encEnd (outWrite s.eFlagpos.toNat s.eFlags s)) := by
  rw [encStep_eq, if_neg (not_not.2 hm), if_pos hp]

theorem encStep_of_full {s : State} (hm : s.mode = .enc) (hp : s.inPos ≠ s.inLen)
    (hfull : s.outCap < s.outLen.toNat + encNeed (encHit s) (encLast s)) :
    encStep s = .error .outOverflow := by
  rw [encStep_eq, if_neg (not_not.2 hm), if_neg hp, if_pos hfull]

theorem encStep_of_room {s : State} (hm : s.mode = .enc) (hp : s.inPos ≠ s.inLen)
    (hroom : s.outLen.toNat + encNeed (encHit s) (encLast s) ≤ s.outCap) :
    encStep s = .ok (encByte s) := by
  rw [encStep_eq, if_neg (not_not.2 hm), if_neg hp, if_neg (Nat.not_lt.2 hroom)]

theorem exec_encStep_of_ok {s t : State} (h : encStep s = .ok t) : exec .encStep s = .next t :=
  congrArg Host.Outcome.next (by rw [h, complete_ok])

theorem exec_encStep_of_error {s : State} {c : Cause} (h : encStep s = .error c) :
    exec .encStep s = .next (raise c (encode .encStep) s) :=
  congrArg Host.Outcome.next (by rw [h, complete_error])

/-! ### The statements -/

/-- Settles O32: the one word of format Z, the two kinds of mode, and `w[27:0]`. -/
theorem encStartRule : Obligations.EncStartRule := fun s =>
  ⟨fun _ => decode_eq_ok_iff_eq_rowMatch (i := .encStart) rfl rfl,
    fun h => ⟨_, exec_encStart_of_free h, rfl, predict_freshSession s,
      outRead_outAppend_freshSession 0x00#8 s⟩,
    exec_encStart_of_inSession,
    fun w hop hz => writeCmd_of_zeroMask (m := .encStart) hop (mt (and_zeroMask_z w).1 hz) s⟩

/-- Settles O33: the one word of format Z, the four paths, and `w[27:0]`. On the byte path the registers,
`TBL` and `OUT` are those of the laws of `encByte`. -/
theorem encStepRule : Obligations.EncStepRule := by
  intro s b k hit last need f n
  have need_eq : encNeed (encHit s) (encLast s) = need := encNeed_eq s
  refine ⟨fun _ => decode_eq_ok_iff_eq_rowMatch (i := .encStep) rfl rfl, ?wrongMode, ?finalise,
    ?full, ?takeByte,
    fun w hop hz => writeCmd_of_zeroMask (m := .encStep) hop (mt (and_zeroMask_z w).1 hz) s⟩
  case wrongMode => exact fun hm => exec_encStep_of_error (encStep_of_mode_ne hm)
  case finalise =>
    exact fun hm hp => ⟨_, exec_encStep_of_ok (encStep_of_exhausted hm hp), rfl,
      fun p => outRead_outWrite s.eFlagpos.toNat p s.eFlags s⟩
  case full =>
    exact fun hm hp hfull => exec_encStep_of_error (encStep_of_full hm hp (need_eq ▸ hfull))
  case takeByte =>
    intro hm hp hroom
    refine ⟨encByte s, exec_encStep_of_ok (encStep_of_room hm hp (need_eq ▸ hroom)), ?_,
      fun j => ?_, fun p => ?_⟩
    · simpa only [encHit_iff, encLast_iff] using encByte_eq s
    · simpa only [encHit_eq_false_iff] using predict_encByte s j
    · have bytes := outRead_encByte s p
      simp only [encHit_iff, encHit_eq_false_iff, encLast_iff] at bytes
      exact bytes

end Sys2Proof.Machine
end


section
/-!
PROOFS. `DEC_START` and `DEC_STEP` (43_decoder.md R180, R181, R183 to R185). A step first settles which
control byte, input position and slot it works on, then what it does with that slot: stop, or emit one
byte where `OUT` has room.
-/

namespace Sys2Proof.Machine

/-! ### `DEC_START` in each kind of mode -/

theorem exec_decStart_of_free {s : State} (h : Free s) :
    exec .decStart s = .next { freshSession s with mode := .dec } :=
  congrArg Host.Outcome.next (by rw [decStart_of_free h, complete_ok])

theorem exec_decStart_of_inSession {s : State} (h : InSession s) :
    exec .decStart s = .next (raise .sequenceError (encode .decStart) s) :=
  congrArg Host.Outcome.next (by rw [decStart_of_inSession h, complete_error])

/-! ### The slot a step of `DEC_STEP` works on -/

theorem decStep_of_mode_ne {s : State} (h : s.mode ≠ .dec) : decStep s = .error .sequenceError := by
  rw [decStep, if_pos h]

theorem decStep_of_noCtrl {s : State} (hm : s.mode = .dec) (h8 : s.dBitpos = 8#4)
    (hp : s.inPos = s.inLen) : decStep s = .ok (stopSession .noCtrl s) := by
  rw [decStep, if_neg (not_not.2 hm), if_pos h8, if_pos hp]

/-- Slot 0 of a control byte read now, or the next slot of the one held. -/
theorem decStep_of_ctrl {s : State} (hm : s.mode = .dec)
    (h : ¬(s.dBitpos = 8#4 ∧ s.inPos = s.inLen)) :
    decStep s =
      decSlot (if s.dBitpos = 8#4 then inRead s s.inPos.toNat else s.dCtrl)
        (if s.dBitpos = 8#4 then s.inPos + 1 else s.inPos)
        (if s.dBitpos = 8#4 then 0#4 else s.dBitpos) s := by
  rw [decStep, if_neg (not_not.2 hm)]
  by_cases h8 : s.dBitpos = 8#4
  · have hp : ¬s.inPos = s.inLen := fun hp => h ⟨h8, hp⟩
    simp only [if_pos h8, if_neg hp]
  · simp only [if_neg h8]

/-! ### What a step does with its slot -/

section
variable {c : Byte} {p : Word} {i : BitVec 4} {s : State}

theorem decSlot_of_noLit (hf : ¬flagTest c i.toNat = true) (hp : p = s.inLen) :
    decSlot c p i s =
      .ok (stopSession .noLit { s with dCtrl := c, dBitpos := i, inPos := p }) := by
  rw [decSlot, if_neg hf, if_pos hp]

/-- A set slot emits the prediction and uses no input byte; a clear one emits the next input byte, which
it takes as a literal. -/
theorem decSlot_eq_decEmit (h : ¬(¬flagTest c i.toNat = true ∧ p = s.inLen)) :
    decSlot c p i s =
      decEmit c (if flagTest c i.toNat = true then p else p + 1) i
        (if flagTest c i.toNat = true then predict s (hashKey s.ctx) else inRead s p.toNat)
        (!flagTest c i.toNat) s := by
  rw [decSlot]
  by_cases hf : flagTest c i.toNat = true
  · simp only [hf, if_true, Bool.not_true]
  · have hp : ¬p = s.inLen := fun hp => h ⟨hf, hp⟩
    simp only [Bool.eq_false_of_not_eq_true hf, Bool.false_eq_true, if_false, if_neg hp,
      Bool.not_false]

theorem decEmit_of_full {b : Byte} {lit : Bool} (h : s.outCap < s.outLen.toNat + 1) :
    decEmit c p i b lit s = .error .outOverflow := by
  rw [decEmit_eq, if_pos h]

theorem decEmit_of_room {b : Byte} {lit : Bool} (h : s.outLen.toNat + 1 ≤ s.outCap) :
    decEmit c p i b lit s = .ok (decProduce c p i b lit s) := by
  rw [decEmit_eq, if_neg (Nat.not_lt.2 h)]

theorem decProduce_outBuf {b : Byte} {lit : Bool} :
    (decProduce c p i b lit s).outBuf = Memory.set s.outBuf s.outLen.toNat b :=
  congrArg State.outBuf (decProduce_eq c p i b lit s)

end

/-! ### The end of the command -/

theorem exec_decStep_of_ok {s t : State} (h : decStep s = .ok t) : exec .decStep s = .next t :=
  congrArg Host.Outcome.next (by rw [h, complete_ok])

theorem exec_decStep_of_error {s : State} {e : Cause} (h : decStep s = .error e) :
    exec .decStep s = .next (raise e (encode .decStep) s) :=
  congrArg Host.Outcome.next (by rw [h, complete_error])

/-! ### The statements -/

/-- Settles O39: the one word of format Z, the two kinds of mode, and `w[27:0]`. -/
theorem decStartRule : Obligations.DecStartRule := fun s =>
  ⟨fun _ => decode_eq_ok_iff_eq_rowMatch (i := .decStart) rfl rfl,
    fun h => ⟨_, exec_decStart_of_free h, rfl, predict_freshSession s⟩,
    exec_decStart_of_inSession,
    fun w hop hz => writeCmd_of_zeroMask (m := .decStart) hop (mt (and_zeroMask_z w).1 hz) s⟩

/-- Settles O40: the one word of format Z, the wrong mode, the stop without a control byte, the three ways
a slot can go, and `w[27:0]`. On the producing path the registers, `TBL` and `OUT` are those of the laws
of `decProduce`, with a literal where the slot is clear. -/
theorem decStepRule : Obligations.DecStepRule := by
  intro s fetch c p i k hit b
  refine ⟨fun _ => decode_eq_ok_iff_eq_rowMatch (i := .decStep) rfl rfl, ?wrongMode, ?noCtrl,
    fun hm hctrl => ?slot,
    fun w hop hz => writeCmd_of_zeroMask (m := .decStep) hop (mt (and_zeroMask_z w).1 hz) s⟩
  case wrongMode => exact fun hm => exec_decStep_of_error (decStep_of_mode_ne hm)
  case noCtrl => exact fun hm h8 hp => exec_decStep_of_ok (decStep_of_noCtrl hm h8 hp)
  case slot =>
    have slot_step : decStep s = decSlot c p i s := decStep_of_ctrl hm hctrl
    have emit_step (h : ¬(¬hit ∧ p = s.inLen)) :
        decStep s = decEmit c (if hit then p else p + 1) i b (!flagTest c i.toNat) s :=
      slot_step.trans (decSlot_eq_decEmit h)
    refine ⟨?noLit, ?full, ?produce⟩
    case noLit =>
      exact fun hf hp => exec_decStep_of_ok (slot_step.trans (decSlot_of_noLit hf hp))
    case full =>
      exact fun h hfull => exec_decStep_of_error ((emit_step h).trans (decEmit_of_full hfull))
    case produce =>
      intro h hroom
      refine ⟨_, exec_decStep_of_ok ((emit_step h).trans (decEmit_of_room hroom)), ?_,
        fun j => ?_, fun q => outRead_decProduce ..⟩
      · rw [decProduce_outBuf]
        exact decProduce_eq ..
      · have lit_iff : (!flagTest c i.toNat) = true ↔ ¬hit := by simp [hit]
        simpa only [lit_iff] using predict_decProduce c _ i b (!flagTest c i.toNat) s j

end Sys2Proof.Machine
end

section
/-!
PROOFS. Session control (44_session_control.md): `NOP`, `INIT`, and the table of R212. A command that the
table refuses records `SequenceError` and stops; a legal one ends with no fault or with `OutOverflow`.
-/

namespace Sys2Proof.Machine

/-! ### `NOP` and `INIT` (44_session_control.md R210, R211) -/

theorem exec_nop (s : State) : exec .nop s = .next s := rfl

theorem exec_init (s : State) :
    exec .init s = .next { freshSession s with result := 0, mode := .idle } := rfl

/-- Settles O30: the one word of format Z, the effect in every mode, and `w[27:0]`. -/
theorem nopRule : Obligations.NopRule := fun s =>
  ⟨fun _ => decode_eq_ok_iff_eq_rowMatch (i := .nop) rfl rfl,
    exec_nop s,
    fun w hop hz => writeCmd_of_zeroMask (m := .nop) hop (mt (and_zeroMask_z w).1 hz) s⟩

/-- Settles O31: the one word of format Z, the effect in every mode, and `w[27:0]`. -/
theorem initRule : Obligations.InitRule := fun s =>
  ⟨fun _ => decode_eq_ok_iff_eq_rowMatch (i := .init) rfl rfl,
    ⟨_, exec_init s, rfl, predict_of_tbl_zero rfl⟩,
    fun w hop hz => writeCmd_of_zeroMask (m := .init) hop (mt (and_zeroMask_z w).1 hz) s⟩

/-! ### The whole sessions in each kind of mode -/

theorem exec_compress_of_free {s : State} (h : Free s) :
    exec .compress s = .next (finish (encode .compress) (encLoop (s.inLen.toNat + 1)
      { outAppend 0x00#8 (freshSession s) with mode := .enc })) := by
  rw [exec, execCompress, encStart_of_free h]
  rfl

theorem exec_compress_of_inSession {s : State} (h : InSession s) :
    exec .compress s = .next (raise .sequenceError (encode .compress) s) := by
  rw [exec, execCompress, encStart_of_inSession h]

theorem exec_decompress_of_free {s : State} (h : Free s) :
    exec .decompress s = .next (finish (encode .decompress) (decLoop (8 * s.inLen.toNat + 1)
      { freshSession s with mode := .dec })) := by
  rw [exec, execDecompress, decStart_of_free h]
  rfl

theorem exec_decompress_of_inSession {s : State} (h : InSession s) :
    exec .decompress s = .next (raise .sequenceError (encode .decompress) s) := by
  rw [exec, execDecompress, decStart_of_inSession h]

/-! ### Steps and loops: `ERR` stays, and a loop stops at no fault but `OutOverflow` -/

theorem encStep_err {s t : State} (h : encStep s = .ok t) : t.err = s.err := by
  rw [encStep_frame h]

theorem decStep_err {s t : State} (h : decStep s = .ok t) : t.err = s.err := by
  rw [decStep_frame h]

theorem encLoop_err (n : Nat) (s : State) : (encLoop n s).1.err = s.err :=
  encLoop_keeps (P := fun t => t.err = s.err) (fun _ _ ht h => (encStep_err h).trans ht) n rfl

theorem decLoop_err (n : Nat) (s : State) : (decLoop n s).1.err = s.err :=
  decLoop_keeps (P := fun t => t.err = s.err) (fun _ _ ht h => (decStep_err h).trans ht) n rfl

theorem encLoop_fault_eq {n : Nat} {s t : State} {c : Cause} (h : encLoop n s = (t, some c)) :
    c = .outOverflow := by
  obtain ⟨-, -, hc⟩ := encLoop_fault h
  exact hc

theorem decLoop_fault_eq {n : Nat} {s t : State} {c : Cause} (h : decLoop n s = (t, some c)) :
    c = .outOverflow := by
  obtain ⟨-, -, hc⟩ := decLoop_fault h
  exact hc

/-! ### How a legal command ends -/

/-- From `s` to `t` no fault but `OutOverflow` is raised: `ERR` stays, or `OutOverflow` is recorded on what
the command has done so far. -/
def AtMostOverflows (s t : State) : Prop :=
  t.err = s.err ∨ ∃ (w : Word) (u : State), u.err = s.err ∧ t = raise .outOverflow w u

theorem AtMostOverflows.no_sequenceError {s t : State} (h : AtMostOverflows s t)
    (hs : s.err = false) (ht : t.err = true) : t.ecode ≠ .sequence := by
  rcases h with hkept | ⟨w, u, hu, rfl⟩
  · rw [hkept, hs] at ht
    cases ht
  · rw [raise_of_not_err (hu.trans hs)]
    exact nofun

theorem atMostOverflows_complete {s : State} {r : Except Cause State} (w : Word)
    (hok : ∀ t, r = .ok t → t.err = s.err) (herror : ∀ c, r = .error c → c = .outOverflow) :
    AtMostOverflows s (complete w s r) := by
  cases r with
  | ok t => exact .inl (hok t rfl)
  | error c => exact .inr ⟨w, s, rfl, by rw [complete_error, herror c rfl]⟩

theorem atMostOverflows_finish {s : State} {p : State × Option Cause} (w : Word)
    (hkept : p.1.err = s.err) (hfault : ∀ u c, p = (u, some c) → c = .outOverflow) :
    AtMostOverflows s (finish w p) := by
  obtain ⟨u, fault⟩ := p
  cases fault with
  | none => exact .inl hkept
  | some c => exact .inr ⟨w, u, hkept, by rw [finish, hfault u c rfl]⟩

theorem exec_encStep_atMostOverflows {s : State} (h : s.mode = .enc) :
    ∃ t, exec .encStep s = .next t ∧ AtMostOverflows s t := by
  refine ⟨_, rfl, atMostOverflows_complete _ (fun _ => encStep_err) fun c hc => ?_⟩
  rcases encStep_error_cases hc with ⟨hne, -⟩ | ⟨-, -, -, rfl⟩
  · exact absurd h hne
  · rfl

theorem exec_decStep_atMostOverflows {s : State} (h : s.mode = .dec) :
    ∃ t, exec .decStep s = .next t ∧ AtMostOverflows s t := by
  refine ⟨_, rfl, atMostOverflows_complete _ (fun _ => decStep_err) fun c hc => ?_⟩
  rcases decStep_error_cases hc with ⟨hne, -⟩ | ⟨-, -, rfl⟩
  · exact absurd h hne
  · rfl

theorem exec_compress_atMostOverflows {s : State} (h : Free s) :
    ∃ t, exec .compress s = .next t ∧ AtMostOverflows s t :=
  ⟨_, exec_compress_of_free h, atMostOverflows_finish _ (encLoop_err ..) fun _ _ =>
    encLoop_fault_eq⟩

theorem exec_decompress_atMostOverflows {s : State} (h : Free s) :
    ∃ t, exec .decompress s = .next t ∧ AtMostOverflows s t :=
  ⟨_, exec_decompress_of_free h, atMostOverflows_finish _ (decLoop_err ..) fun _ _ =>
    decLoop_fault_eq⟩

/-! ### The table, row by row (44_session_control.md R212)

The rows that ask for `IDLE` or `DONE` hold the test `sessionFree`, word for word. -/

theorem exec_of_not_legalIn {i : Instr} {s : State} (h : legalIn i.mnemonic s.mode = false) :
    exec i s = .next (raise .sequenceError (encode i) s) := by
  have inSession (hs : sessionFree s = false) : InSession s := sessionFree_eq_false_iff.1 hs
  cases i with
  | nop => cases h
  | init => cases h
  | encStart => exact exec_encStart_of_inSession (inSession h)
  | decStart => exact exec_decStart_of_inSession (inSession h)
  | compress => exact exec_compress_of_inSession (inSession h)
  | decompress => exact exec_decompress_of_inSession (inSession h)
  | encStep => exact exec_encStep_of_error (encStep_of_mode_ne (beq_eq_false_iff_ne.1 h))
  | decStep => exact exec_decStep_of_error (decStep_of_mode_ne (beq_eq_false_iff_ne.1 h))
  | ctxAdvance d => exact exec_ctxAdvance_of_inSession (inSession h) d
  | ctxHash => exact exec_ctxHash_of_inSession (inSession h)
  | tblPredict k => exact exec_tblPredict_of_inSession (inSession h) k
  | tblUpdate k d => exact exec_tblUpdate_of_inSession (inSession h) k d

theorem exec_of_legalIn {i : Instr} {s : State} (h : legalIn i.mnemonic s.mode = true) :
    ∃ t, exec i s = .next t ∧ AtMostOverflows s t := by
  have free (hs : sessionFree s = true) : Free s := sessionFree_iff.1 hs
  cases i with
  | nop => exact ⟨s, exec_nop s, .inl rfl⟩
  | init => exact ⟨_, exec_init s, .inl rfl⟩
  | encStart => exact ⟨_, exec_encStart_of_free (free h), .inl rfl⟩
  | decStart => exact ⟨_, exec_decStart_of_free (free h), .inl rfl⟩
  | compress => exact exec_compress_atMostOverflows (free h)
  | decompress => exact exec_decompress_atMostOverflows (free h)
  | encStep => exact exec_encStep_atMostOverflows (beq_iff_eq.1 h)
  | decStep => exact exec_decStep_atMostOverflows (beq_iff_eq.1 h)
  | ctxAdvance d => exact ⟨_, exec_ctxAdvance_of_free (free h) d, .inl rfl⟩
  | ctxHash => exact ⟨_, exec_ctxHash_of_free (free h), .inl rfl⟩
  | tblPredict k => exact ⟨_, exec_tblPredict_of_free (free h) k, .inl rfl⟩
  | tblUpdate k d => exact ⟨_, exec_tblUpdate_of_free (free h) k d, .inl rfl⟩

/-- Settles O17: the rows that say SEQ, the rows that say ok, and the words that are no command. -/
theorem modeLegalityTable : Obligations.ModeLegalityTable := by
  refine fun s => ⟨fun _ h => exec_of_not_legalIn h, fun i h => ?legal,
    fun w h => writeCmd_of_decode_ne_ok h s⟩
  case legal =>
    obtain ⟨t, he, hend⟩ := exec_of_legalIn h
    exact ⟨t, he, hend.no_sequenceError⟩

end Sys2Proof.Machine
end

section
/-!
PROOFS. The exceptions (60_exceptions.md): which fault is tested first (R223), and that the fault record
blocks no command (R226). For the second, each rule of the model commutes with setting the record, and so
two runs that differ in the record raise the same faults at the same points.
-/

namespace Sys2Proof.Machine

/-! ### The order of the tests (60_exceptions.md R223) -/

theorem encStep_error_of_enc {s : State} {c : Cause} (hm : s.mode = .enc)
    (h : encStep s = .error c) : c = .outOverflow := by
  rcases encStep_error_cases h with ⟨hne, -⟩ | ⟨-, -, -, hc⟩
  · exact absurd hm hne
  · exact hc

theorem decStep_error_of_dec {s : State} {c : Cause} (hm : s.mode = .dec)
    (h : decStep s = .error c) : c = .outOverflow := by
  rcases decStep_error_cases h with ⟨hne, -⟩ | ⟨-, -, hc⟩
  · exact absurd hm hne
  · exact hc

/-- A rule that writes no `ERR` of its own and faults with `OutOverflow` alone: where `ERR` has become 1,
that fault was recorded on the state the command found. -/
theorem complete_eq_raise_outOverflow {s : State} {r : Except Cause State} (w : Word)
    (hs : s.err = false) (hok : ∀ u, r = .ok u → u.err = s.err)
    (herror : ∀ c, r = .error c → c = .outOverflow) (ht : (complete w s r).err = true) :
    complete w s r = raise .outOverflow w s := by
  cases r with
  | ok u =>
    have kept : (complete w s (.ok u)).err = false := (hok u rfl).trans hs
    rw [kept] at ht
    cases ht
  | error c => rw [complete_error, herror c rfl]

/-- `SequenceError` does not depend on the value written, so it is tested before `BadLength`. -/
theorem writeOffset_inLen_of_inSession {s : State} (h : InSession s) (v : Word) :
    writeOffset 0x08 v s = .next (raise .sequenceError v s) := by
  have seq : setInLen v s = .error .sequenceError := by
    rw [setInLen, if_pos (sessionFree_of_inSession h)]
  calc writeOffset 0x08 v s = .next (complete v s (setInLen v s)) := rfl
    _ = .next (raise .sequenceError v s) := by rw [seq, complete_error]

/-- Settles O18: words that are no command, the steps outside their sessions and in them, and the write
of `IN_LEN`. -/
theorem faultPriority : Obligations.FaultPriority := by
  refine fun s => ⟨fun _ h => writeCmd_of_decode_ne_ok h s,
    fun hm => exec_encStep_of_error (encStep_of_mode_ne hm),
    fun hm => exec_decStep_of_error (decStep_of_mode_ne hm), ?encStep, ?decStep,
    fun h v _ => writeOffset_inLen_of_inSession h v⟩
  case encStep =>
    rintro t hm hs ⟨⟩ ht
    exact complete_eq_raise_outOverflow _ hs (fun _ => encStep_err)
      (fun _ => encStep_error_of_enc hm) ht
  case decStep =>
    rintro t hm hs ⟨⟩ ht
    exact complete_eq_raise_outOverflow _ hs (fun _ => decStep_err)
      (fun _ => decStep_error_of_dec hm) ht

/-! ### Another fault record -/

/-- The state with the fault record `e`, `c`, `v` (`ERR`, `ECODE`, `FAULT_INFO`) in place of its own. -/
def State.withRecord (s : State) (e : Bool) (c : ECode) (v : Word) : State :=
  { s with err := e, ecode := c, faultInfo := v }

/-- Two states differ in the fault record only: `s` with the record of `t` is `t`. -/
def EqUpToRecord (s t : State) : Prop := s.withRecord t.err t.ecode t.faultInfo = t

section
variable {s : State} {e : Bool} {c : ECode} {v : Word}

theorem eqUpToRecord_withRecord : EqUpToRecord (s.withRecord e c v) s := rfl

/-- A fault writes the record only, whatever the record was. -/
theorem eqUpToRecord_raise (k : Cause) (w : Word) :
    EqUpToRecord (raise k w (s.withRecord e c v)) (raise k w s) := rfl

/-! ### The rules commute with setting the record -/

theorem whenFree_withRecord {f : State → State}
    (hf : f (s.withRecord e c v) = (f s).withRecord e c v) :
    whenFree (s.withRecord e c v) f = (whenFree s f).map (·.withRecord e c v) := by
  rcases free_or_inSession s with h | h
  · rw [whenFree_of_free h, whenFree_of_free (s := s.withRecord e c v) h, hf]
    rfl
  · rw [whenFree_of_inSession h, whenFree_of_inSession (s := s.withRecord e c v) h]
    rfl

theorem encStart_withRecord :
    encStart (s.withRecord e c v) = (encStart s).map (·.withRecord e c v) := by
  rcases free_or_inSession s with h | h
  · rw [encStart_of_free h, encStart_of_free (s := s.withRecord e c v) h]
    rfl
  · rw [encStart_of_inSession h, encStart_of_inSession (s := s.withRecord e c v) h]
    rfl

theorem decStart_withRecord :
    decStart (s.withRecord e c v) = (decStart s).map (·.withRecord e c v) := by
  rcases free_or_inSession s with h | h
  · rw [decStart_of_free h, decStart_of_free (s := s.withRecord e c v) h]
    rfl
  · rw [decStart_of_inSession h, decStart_of_inSession (s := s.withRecord e c v) h]
    rfl

theorem encRecord_withRecord (b : Byte) (hit : Bool) :
    encRecord b hit (s.withRecord e c v) = (encRecord b hit s).withRecord e c v := by
  cases hit <;> rfl

theorem encByte_withRecord : encByte (s.withRecord e c v) = (encByte s).withRecord e c v := by
  have hit : encHit (s.withRecord e c v) = encHit s := rfl
  have last : encLast (s.withRecord e c v) = encLast s := rfl
  have byte : inRead (s.withRecord e c v) (s.withRecord e c v).inPos.toNat =
      inRead s s.inPos.toNat := rfl
  rw [encByte, encByte, hit, last, byte, encRecord_withRecord]
  split <;> rfl

theorem encStep_withRecord :
    encStep (s.withRecord e c v) = (encStep s).map (·.withRecord e c v) := by
  by_cases hm : s.mode = .enc
  · by_cases hp : s.inPos = s.inLen
    · rw [encStep_of_exhausted hm hp, encStep_of_exhausted (s := s.withRecord e c v) hm hp]
      rfl
    · rcases Nat.lt_or_ge s.outCap (s.outLen.toNat + encNeed (encHit s) (encLast s)) with ho | ho
      · rw [encStep_of_full hm hp ho, encStep_of_full (s := s.withRecord e c v) hm hp ho]
        rfl
      · rw [encStep_of_room hm hp ho, encStep_of_room (s := s.withRecord e c v) hm hp ho,
          encByte_withRecord]
        rfl
  · rw [encStep_of_mode_ne hm, encStep_of_mode_ne (s := s.withRecord e c v) hm]
    rfl

theorem decEmit_withRecord (d : Byte) (p : Word) (i : BitVec 4) (b : Byte) (lit : Bool) :
    decEmit d p i b lit (s.withRecord e c v) =
      (decEmit d p i b lit s).map (·.withRecord e c v) := by
  rcases Nat.lt_or_ge s.outCap (s.outLen.toNat + 1) with ho | ho
  · rw [decEmit_of_full ho, decEmit_of_full (s := s.withRecord e c v) ho]
    rfl
  · rw [decEmit_of_room ho, decEmit_of_room (s := s.withRecord e c v) ho]
    cases lit <;> rfl

theorem decSlot_withRecord (d : Byte) (p : Word) (i : BitVec 4) :
    decSlot d p i (s.withRecord e c v) = (decSlot d p i s).map (·.withRecord e c v) := by
  by_cases h : ¬flagTest d i.toNat = true ∧ p = s.inLen
  · obtain ⟨hf, hp⟩ := h
    rw [decSlot_of_noLit hf hp, decSlot_of_noLit (s := s.withRecord e c v) hf hp]
    rfl
  · rw [decSlot_eq_decEmit h, decSlot_eq_decEmit (s := s.withRecord e c v) h, decEmit_withRecord]
    rfl

theorem decStep_withRecord :
    decStep (s.withRecord e c v) = (decStep s).map (·.withRecord e c v) := by
  by_cases hm : s.mode = .dec
  · by_cases h : s.dBitpos = 8#4 ∧ s.inPos = s.inLen
    · obtain ⟨h8, hp⟩ := h
      rw [decStep_of_noCtrl hm h8 hp, decStep_of_noCtrl (s := s.withRecord e c v) hm h8 hp]
      rfl
    · rw [decStep_of_ctrl hm h, decStep_of_ctrl (s := s.withRecord e c v) hm h, decSlot_withRecord]
      rfl
  · rw [decStep_of_mode_ne hm, decStep_of_mode_ne (s := s.withRecord e c v) hm]
    rfl

/-! ### The loops make the same passes and stop at the same fault -/

theorem encLoop_withRecord (n : Nat) :
    encLoop n (s.withRecord e c v) = ((encLoop n s).1.withRecord e c v, (encLoop n s).2) := by
  induction n generalizing s with
  | zero => rfl
  | succ n ih =>
    by_cases hm : s.mode = .enc
    · have same := encStep_withRecord (s := s) (e := e) (c := c) (v := v)
      cases hs : encStep s with
      | ok t => rw [hs] at same; rw [encLoop_succ_ok hs, encLoop_succ_ok same, ih]
      | error k =>
        rw [hs] at same
        rw [encLoop_succ_error hm hs, encLoop_succ_error (s := s.withRecord e c v) hm same]
    · rw [encLoop_of_mode_ne hm, encLoop_of_mode_ne (s := s.withRecord e c v) hm]

theorem decLoop_withRecord (n : Nat) :
    decLoop n (s.withRecord e c v) = ((decLoop n s).1.withRecord e c v, (decLoop n s).2) := by
  induction n generalizing s with
  | zero => rfl
  | succ n ih =>
    by_cases hm : s.mode = .dec
    · have same := decStep_withRecord (s := s) (e := e) (c := c) (v := v)
      cases hs : decStep s with
      | ok t => rw [hs] at same; rw [decLoop_succ_ok hs, decLoop_succ_ok same, ih]
      | error k =>
        rw [hs] at same
        rw [decLoop_succ_error hm hs, decLoop_succ_error (s := s.withRecord e c v) hm same]
    · rw [decLoop_of_mode_ne hm, decLoop_of_mode_ne (s := s.withRecord e c v) hm]

/-! ### How a command ends under two records -/

theorem eqUpToRecord_complete (w : Word) {r r' : Except Cause State}
    (h : r' = r.map (·.withRecord e c v)) :
    EqUpToRecord (complete w (s.withRecord e c v) r') (complete w s r) := by
  subst h
  cases r with
  | ok t => exact eqUpToRecord_withRecord
  | error k => exact eqUpToRecord_raise k w

theorem eqUpToRecord_finish (w : Word) {p p' : State × Option Cause}
    (h : p' = (p.1.withRecord e c v, p.2)) : EqUpToRecord (finish w p') (finish w p) := by
  subst h
  obtain ⟨t, fault⟩ := p
  cases fault with
  | none => exact eqUpToRecord_withRecord
  | some k => exact eqUpToRecord_raise k w

/-! ### The commands under two records -/

/-- The command answers a next state in `s` and in `s'`, and the two differ in the record only. -/
def AnswersAlike (i : Instr) (s s' : State) : Prop :=
  ∃ t t', exec i s = .next t ∧ exec i s' = .next t' ∧ EqUpToRecord t' t

theorem answersAlike_compress : AnswersAlike .compress s (s.withRecord e c v) := by
  rcases free_or_inSession s with h | h
  · exact ⟨_, _, exec_compress_of_free h, exec_compress_of_free (s := s.withRecord e c v) h,
      eqUpToRecord_finish _ (encLoop_withRecord
        (s := { outAppend 0x00#8 (freshSession s) with mode := .enc }) _)⟩
  · exact ⟨_, _, exec_compress_of_inSession h,
      exec_compress_of_inSession (s := s.withRecord e c v) h, eqUpToRecord_raise ..⟩

theorem answersAlike_decompress : AnswersAlike .decompress s (s.withRecord e c v) := by
  rcases free_or_inSession s with h | h
  · exact ⟨_, _, exec_decompress_of_free h, exec_decompress_of_free (s := s.withRecord e c v) h,
      eqUpToRecord_finish _ (decLoop_withRecord (s := { freshSession s with mode := .dec }) _)⟩
  · exact ⟨_, _, exec_decompress_of_inSession h,
      exec_decompress_of_inSession (s := s.withRecord e c v) h, eqUpToRecord_raise ..⟩

theorem answersAlike_withRecord (i : Instr) : AnswersAlike i s (s.withRecord e c v) := by
  cases i with
  | nop => exact ⟨_, _, exec_nop _, exec_nop _, eqUpToRecord_withRecord⟩
  | init => exact ⟨_, _, exec_init _, exec_init _, rfl⟩
  | encStart => exact ⟨_, _, rfl, rfl, eqUpToRecord_complete _ encStart_withRecord⟩
  | encStep => exact ⟨_, _, rfl, rfl, eqUpToRecord_complete _ encStep_withRecord⟩
  | decStart => exact ⟨_, _, rfl, rfl, eqUpToRecord_complete _ decStart_withRecord⟩
  | decStep => exact ⟨_, _, rfl, rfl, eqUpToRecord_complete _ decStep_withRecord⟩
  | compress => exact answersAlike_compress
  | decompress => exact answersAlike_decompress
  | ctxAdvance d => exact ⟨_, _, rfl, rfl, eqUpToRecord_complete _ (whenFree_withRecord rfl)⟩
  | ctxHash => exact ⟨_, _, rfl, rfl, eqUpToRecord_complete _ (whenFree_withRecord rfl)⟩
  | tblPredict k => exact ⟨_, _, rfl, rfl, eqUpToRecord_complete _ (whenFree_withRecord rfl)⟩
  | tblUpdate k d => exact ⟨_, _, rfl, rfl, eqUpToRecord_complete _ (whenFree_withRecord rfl)⟩

end

/-- Settles O20: the command in a state and in the same state with another record. -/
theorem faultRecordBlocksNoCommand : Obligations.FaultRecordBlocksNoCommand :=
  fun i _ _ _ _ => answersAlike_withRecord i

end Sys2Proof.Machine
end

section
/-!
PROOFS. The encoder of command words against their decoder (30_encoding.md R70 to R76): every word
is the sum of its fields, a format's required-zero bits leave the fields it uses and no other, and
so the word of an instruction is the only word that decodes to it. The assembler's lines and the
words that are no command.
-/

namespace Sys2Proof

open Machine
open Laws.RowMatch (rowMask rowMatch)

/-! ### The fields a format uses -/

/-- The `KEY` field of a word in the formats that have one, 0 in the others. -/
def keyField (f : Format) (w : Word) : Key :=
  match f with
  | .k | .kd => keyOperand w
  | .z | .d => 0#12

/-- The `DATA` field of a word in the formats that have one, 0 in the others. -/
def dataField (f : Format) (w : Word) : Byte :=
  match f with
  | .d | .kd => dataOperand w
  | .z | .k => 0#8

/-- A command built from a word's fields is encoded from the fields of its format. -/
theorem encode_withOperands (m : Mnemonic) (w : Word) :
    encode (withOperands m w) =
      packWord (opcode m) (keyField (format m) w) (dataField (format m) w) := by
  cases m <;> rfl

/-- The bits a format requires to be zero are all the bits outside `OP` and the fields it uses. -/
theorem packWord_fields_of_zeroMask {f : Format} {w : Word} (hz : w &&& zeroMask f = 0#32) :
    packWord (opField w) (keyField f w) (dataField f w) = w := by
  have zero : (0#12).toNat = 0 ∧ (0#8).toNat = 0 := ⟨rfl, rfl⟩
  apply BitVec.eq_of_toNat_eq
  cases f <;> simp only [packWord_toNat, keyField, dataField, opField_toNat, keyOperand_toNat,
    dataOperand_toNat, zero]
  case z => have := (and_maskZ w).1 hz; omega
  case d => have := (and_maskD w).1 hz; omega
  case k => obtain ⟨hkey, hdata⟩ := (and_maskK w).1 hz; omega
  case kd => have := (and_maskKD w).1 hz; omega

/-! ### Decode and encode -/

/-- The word of an instruction stands in the instruction's row of the opcode map. -/
theorem encode_and_rowMask (i : Instr) :
    encode i &&& rowMask (format i.mnemonic) = rowMatch i.mnemonic := by
  cases i with
  | nop => exact Laws.RowMatch.nop
  | init => exact Laws.RowMatch.init
  | encStart => exact Laws.RowMatch.encStart
  | encStep => exact Laws.RowMatch.encStep
  | decStart => exact Laws.RowMatch.decStart
  | decStep => exact Laws.RowMatch.decStep
  | compress => exact Laws.RowMatch.compress
  | decompress => exact Laws.RowMatch.decompress
  | ctxAdvance d => exact Laws.RowMatch.ctxAdvance d
  | ctxHash => exact Laws.RowMatch.ctxHash
  | tblPredict k => exact Laws.RowMatch.tblPredict k
  | tblUpdate k d => exact Laws.RowMatch.tblUpdate k d

/-- The operands of an instruction are the fields of its word. -/
theorem withOperands_encode (i : Instr) : withOperands i.mnemonic (encode i) = i := by
  cases i <;> simp [withOperands, encode, Instr.mnemonic]

theorem decode_encode (i : Instr) : decode (encode i) = .ok i :=
  decode_eq_ok_iff_row.2 ⟨encode_and_rowMask i, (withOperands_encode i).symm⟩

theorem encode_of_decode {w : Word} {i : Instr} (h : decode w = .ok i) : encode i = w := by
  obtain ⟨m, hop, hz, rfl⟩ := decode_eq_ok.1 h
  rw [encode_withOperands, ← hop, packWord_fields_of_zeroMask hz]

/-- Settles O2: the word of an instruction decodes to it, and it is the word that was decoded. -/
theorem decodeIsInverseOfEncode : Obligations.DecodeIsInverseOfEncode := fun i _ =>
  ⟨fun h => (encode_of_decode h).symm, fun h => h ▸ decode_encode i⟩

/-- Settles O3: the sum of the fields, with the unused ones 0. -/
theorem encodingIsTheFormula : Obligations.EncodingIsTheFormula :=
  ⟨rfl, rfl, rfl, rfl, rfl, rfl, rfl, rfl, packWord_toNat 0x8#4 0#12, rfl,
    fun k => packWord_toNat 0xA#4 k 0#8, packWord_toNat 0xB#4⟩

/-- Settles O5, by evaluating the decoder on the listed words. -/
theorem listedWordsDecode : Obligations.ListedWordsDecode := by
  unfold Obligations.ListedWordsDecode
  decide

/-! ### The assembler (30_encoding.md R76) -/

theorem byteInRange_toNat (d : Byte) : byteInRange d.toNat = true := decide_eq_true d.isLt

theorem keyInRange_toNat (k : Key) : keyInRange k.toNat = true := decide_eq_true k.isLt

theorem byteInRange_eq_false {d : Nat} (h : 255 < d) : byteInRange d = false :=
  decide_eq_false (Nat.not_lt.2 h)

theorem keyInRange_eq_false {k : Nat} (h : 4095 < k) : keyInRange k = false :=
  decide_eq_false (Nat.not_lt.2 h)

/-- The line that lists an instruction names it: its operands are in range. -/
theorem instr?_line (i : Instr) : i.line.instr? = some i := by
  cases i with
  | ctxAdvance d => simp [Instr.line, AsmLine.instr?, byteInRange_toNat]
  | tblPredict k => simp [Instr.line, AsmLine.instr?, keyInRange_toNat]
  | tblUpdate k d => simp [Instr.line, AsmLine.instr?, keyInRange_toNat, byteInRange_toNat]
  | _ => rfl

/-- How many operands a command takes: the fields of its format. -/
def operandCount : Format → Nat
  | .z => 0
  | .d | .k => 1
  | .kd => 2

theorem length_operands_line (i : Instr) :
    i.line.operands.length = operandCount (format i.mnemonic) := by
  cases i <;> rfl

/-- A line is accepted only with as many operands as its mnemonic takes. -/
theorem instr?_of_operandCount_ne {m : Mnemonic} {ops : List Nat}
    (h : ops.length ≠ operandCount (format m)) : AsmLine.instr? ⟨m, ops⟩ = none := by
  unfold AsmLine.instr?
  split
  case h_13 => rfl
  all_goals
    next hm hops =>
      subst hm hops
      exact absurd rfl h

theorem assemble_of_instr?_none {l : AsmLine} (h : l.instr? = none) : assemble l = none := by
  rw [assemble, h, Option.map_none]

/-- Settles O4: the line of each instruction, the operands out of range, and the operand counts. -/
theorem assemblerEncodesOrRefuses : Obligations.AssemblerEncodesOrRefuses := by
  refine ⟨fun i => ?line, fun d hd => ?byte, fun k hk => ?key, fun k d hkd => ?keyOrByte,
    fun i ops h => ?count⟩
  case line => rw [assemble, instr?_line, Option.map_some]
  all_goals apply assemble_of_instr?_none
  case byte => simp [AsmLine.instr?, byteInRange_eq_false hd]
  case key => simp [AsmLine.instr?, keyInRange_eq_false hk]
  case keyOrByte =>
    rcases hkd with hk | hd
    · simp [AsmLine.instr?, keyInRange_eq_false hk]
    · simp [AsmLine.instr?, byteInRange_eq_false hd]
  case count => exact instr?_of_operandCount_ne (length_operands_line i ▸ h)

/-! ### The words that are no command (30_encoding.md R74) -/

theorem toNat_ushiftRight_28 (w : Word) : (w >>> 28).toNat = (opField w).toNat := by
  rw [opField_toNat, BitVec.toNat_ushiftRight, Nat.shiftRight_eq_div_pow]

theorem decode_ne_ok_of_reservedOpcode {w : Word} (h : 12 ≤ (opField w).toNat) (i : Instr) :
    decode w ≠ .ok i :=
  decode_ne_ok_of_reserved (by rw [opField_toNat] at h; omega) i

/-- A word with a bit set that the format of its opcode requires to be zero is no command. -/
theorem decode_ne_ok_of_format {w : Word} {f : Format}
    (hop : (mnemonicOf (opField w)).map format = some f) (hz : w &&& zeroMask f ≠ 0#32)
    (i : Instr) : decode w ≠ .ok i := by
  obtain ⟨m, hm, rfl⟩ := Option.map_eq_some_iff.1 hop
  exact decode_ne_ok_of_zeroMask (opcode_of_mnemonicOf hm) hz i

theorem format_of_opcode_z : ∀ o : BitVec 4,
    o.toNat ∈ [0x0, 0x1, 0x2, 0x3, 0x4, 0x5, 0x6, 0x7, 0x9] →
      (mnemonicOf o).map format = some .z := by decide

theorem format_of_opcode_d : ∀ o : BitVec 4, o.toNat = 0x8 →
    (mnemonicOf o).map format = some .d := by decide

theorem format_of_opcode_k : ∀ o : BitVec 4, o.toNat = 0xA →
    (mnemonicOf o).map format = some .k := by decide

theorem format_of_opcode_kd : ∀ o : BitVec 4, o.toNat = 0xB →
    (mnemonicOf o).map format = some .kd := by decide

theorem reserved_of_opcode : ∀ o : BitVec 4, o.toNat ∈ [0xC, 0xD, 0xE, 0xF] → 12 ≤ o.toNat := by
  decide

/-- Settles O7: each kind of illegal word is no command, and what `raise` writes is the fault
record. -/
theorem illegalWordsRaiseIllegalCommand : Obligations.IllegalWordsRaiseIllegalCommand := by
  intro s w hw
  have illegal : ∀ i, decode w ≠ .ok i := by
    rw [toNat_ushiftRight_28] at hw
    rcases hw with hop | ⟨hop, hz⟩ | ⟨hop, hz⟩ | ⟨hop, hz⟩ | ⟨hop, hz⟩
    · exact decode_ne_ok_of_reservedOpcode (reserved_of_opcode _ hop)
    · exact decode_ne_ok_of_format (format_of_opcode_z _ hop) hz
    · exact decode_ne_ok_of_format (format_of_opcode_d _ hop) hz
    · exact decode_ne_ok_of_format (format_of_opcode_k _ hop) hz
    · exact decode_ne_ok_of_format (format_of_opcode_kd _ hop) hz
  refine ⟨_, writeCmd_of_decode_ne_ok illegal s, rfl, fun hs => ?_, fun hs => ?_⟩
  · simp [hs, Cause.ecode]
  · simp [hs]

end Sys2Proof
end

section
/-!
PROOFS. The host's accesses (10_state.md R34 to R41, 20_memory.md R53 to R57): which accesses of
the register window are admitted, what a read of it returns field by field, what a write of `CMD`
and of `IN_LEN` does, the bytes of `IN` and `OUT`, and the reset event. Each statement is one step
of the access that is pending.
-/

namespace Sys2Proof.Machine

/-! ### Which accesses of the window are admitted (20_memory.md R53) -/

theorem admitWindow_of_not_word {width : Width} (h : width ≠ .word) (off : Nat)
    (k : Host.Outcome State Fault Refusal) :
    admitWindow off width k = .refused .subWordAccess := by
  rw [admitWindow, if_pos h]

theorem admitWindow_of_misaligned {off : Nat} (h : off % 4 ≠ 0)
    (k : Host.Outcome State Fault Refusal) :
    admitWindow off .word k = .refused .misalignedAccess := by
  rw [admitWindow, if_neg (not_not.2 rfl), if_pos h]

section
variable {s : State} {off : Nat} {width : Width} {v : Word} {rest : List Access}

/-- An aligned 32-bit write runs the rule of its offset. -/
theorem step_write_word (h : s.pending = .write off .word v :: rest) (hb : s.busy = false)
    (h4 : off % 4 = 0) :
    step s = writeOffset off v { s with pending := rest, writes := s.writes + 1 } := by
  rw [step_write h hb, writeWindow, admitWindow_word h4]

/-- An aligned 32-bit read returns the word at its offset, which `busData` then holds. -/
theorem step_read_word (h : s.pending = .read off .word :: rest) (hb : s.busy = false)
    (h4 : off % 4 = 0) :
    step s = .next { s with pending := rest, busData := readOffset off s } := by
  rw [step_read h hb, readWindow, admitWindow_word h4]
  rfl

theorem step_write_cmd (h : s.pending = .write 0x00 .word v :: rest) (hb : s.busy = false) :
    step s = writeCmd v { s with pending := rest, writes := s.writes + 1 } :=
  step_write_word h hb rfl

theorem step_write_inLen (h : s.pending = .write 0x08 .word v :: rest) (hb : s.busy = false) :
    step s = .next (complete v { s with pending := rest, writes := s.writes + 1 }
      (setInLen v { s with pending := rest, writes := s.writes + 1 })) :=
  step_write_word h hb rfl

end

theorem readOffset_of_reserved {off : Nat} (h : 0x38 ≤ off) (s : State) : readOffset off s = 0 := by
  rw [readOffset, windowReg_eq_none h]

/-- `CMD` and the reserved offsets read 0 (10_state.md R38). -/
theorem readOffset_eq_zero {off : Nat} (h : off = 0x00 ∨ 0x38 ≤ off) (s : State) :
    readOffset off s = 0 := by
  rcases h with rfl | h
  · rfl
  · exact readOffset_of_reserved h s

/-- Settles O8: the two refusals, the write of an offset that is ignored, the two that are not,
and the reads that return 0. -/
theorem windowAccessRules : Obligations.WindowAccessRules := by
  intro s off width v rest hb u
  refine ⟨fun h => ⟨fun hw => ?narrowWrite, ?misalignedWrite, ?ignored, ?inLen, ?cmd⟩,
    fun h => ⟨fun hw => ?narrowRead, ?misalignedRead, ?zero⟩⟩
  case narrowWrite => rw [step_write h hb, writeWindow, admitWindow_of_not_word hw]
  case misalignedWrite =>
    rintro rfl h4
    rw [step_write h hb, writeWindow, admitWindow_of_misaligned h4]
  case ignored =>
    rintro rfl h4 hcmd hinLen
    rw [step_write_word h hb h4, writeOffset_ignored hcmd hinLen]
  case inLen =>
    rintro rfl rfl
    exact step_write_inLen h hb
  case cmd =>
    rintro rfl rfl
    exact step_write_cmd h hb
  case narrowRead => rw [step_read h hb, readWindow, admitWindow_of_not_word hw]
  case misalignedRead =>
    rintro rfl h4
    rw [step_read h hb, readWindow, admitWindow_of_misaligned h4]
  case zero =>
    rintro rfl h4 hoff
    rw [step_read_word h hb h4, readOffset_eq_zero hoff]

theorem writeCmd_of_decode {w : Word} {i : Instr} (h : decode w = .ok i) (s : State) :
    writeCmd w s = exec i s := by
  rw [writeCmd, h]

/-- Settles O6: the write to `CMD`, with a word that is a command and with one that is none. -/
theorem stepRunsTheDecodedCommand : Obligations.StepRunsTheDecodedCommand := fun _ _ _ h hb =>
  ⟨fun _ hd => (step_write_cmd h hb).trans (writeCmd_of_decode hd _),
    fun hd => (step_write_cmd h hb).trans (writeCmd_of_decode_ne_ok hd _)⟩

/-! ### The fields of the words read (10_state.md R35 to R37)

A field is found by passing over the fields below it, whose widths add up to its lowest bit. -/

section
open BitVec

theorem getLsbD_append_of_le {m n : Nat} {x : BitVec m} {y : BitVec n} {i : Nat} (h : n ≤ i) :
    (x ++ y).getLsbD i = x.getLsbD (i - n) := by
  rw [getLsbD_append, if_neg (Nat.not_lt.2 h)]

theorem getLsbD_append_ofBool {m : Nat} {x : BitVec m} {b : Bool} :
    (x ++ ofBool b).getLsbD 0 = b := by
  rw [getLsbD_append, if_pos Nat.one_pos]
  cases b <;> rfl

variable (s : State)

theorem statusWord_mode : (statusWord s).extractLsb' 0 2 = modeBits s.mode :=
  extractLsb'_append_eq_right

theorem statusWord_stop : (statusWord s).extractLsb' 2 2 = stopBits s.stop :=
  (extractLsb'_append_eq_of_le (by decide)).trans extractLsb'_append_eq_right

theorem statusWord_err : (statusWord s).getLsbD 4 = s.err :=
  (getLsbD_append_of_le (by decide)).trans <| (getLsbD_append_of_le (by decide)).trans
    getLsbD_append_ofBool

theorem statusWord_ecode : (statusWord s).extractLsb' 5 3 = ecodeBits s.ecode :=
  (extractLsb'_append_eq_of_le (by decide)).trans <|
    (extractLsb'_append_eq_of_le (by decide)).trans <|
      (extractLsb'_append_eq_of_le (by decide)).trans extractLsb'_append_eq_right

theorem statusWord_busy : (statusWord s).getLsbD 8 = s.busy :=
  (getLsbD_append_of_le (by decide)).trans <| (getLsbD_append_of_le (by decide)).trans <|
    (getLsbD_append_of_le (by decide)).trans <| (getLsbD_append_of_le (by decide)).trans
      getLsbD_append_ofBool

theorem statusWord_rest : (statusWord s).extractLsb' 9 23 = 0 :=
  (extractLsb'_append_eq_of_le (by decide)).trans <|
    (extractLsb'_append_eq_of_le (by decide)).trans <|
      (extractLsb'_append_eq_of_le (by decide)).trans <|
        (extractLsb'_append_eq_of_le (by decide)).trans extractLsb'_append_eq_left

theorem fsmWord_eFlags : (fsmWord s).extractLsb' 0 8 = s.eFlags := extractLsb'_append_eq_right

theorem fsmWord_eBitpos : (fsmWord s).extractLsb' 8 3 = s.eBitpos :=
  (extractLsb'_append_eq_of_le (by decide)).trans extractLsb'_append_eq_right

theorem fsmWord_gap : (fsmWord s).extractLsb' 11 5 = 0 :=
  (extractLsb'_append_eq_of_le (by decide)).trans <|
    (extractLsb'_append_eq_of_le (by decide)).trans extractLsb'_append_eq_right

theorem fsmWord_dCtrl : (fsmWord s).extractLsb' 16 8 = s.dCtrl :=
  (extractLsb'_append_eq_of_le (by decide)).trans <|
    (extractLsb'_append_eq_of_le (by decide)).trans <|
      (extractLsb'_append_eq_of_le (by decide)).trans extractLsb'_append_eq_right

theorem fsmWord_dBitpos : (fsmWord s).extractLsb' 24 4 = s.dBitpos :=
  (extractLsb'_append_eq_of_le (by decide)).trans <|
    (extractLsb'_append_eq_of_le (by decide)).trans <|
      (extractLsb'_append_eq_of_le (by decide)).trans <|
        (extractLsb'_append_eq_of_le (by decide)).trans extractLsb'_append_eq_right

theorem fsmWord_rest : (fsmWord s).extractLsb' 28 4 = 0 :=
  (extractLsb'_append_eq_of_le (by decide)).trans <|
    (extractLsb'_append_eq_of_le (by decide)).trans <|
      (extractLsb'_append_eq_of_le (by decide)).trans <|
        (extractLsb'_append_eq_of_le (by decide)).trans extractLsb'_append_eq_left

/-- `RESULT` stands in the low half of its word, zeros in the high half. -/
theorem extractLsb'_setWidth_low (x : BitVec 16) : (x.setWidth 32).extractLsb' 0 16 = x := by
  ext i hi
  simp [BitVec.getLsbD_eq_getElem hi, show i < 32 by omega]

theorem extractLsb'_setWidth_high (x : BitVec 16) : (x.setWidth 32).extractLsb' 16 16 = 0 := by
  ext i hi
  simp

end

/-- Settles O9: the word read is the one the offset names, and its fields are those of the
register. -/
theorem windowReadsReturnTheRegisters : Obligations.WindowReadsReturnTheRegisters := by
  intro s off rest h hb h4
  refine ⟨readOffset off s, step_read_word h hb h4, ?status, ?_, ?_, ?_, ?result, ?_, ?_, ?fsm, ?_,
    ?param, ?_, ?_, ?_⟩
  case status =>
    rintro rfl
    exact ⟨statusWord_mode s, statusWord_stop s, statusWord_err s, statusWord_ecode s,
      statusWord_busy s, statusWord_rest s⟩
  case result =>
    rintro rfl
    exact ⟨extractLsb'_setWidth_low s.result, extractLsb'_setWidth_high s.result⟩
  case fsm =>
    rintro rfl
    exact ⟨fsmWord_eFlags s, fsmWord_eBitpos s, fsmWord_gap s, fsmWord_dCtrl s, fsmWord_dBitpos s,
      fsmWord_rest s⟩
  case param =>
    rintro rfl
    rw [readOffset_param]
    decide
  all_goals
    rintro rfl
    rfl

/-- Settles O10, by evaluation. -/
theorem statusCodes : Obligations.StatusCodes := by
  unfold Obligations.StatusCodes
  decide

/-! ### `IN_LEN`, and the bytes of `IN` and `OUT` -/

section
variable {s : State} {v : Word}

theorem setInLen_of_inSession (h : InSession s) : setInLen v s = .error .sequenceError :=
  if_pos (sessionFree_of_inSession h)

theorem setInLen_of_tooLarge (h : Free s) (hv : s.inCap < v.toNat) :
    setInLen v s = .error .badLength := by
  rw [setInLen, sessionFree_of_free h, if_neg nofun, if_pos hv]

theorem setInLen_of_fits (h : Free s) (hv : v.toNat ≤ s.inCap) :
    setInLen v s = .ok { s with inLen := v } := by
  rw [setInLen, sessionFree_of_free h, if_neg nofun, if_neg (Nat.not_lt.2 hv)]

end

/-- Settles O11: the write of `IN_LEN` as `setInLen`, in a session and on either side of `IN_CAP`.
-/
theorem inLenWriteRule : Obligations.InLenWriteRule := by
  intro s v rest h hb u
  have written : step s = .next (complete v u (setInLen v u)) := step_write_inLen h hb
  refine ⟨fun hs => ?_, fun hs hv => ?_, fun hs hv => ?_⟩
  · rw [written, setInLen_of_inSession (s := u) hs, complete_error]
  · rw [written, setInLen_of_tooLarge (s := u) hs hv, complete_error]
  · rw [written, setInLen_of_fits (s := u) hs hv, complete_ok]

theorem hostOutByte_of_lt {s : State} {p : Nat} (h : p < s.outLen.toNat) :
    hostOutByte s p = outRead s p := if_pos h

/-- Settles O12: the read of `OUT` and the read of `IN` on either side of `IN_CAP`. -/
theorem hostByteReadsHaveNoSideEffect : Obligations.HostByteReadsHaveNoSideEffect :=
  fun _ _ _ hb =>
    ⟨fun h => ⟨_, step_readOut h hb, hostOutByte_of_lt⟩,
      fun h => ⟨fun hp => (step_readIn h hb).trans (if_pos hp),
        fun hp => (step_readIn h hb).trans (if_neg (Nat.not_lt.2 hp))⟩⟩

section
variable {s : State} {p : Nat} {bytes : List Byte}

theorem placeInput_of_inSession (hs : InSession s) (hne : bytes ≠ []) :
    placeInput p bytes s = .refused .inputWriteInSession := by
  rw [placeInput, if_neg hne, if_pos (sessionFree_of_inSession hs)]

theorem placeInput_of_tooLong (hs : Free s) (hl : s.inCap < p + bytes.length) (hne : bytes ≠ []) :
    placeInput p bytes s = .fault .noSuchInByte := by
  rw [placeInput, if_neg hne, sessionFree_of_free hs, if_neg nofun, if_pos hl]

/-- Placing no byte is no exception to the rule: it loads none. -/
theorem placeInput_of_fits (hs : Free s) (hl : p + bytes.length ≤ s.inCap) :
    placeInput p bytes s = .next { s with inBuf := Memory.load s.inBuf p bytes } := by
  by_cases hne : bytes = []
  · rw [placeInput, if_pos hne, hne]
    rfl
  · rw [placeInput, if_neg hne, sessionFree_of_free hs, if_neg nofun, if_neg (Nat.not_lt.2 hl)]

end

theorem inRead_placed_of_lt (s : State) {bytes : List Byte} {p : Nat} (h : p < bytes.length) :
    inRead { s with inBuf := Memory.load s.inBuf 0 bytes } p = bytes[p] := by
  rw [inRead_placed, if_pos ⟨Nat.zero_le p, by omega⟩]
  simp [h]

theorem inRead_placed_of_ge (s : State) {bytes : List Byte} {p : Nat} (h : bytes.length ≤ p) :
    inRead { s with inBuf := Memory.load s.inBuf 0 bytes } p = inRead s p := by
  rw [inRead_placed, if_neg (by omega)]

/-- Settles O13: the bytes placed outside a session, the refusal in one, and the bytes that do not
fit. -/
theorem loadInPlacesTheBytes : Obligations.LoadInPlacesTheBytes := by
  intro s bytes rest h hb
  rw [step_loadIn h hb]
  refine ⟨fun hs hl => ?placed, fun hs hne => placeInput_of_inSession hs hne,
    fun hs hl => placeInput_of_tooLong hs (by simpa using hl) ?nonempty⟩
  case placed =>
    refine ⟨_, placeInput_of_fits hs (by simpa using hl), rfl, fun p hp => ?_, fun p hp => ?_⟩
    · exact inRead_placed_of_lt s hp
    · exact inRead_placed_of_ge s hp
  case nonempty =>
    rintro rfl
    exact Nat.not_lt_zero _ hl

/-! ### No access, and the reset event -/

/-- Settles O15: an empty queue is the first case of `serve`. -/
theorem nothingHappensWithoutAnAccess : Obligations.NothingHappensWithoutAnAccess :=
  fun _ => step_idle

/-- Settles O52: the reset values of `AtReset`, and what `resetEvent` leaves outside the block. -/
theorem resetEventIsAStep : Obligations.ResetEventIsAStep := fun s rest h =>
  ⟨_, step_reset h, atReset_resetEvent { s with pending := rest }, rfl, rfl, rfl, rfl, rfl, rfl,
    rfl⟩

/-! ### The fault record (60_exceptions.md R222) -/

/-- Settles O16: the first fault is recorded, a later one leaves the state as it is. -/
theorem faultRecord : Obligations.FaultRecord := fun c v _ =>
  ⟨fun h => raise_of_not_err h c v, fun h => raise_of_err h c v⟩

end Sys2Proof.Machine
end

section
/-!
PROOFS. What the commands leave as it is: a step of a session writes the session's own state only,
so its loop and the whole command do, and no command writes what belongs to the host or the
platform. Then what a step can do, one case for each thing the host can have pending, and that a
fault record stays (60_exceptions.md R222).
-/

namespace Sys2Proof.Machine

/-! ### What a session writes -/

/-- `t` differs from `s` at most in what `ENC_STEP` writes. -/
def EncFrame (s t : State) : Prop :=
  t = { s with mode := t.mode, stop := t.stop, inPos := t.inPos, ctx := t.ctx, tbl := t.tbl,
               outBuf := t.outBuf, outLen := t.outLen, eFlags := t.eFlags, eBitpos := t.eBitpos,
               eFlagpos := t.eFlagpos }

/-- `t` differs from `s` at most in what `DEC_STEP` writes. -/
def DecFrame (s t : State) : Prop :=
  t = { s with mode := t.mode, stop := t.stop, inPos := t.inPos, ctx := t.ctx, tbl := t.tbl,
               outBuf := t.outBuf, outLen := t.outLen, dCtrl := t.dCtrl, dBitpos := t.dBitpos }

theorem EncFrame.refl (s : State) : EncFrame s s := rfl

theorem DecFrame.refl (s : State) : DecFrame s s := rfl

theorem EncFrame.trans {s t u : State} (h : EncFrame s t) (h' : EncFrame t u) : EncFrame s u := by
  unfold EncFrame at h h' ⊢
  rw [h', h]

theorem DecFrame.trans {s t u : State} (h : DecFrame s t) (h' : DecFrame t u) : DecFrame s u := by
  unfold DecFrame at h h' ⊢
  rw [h', h]

theorem encFrame_encLoop (n : Nat) (s : State) : EncFrame s (encLoop n s).1 :=
  encLoop_keeps (P := EncFrame s) (fun _ _ hs h => hs.trans (encStep_frame h)) n (EncFrame.refl s)

theorem decFrame_decLoop (n : Nat) (s : State) : DecFrame s (decLoop n s).1 :=
  decLoop_keeps (P := DecFrame s) (fun _ _ hs h => hs.trans (decStep_frame h)) n (DecFrame.refl s)

/-! ### What no command writes -/

/-- What belongs to the host, to the platform or to the fault record is in `t` as in `s`. -/
structure Untouched (s t : State) : Prop where
  inBuf : t.inBuf = s.inBuf
  inLen : t.inLen = s.inLen
  busy : t.busy = s.busy
  inCap : t.inCap = s.inCap
  outCap : t.outCap = s.outCap
  pending : t.pending = s.pending
  busData : t.busData = s.busData
  writes : t.writes = s.writes
  resets : t.resets = s.resets
  err : t.err = s.err
  ecode : t.ecode = s.ecode
  faultInfo : t.faultInfo = s.faultInfo

/-- A command that writes `RESULT` (10_state.md R24). -/
def WritesResult (i : Instr) : Prop := i = .ctxHash ∨ i = .init ∨ ∃ k, i = .tblPredict k

/-- `t` is what a command may make of `s` while it raises no fault. -/
def KeptBy (i : Instr) (s t : State) : Prop :=
  Untouched s t ∧ (¬WritesResult i → t.result = s.result)

theorem Untouched.refl (s : State) : Untouched s s := by constructor <;> rfl

theorem KeptBy.refl (i : Instr) (s : State) : KeptBy i s s := ⟨Untouched.refl s, fun _ => rfl⟩

theorem EncFrame.keptBy {s t : State} (h : EncFrame s t) (i : Instr) : KeptBy i s t := by
  rw [h]
  exact ⟨by constructor <;> rfl, fun _ => rfl⟩

theorem DecFrame.keptBy {s t : State} (h : DecFrame s t) (i : Instr) : KeptBy i s t := by
  rw [h]
  exact ⟨by constructor <;> rfl, fun _ => rfl⟩

/-- The command leaves a state that `KeptBy` allows, or it records a fault on one. -/
def Leaves (i : Instr) (s t : State) : Prop :=
  ∃ u, KeptBy i s u ∧ (t = u ∨ ∃ c w, t = raise c w u)

theorem leaves_complete {i : Instr} {s : State} {r : Except Cause State} (w : Word)
    (h : ∀ t, r = .ok t → KeptBy i s t) : Leaves i s (complete w s r) := by
  rcases complete_cases w s r with ⟨t, hr, ht⟩ | ⟨c, -, ht⟩
  · exact ⟨t, h t hr, .inl ht⟩
  · exact ⟨s, KeptBy.refl i s, .inr ⟨c, w, ht⟩⟩

theorem leaves_finish {i : Instr} {s : State} {p : State × Option Cause} (w : Word)
    (h : KeptBy i s p.1) : Leaves i s (finish w p) := by
  rcases finish_cases w p with ⟨-, hp⟩ | ⟨c, -, hp⟩
  · exact ⟨p.1, h, .inl hp⟩
  · exact ⟨p.1, h, .inr ⟨c, w, hp⟩⟩

theorem leaves_raise (i : Instr) (c : Cause) (w : Word) (s : State) : Leaves i s (raise c w s) :=
  ⟨s, KeptBy.refl i s, .inr ⟨c, w, rfl⟩⟩

theorem keptBy_of_whenFree {i : Instr} {s t : State} {f : State → State} (hf : KeptBy i s (f s))
    (h : whenFree s f = .ok t) : KeptBy i s t := by
  rcases free_or_inSession s with hs | hs
  · rw [whenFree_of_free hs] at h
    cases h
    exact hf
  · rw [whenFree_of_inSession hs] at h
    cases h

/-- The state the encoder's session starts in. -/
abbrev encStarted (s : State) : State := { outAppend 0x00#8 (freshSession s) with mode := .enc }

/-- The state the decoder's session starts in. -/
abbrev decStarted (s : State) : State := { freshSession s with mode := .dec }

theorem keptBy_encStarted (i : Instr) (s : State) : KeptBy i s (encStarted s) :=
  ⟨by constructor <;> rfl, fun _ => rfl⟩

theorem keptBy_decStarted (i : Instr) (s : State) : KeptBy i s (decStarted s) :=
  ⟨by constructor <;> rfl, fun _ => rfl⟩

theorem KeptBy.trans {i : Instr} {s t u : State} (h : KeptBy i s t) (h' : KeptBy i t u) :
    KeptBy i s u := by
  obtain ⟨hu, hr⟩ := h
  obtain ⟨hu', hr'⟩ := h'
  refine ⟨?_, fun hi => (hr' hi).trans (hr hi)⟩
  constructor
  · exact hu'.inBuf.trans hu.inBuf
  · exact hu'.inLen.trans hu.inLen
  · exact hu'.busy.trans hu.busy
  · exact hu'.inCap.trans hu.inCap
  · exact hu'.outCap.trans hu.outCap
  · exact hu'.pending.trans hu.pending
  · exact hu'.busData.trans hu.busData
  · exact hu'.writes.trans hu.writes
  · exact hu'.resets.trans hu.resets
  · exact hu'.err.trans hu.err
  · exact hu'.ecode.trans hu.ecode
  · exact hu'.faultInfo.trans hu.faultInfo

theorem leaves_compress (s : State) : ∃ t, exec .compress s = .next t ∧ Leaves .compress s t := by
  rcases free_or_inSession s with h | h
  · exact ⟨_, exec_compress_of_free h, leaves_finish _
      ((keptBy_encStarted _ s).trans ((encFrame_encLoop _ _).keptBy _))⟩
  · exact ⟨_, exec_compress_of_inSession h, leaves_raise ..⟩

theorem leaves_decompress (s : State) :
    ∃ t, exec .decompress s = .next t ∧ Leaves .decompress s t := by
  rcases free_or_inSession s with h | h
  · exact ⟨_, exec_decompress_of_free h, leaves_finish _
      ((keptBy_decStarted _ s).trans ((decFrame_decLoop _ _).keptBy _))⟩
  · exact ⟨_, exec_decompress_of_inSession h, leaves_raise ..⟩

theorem leaves_encStart (s : State) : ∃ t, exec .encStart s = .next t ∧ Leaves .encStart s t := by
  rcases free_or_inSession s with h | h
  · exact ⟨_, exec_encStart_of_free h, _, keptBy_encStarted _ s, .inl rfl⟩
  · exact ⟨_, exec_encStart_of_inSession h, leaves_raise ..⟩

theorem leaves_decStart (s : State) : ∃ t, exec .decStart s = .next t ∧ Leaves .decStart s t := by
  rcases free_or_inSession s with h | h
  · exact ⟨_, exec_decStart_of_free h, _, keptBy_decStarted _ s, .inl rfl⟩
  · exact ⟨_, exec_decStart_of_inSession h, leaves_raise ..⟩

/-- Every command answers a next state, and leaves in it what belongs to the host and the
platform. -/
theorem exec_leaves (i : Instr) (s : State) : ∃ t, exec i s = .next t ∧ Leaves i s t := by
  cases i with
  | nop => exact ⟨s, exec_nop s, s, KeptBy.refl _ s, .inl rfl⟩
  | init =>
    exact ⟨_, exec_init s, _,
      ⟨by constructor <;> rfl, fun h => absurd (.inr (.inl rfl)) h⟩, .inl rfl⟩
  | encStart => exact leaves_encStart s
  | encStep => exact ⟨_, rfl, leaves_complete _ fun _ h => EncFrame.keptBy (encStep_frame h) _⟩
  | decStart => exact leaves_decStart s
  | decStep => exact ⟨_, rfl, leaves_complete _ fun _ h => DecFrame.keptBy (decStep_frame h) _⟩
  | compress => exact leaves_compress s
  | decompress => exact leaves_decompress s
  | ctxAdvance d =>
    exact ⟨_, rfl, leaves_complete _ fun _ =>
      keptBy_of_whenFree ⟨by constructor <;> rfl, fun _ => rfl⟩⟩
  | ctxHash =>
    exact ⟨_, rfl, leaves_complete _ fun _ =>
      keptBy_of_whenFree ⟨by constructor <;> rfl, fun h => absurd (.inl rfl) h⟩⟩
  | tblPredict k =>
    exact ⟨_, rfl, leaves_complete _ fun _ =>
      keptBy_of_whenFree ⟨by constructor <;> rfl, fun h => absurd (.inr (.inr ⟨k, rfl⟩)) h⟩⟩
  | tblUpdate k d =>
    exact ⟨_, rfl, leaves_complete _ fun _ =>
      keptBy_of_whenFree ⟨by constructor <;> rfl, fun _ => rfl⟩⟩

theorem leaves_of_exec {i : Instr} {s t : State} (h : exec i s = .next t) : Leaves i s t := by
  obtain ⟨u, hu, hl⟩ := exec_leaves i s
  rw [hu] at h
  cases h
  exact hl

/-- Settles O51: the fault a command may record touches none of these fields either. -/
theorem whatNoCommandWrites : Obligations.WhatNoCommandWrites := by
  intro i s t h
  obtain ⟨u, ⟨hu, hr⟩, ht⟩ := leaves_of_exec h
  have hresult (hash : i ≠ .ctxHash) (init : i ≠ .init) (predict : ∀ k, i ≠ .tblPredict k) :
      u.result = s.result := by
    refine hr ?_
    rintro (rfl | rfl | ⟨k, rfl⟩)
    · exact hash rfl
    · exact init rfl
    · exact predict k rfl
  rcases ht with rfl | ⟨c, w, rfl⟩
  all_goals
    exact ⟨hu.inBuf, hu.inLen, hu.busy, hu.inCap, hu.outCap, hu.pending, hu.busData, hu.writes,
      hu.resets, hresult⟩

/-! ### What a step can do

One case for each thing the host can have pending; the accesses that change nothing of the block
are one case. -/

/-- The ways a step can go from `s` to `t`. -/
inductive StepKind (s t : State) : Prop where
  | waits (ht : t = s)
  | resets (rest : List Access) (h : s.pending = .reset :: rest)
      (ht : t = resetEvent { s with pending := rest })
  | command (w : Word) (i : Instr) (rest : List Access)
      (h : s.pending = .write 0x00 .word w :: rest) (hd : decode w = .ok i)
      (ht : exec i { s with pending := rest, writes := s.writes + 1 } = .next t)
  | faults (c : Cause) (v : Word) (rest : List Access)
      (ht : t = raise c v { s with pending := rest, writes := s.writes + 1 })
  | setsInLen (v : Word) (rest : List Access) (hs : Free s) (hv : v.toNat ≤ s.inCap)
      (ht : t = { s with pending := rest, writes := s.writes + 1, inLen := v })
  | loads (p : Nat) (bytes : List Byte) (rest : List Access) (hs : Free s)
      (hl : p + bytes.length ≤ s.inCap)
      (ht : t = { s with pending := rest, writes := s.writes + 1,
                         inBuf := Memory.load s.inBuf p bytes })
  | outside (rest : List Access) (n : Nat) (x : Word)
      (ht : t = { s with pending := rest, writes := n, busData := x })

theorem step_of_busy {s : State} {a : Access} {rest : List Access} (h : s.pending = a :: rest)
    (ha : a ≠ .reset) (hb : s.busy = true) : step s = .refused .accessWhileBusy := by
  rw [step_pending h]
  cases a with
  | reset => exact absurd rfl ha
  | _ => exact if_pos hb

section
variable {s t : State} {rest : List Access}

theorem admitWindow_next {off : Nat} {width : Width} {k : Host.Outcome State Fault Refusal}
    (h : admitWindow off width k = .next t) : width = .word ∧ off % 4 = 0 ∧ k = .next t := by
  unfold admitWindow at h
  split_ifs at h with hw h4
  exact ⟨not_not.1 hw, not_not.1 h4, h⟩

theorem stepKind_setInLen {v : Word} (ht : t = complete v
      { s with pending := rest, writes := s.writes + 1 }
      (setInLen v { s with pending := rest, writes := s.writes + 1 })) : StepKind s t := by
  rcases setInLen_cases v { s with pending := rest, writes := s.writes + 1 } with
    ⟨-, he⟩ | ⟨-, -, he⟩ | ⟨hs, hv, he⟩
  · rw [he, complete_error] at ht
    exact .faults _ v rest ht
  · rw [he, complete_error] at ht
    exact .faults _ v rest ht
  · rw [he, complete_ok] at ht
    exact .setsInLen v rest hs hv ht

theorem stepKind_write {off : Nat} {width : Width} {v : Word}
    (hp : s.pending = .write off width v :: rest) (hb : s.busy = false) (h : step s = .next t) :
    StepKind s t := by
  obtain ⟨rfl, h4, -⟩ := admitWindow_next ((step_write hp hb).symm.trans h)
  by_cases h0 : off = 0x00
  · subst h0
    rw [step_write_cmd hp hb] at h
    by_cases hd : ∃ i, decode v = .ok i
    · obtain ⟨i, hi⟩ := hd
      exact .command v i rest hp hi (writeCmd_of_decode hi _ ▸ h)
    · rw [writeCmd_of_decode_ne_ok (not_exists.1 hd)] at h
      cases h
      exact .faults _ v rest rfl
  · by_cases h8 : off = 0x08
    · subst h8
      rw [step_write_inLen hp hb] at h
      cases h
      exact stepKind_setInLen rfl
    · rw [step_write_word hp hb h4, writeOffset_ignored h0 h8] at h
      cases h
      exact .outside rest (s.writes + 1) s.busData rfl

theorem stepKind_placeInput {p : Nat} {bytes : List Byte}
    (h : placeInput p bytes { s with pending := rest, writes := s.writes + 1 } = .next t) :
    StepKind s t := by
  unfold placeInput at h
  split_ifs at h with h0 hs hl
  · cases h
    exact .outside rest (s.writes + 1) s.busData rfl
  · cases h
    have free : Free s := sessionFree_iff.1 (Bool.eq_true_of_not_eq_false hs)
    exact .loads p bytes rest free (Nat.le_of_not_lt hl) rfl

/-- Every step goes in one of these ways. -/
theorem stepKind_of_step (h : step s = .next t) : StepKind s t := by
  cases hp : s.pending with
  | nil =>
    rw [step_idle hp] at h
    cases h
    exact .waits rfl
  | cons a rest =>
    by_cases ha : a = .reset
    · subst ha
      rw [step_reset hp] at h
      cases h
      exact .resets rest hp rfl
    · have hb : s.busy = false := by
        by_contra hb
        rw [step_of_busy hp ha (Bool.eq_true_of_not_eq_false hb)] at h
        cases h
      cases a with
      | reset => exact absurd rfl ha
      | write off width v => exact stepKind_write hp hb h
      | read off width =>
        obtain ⟨-, -, hk⟩ := admitWindow_next ((step_read hp hb).symm.trans h)
        cases hk
        exact .outside rest s.writes _ rfl
      | loadIn bytes => exact stepKind_placeInput ((step_loadIn hp hb).symm.trans h)
      | writeIn p b => exact stepKind_placeInput ((step_writeIn hp hb).symm.trans h)
      | readIn p =>
        rw [step_readIn hp hb] at h
        split_ifs at h
        cases h
        exact .outside rest s.writes _ rfl
      | readOut p =>
        rw [step_readOut hp hb] at h
        cases h
        exact .outside rest s.writes _ rfl

end

/-! ### The fault record stays (60_exceptions.md R222) -/

/-- With `ERR` = 1 the record of `t` is that of `s`. -/
def RecordStays (s t : State) : Prop :=
  s.err = true → t.err = true ∧ t.ecode = s.ecode ∧ t.faultInfo = s.faultInfo

theorem recordStays_raise (c : Cause) (w : Word) (s : State) : RecordStays s (raise c w s) :=
  fun h => by rw [raise_of_err h]; exact ⟨h, rfl, rfl⟩

theorem recordStays_exec {i : Instr} {s t : State} (h : exec i s = .next t) :
    RecordStays s t := by
  obtain ⟨u, ⟨hu, -⟩, rfl | ⟨c, w, rfl⟩⟩ := leaves_of_exec h
  · exact fun hs => ⟨hu.err.trans hs, hu.ecode, hu.faultInfo⟩
  · intro hs
    obtain ⟨herr, hcode, hinfo⟩ := recordStays_raise c w u (hu.err.trans hs)
    exact ⟨herr, hcode.trans hu.ecode, hinfo.trans hu.faultInfo⟩

/-- Settles O19: of the steps only a reset writes a record that stands. -/
theorem faultRecordIsSticky : Obligations.FaultRecordIsSticky := by
  intro s t hs hreset h
  cases stepKind_of_step h with
  | resets rest hp _ => exact absurd hp (hreset rest)
  | command w i rest _ _ ht =>
    obtain ⟨herr, hcode, hinfo⟩ := recordStays_exec ht hs
    exact ⟨herr, hcode, hinfo⟩
  | faults c v rest ht => exact ht ▸ recordStays_raise c v _ hs
  | waits ht | setsInLen v rest _ _ ht | loads p bytes rest _ _ ht | outside rest n x ht =>
    subst ht
    exact ⟨hs, rfl, rfl⟩

end Sys2Proof.Machine
end

section
/-!
PROOFS. How the loops of `COMPRESS` and `DECOMPRESS` end (42_encoder.md R157, 43_decoder.md R186):
their passes are steps of the session, and they stop where the session has ended or where the next
step finds `OUT` full.
-/

namespace Sys2Proof.Machine

theorem execAll_cons_of_next {i : Instr} {s t : State} (h : exec i s = .next t)
    (is : List Instr) : execAll (i :: is) s = execAll is t := by
  rw [execAll, h]

/-! ### The loop of `COMPRESS` -/

/-- The encoder's session has ended, the input read to its end. -/
structure EncEnded (t : State) : Prop where
  mode : t.mode = .done
  stop : t.stop = .encEnd
  inPos : t.inPos = t.inLen

/-- A position register that has not reached the length steps up by one. -/
theorem toNat_succ_of_ne {p n : Word} (hle : p.toNat ≤ n.toNat) (hne : p ≠ n) :
    p.toNat < n.toNat ∧ (p + 1).toNat = p.toNat + 1 := by
  have hlt : p.toNat < n.toNat := lt_of_le_of_ne hle fun e => hne (BitVec.eq_of_toNat_eq e)
  exact ⟨hlt, toNat_succ_of_room n.isLt hlt⟩

theorem encByte_inPos (s : State) : (encByte s).inPos = s.inPos + 1 := by rw [encByte_eq]

theorem encByte_inLen (s : State) : (encByte s).inLen = s.inLen := by rw [encByte_eq]

theorem encByte_mode (s : State) : (encByte s).mode = s.mode := by rw [encByte_eq]

/-- The loop makes a step for each input byte left and one more, or stops before a step that
overflows. -/
theorem encLoop_as_steps {n : Nat} {s : State} (hm : s.mode = .enc)
    (hp : s.inPos.toNat ≤ s.inLen.toNat) (hn : s.inLen.toNat - s.inPos.toNat < n) :
    ∃ k t, execAll (List.replicate k .encStep) s = .next t ∧
      (k = s.inLen.toNat - s.inPos.toNat + 1 ∧ EncEnded t ∧ encLoop n s = (t, none) ∨
        k ≤ s.inLen.toNat - s.inPos.toNat ∧ t.mode = .enc ∧ encStep t = .error .outOverflow ∧
          encLoop n s = (t, some .outOverflow)) := by
  induction n generalizing s with
  | zero => omega
  | succ n ih =>
    cases hs : encStep s with
    | error c =>
      obtain rfl := encStep_error_of_enc hm hs
      exact ⟨0, s, rfl, .inr ⟨Nat.zero_le _, hm, hs, encLoop_succ_error hm hs n⟩⟩
    | ok u =>
      rw [encLoop_succ_ok hs]
      have first (k : Nat) : execAll (List.replicate (k + 1) .encStep) s =
          execAll (List.replicate k .encStep) u :=
        execAll_cons_of_next (exec_encStep_of_ok hs) _
      obtain ⟨-, ⟨heq, rfl⟩ | ⟨hne, -, rfl⟩⟩ := encStep_ok_cases hs
      · exact ⟨1, _, first 0, .inl ⟨by rw [heq]; omega, ⟨rfl, rfl, heq⟩,
          encLoop_of_mode_ne (by simp) n⟩⟩
      · obtain ⟨hlt, hsucc⟩ := toNat_succ_of_ne hp hne
        have left : (encByte s).inLen.toNat - (encByte s).inPos.toNat + 1 =
            s.inLen.toNat - s.inPos.toNat := by
          rw [encByte_inLen, encByte_inPos, hsucc]; omega
        obtain ⟨k, t, hk, hend⟩ := ih (s := encByte s) ((encByte_mode s).trans hm)
          (by rw [encByte_inLen, encByte_inPos, hsucc]; exact hlt) (by omega)
        refine ⟨k + 1, t, (first k).trans hk, ?_⟩
        rcases hend with ⟨hc, hend⟩ | ⟨hc, hend⟩
        · exact .inl ⟨by omega, hend⟩
        · exact .inr ⟨by omega, hend⟩

/-- What the loop of `COMPRESS` leaves, before a fault is recorded on it. -/
abbrev encFinal (s : State) : State := (encLoop (s.inLen.toNat + 1) (encStarted s)).1

theorem encFrame_encFinal (s : State) : EncFrame (encStarted s) (encFinal s) := encFrame_encLoop ..

theorem untouched_encFinal (s : State) : Untouched s (encFinal s) :=
  ((keptBy_encStarted .compress s).trans ((encFrame_encFinal s).keptBy _)).1

/-- `COMPRESS` ends its session, or records `OutOverflow` where the next step would. -/
def CompressEnds (s t : State) : Prop :=
  EncEnded t ∧ exec .compress s = .next t ∨
    t.mode = .enc ∧ encStep t = .error .outOverflow ∧
      exec .compress s = .next (raise .outOverflow 0x60000000#32 t)

theorem compress_as_steps {s : State} (h : Free s) :
    ∃ k, execAll (.encStart :: List.replicate k .encStep) s = .next (encFinal s) ∧
      k ≤ s.inLen.toNat + 1 ∧ CompressEnds s (encFinal s) ∧
      ((encFinal s).mode = .done → k = s.inLen.toNat + 1) := by
  have first (k : Nat) : execAll (.encStart :: List.replicate k .encStep) s =
      execAll (List.replicate k .encStep) (encStarted s) :=
    execAll_cons_of_next (exec_encStart_of_free h) _
  have hpos : (encStarted s).inPos.toNat = 0 := rfl
  obtain ⟨k, t, hk, hend⟩ := encLoop_as_steps (n := s.inLen.toNat + 1) (s := encStarted s) rfl
    (Nat.zero_le _) (Nat.lt_succ_self _)
  rw [hpos] at hend
  rcases hend with ⟨rfl, ht, hl⟩ | ⟨hle, hm, hs, hl⟩
  all_goals
    have final : encFinal s = t := congrArg Prod.fst hl
    refine ⟨_, (first _).trans (final ▸ hk), ?_⟩
    rw [final]
  · exact ⟨Nat.le_refl _, .inl ⟨ht, by rw [exec_compress_of_free h, hl]; rfl⟩, fun _ => rfl⟩
  · exact ⟨Nat.le_succ_of_le hle, .inr ⟨hm, hs, by rw [exec_compress_of_free h, hl]; rfl⟩,
      fun hd => by rw [hm] at hd; cases hd⟩

theorem compress_ends {s : State} (h : Free s) : CompressEnds s (encFinal s) := by
  obtain ⟨-, -, -, hend, -⟩ := compress_as_steps h
  exact hend

/-- Settles O34: the passes of the loop are the steps, and the record is the one `s` had. -/
theorem compressIsItsSteps : Obligations.CompressIsItsSteps := by
  intro s h
  obtain ⟨k, hk, hle, hend, hcount⟩ := compress_as_steps h
  have kept := untouched_encFinal s
  refine ⟨k, encFinal s, hle, hk, kept.err, kept.ecode, kept.faultInfo, ?_⟩
  rcases hend with ⟨ht, he⟩ | ⟨hm, hs, he⟩
  · exact .inl ⟨hcount ht.mode, ht.mode, ht.stop, he⟩
  · exact .inr ⟨hm, exec_encStep_of_error hs, he⟩

/-! ### The loop of `DECOMPRESS` -/

/-- The decoder's session has ended by one of its two stops, the input read to its end. -/
structure DecEnded (t : State) : Prop where
  mode : t.mode = .done
  stop : t.stop = .noCtrl ∨ t.stop = .noLit
  inPos : t.inPos = t.inLen

/-- A step of the decoder that leaves `DEC` ends the session by a stop. -/
theorem decEnded_of_decStep {s t : State} (h : decStep s = .ok t) (ht : t.mode ≠ .dec) :
    DecEnded t := by
  obtain ⟨hm, ⟨-, hp, rfl⟩ | ⟨c, p, i, -, hs⟩⟩ := decStep_ok_cases h
  · exact ⟨rfl, .inl rfl, hp⟩
  · rcases decSlot_ok_cases hs with ⟨-, -, rfl⟩ | ⟨-, hp, rfl⟩ | ⟨-, -, -, rfl⟩
    · rw [decProduce_eq] at ht
      exact absurd hm ht
    · exact ⟨rfl, .inr rfl, hp⟩
    · rw [decProduce_eq] at ht
      exact absurd hm ht

/-- The loop makes a step for each slot still to come at most and one more. -/
theorem decLoop_as_steps {n : Nat} {s : State} (hm : s.mode = .dec)
    (hp : s.inPos.toNat ≤ s.inLen.toNat) (hb : s.dBitpos.toNat ≤ 8) (hn : slotsLeft s < n) :
    ∃ k t, execAll (List.replicate k .decStep) s = .next t ∧ k ≤ slotsLeft s + 1 ∧
      (DecEnded t ∧ decLoop n s = (t, none) ∨
        t.mode = .dec ∧ decStep t = .error .outOverflow ∧
          decLoop n s = (t, some .outOverflow)) := by
  induction n generalizing s with
  | zero => omega
  | succ n ih =>
    cases hs : decStep s with
    | error c =>
      obtain rfl := decStep_error_of_dec hm hs
      exact ⟨0, s, rfl, Nat.zero_le _, .inr ⟨hm, hs, decLoop_succ_error hm hs n⟩⟩
    | ok u =>
      rw [decLoop_succ_ok hs]
      have first (k : Nat) : execAll (List.replicate (k + 1) .decStep) s =
          execAll (List.replicate k .decStep) u :=
        execAll_cons_of_next (exec_decStep_of_ok hs) _
      obtain ⟨hp', hb', hd | ⟨hm', hlt⟩⟩ := slotsLeft_decStep hs hp hb
      · have hne : u.mode ≠ .dec := by rw [hd]; nofun
        exact ⟨1, u, first 0, by omega, .inl ⟨decEnded_of_decStep hs hne,
          decLoop_of_mode_ne hne n⟩⟩
      · obtain ⟨k, t, hk, hle, hend⟩ := ih hm' hp' hb' (by omega)
        exact ⟨k + 1, t, (first k).trans hk, by omega, hend⟩

/-- What the loop of `DECOMPRESS` leaves, before a fault is recorded on it. -/
abbrev decFinal (s : State) : State := (decLoop (8 * s.inLen.toNat + 1) (decStarted s)).1

theorem decFrame_decFinal (s : State) : DecFrame (decStarted s) (decFinal s) := decFrame_decLoop ..

theorem untouched_decFinal (s : State) : Untouched s (decFinal s) :=
  ((keptBy_decStarted .decompress s).trans ((decFrame_decFinal s).keptBy _)).1

/-- `DECOMPRESS` ends its session, or records `OutOverflow` where the next step would. -/
def DecompressEnds (s t : State) : Prop :=
  DecEnded t ∧ exec .decompress s = .next t ∨
    t.mode = .dec ∧ decStep t = .error .outOverflow ∧
      exec .decompress s = .next (raise .outOverflow 0x70000000#32 t)

theorem slotsLeft_decStarted (s : State) : slotsLeft (decStarted s) = 8 * s.inLen.toNat := by
  have hpos : (decStarted s).inPos.toNat = 0 := rfl
  have hbit : (decStarted s).dBitpos.toNat = 8 := rfl
  have hlen : (decStarted s).inLen = s.inLen := rfl
  rw [slotsLeft, hpos, hbit, hlen]
  omega

theorem decompress_as_steps {s : State} (h : Free s) :
    ∃ k, execAll (.decStart :: List.replicate k .decStep) s = .next (decFinal s) ∧
      k ≤ 8 * s.inLen.toNat + 1 ∧ DecompressEnds s (decFinal s) := by
  have first (k : Nat) : execAll (.decStart :: List.replicate k .decStep) s =
      execAll (List.replicate k .decStep) (decStarted s) :=
    execAll_cons_of_next (exec_decStart_of_free h) _
  have slots := slotsLeft_decStarted s
  obtain ⟨k, t, hk, hle, hend⟩ := decLoop_as_steps (n := 8 * s.inLen.toNat + 1)
    (s := decStarted s) rfl (Nat.zero_le _) (Nat.le_refl _) (by omega)
  rw [slots] at hle
  rcases hend with ⟨ht, hl⟩ | ⟨hm, hs, hl⟩
  all_goals
    have final : decFinal s = t := congrArg Prod.fst hl
    refine ⟨k, (first k).trans (final ▸ hk), hle, ?_⟩
    rw [final]
  · exact .inl ⟨ht, by rw [exec_decompress_of_free h, hl]; rfl⟩
  · exact .inr ⟨hm, hs, by rw [exec_decompress_of_free h, hl]; rfl⟩

theorem decompress_ends {s : State} (h : Free s) : DecompressEnds s (decFinal s) := by
  obtain ⟨-, -, -, hend⟩ := decompress_as_steps h
  exact hend

/-- Settles O41: the passes of the loop are the steps, and the record is the one `s` had. -/
theorem decompressIsItsSteps : Obligations.DecompressIsItsSteps := by
  intro s h
  obtain ⟨k, hk, hle, hend⟩ := decompress_as_steps h
  have kept := untouched_decFinal s
  refine ⟨k, decFinal s, hle, hk, kept.err, kept.ecode, kept.faultInfo, ?_⟩
  rcases hend with ⟨ht, he⟩ | ⟨hm, hs, he⟩
  · exact .inl ⟨ht.mode, ht.stop, he⟩
  · exact .inr ⟨hm, exec_decStep_of_error hs, he⟩

end Sys2Proof.Machine
end

section
/-!
PROOFS. The ways `MODE` can change (10_state.md R26), and the session that `OutOverflow` leaves
stuck until `INIT` (70_reset_and_hazards.md R265).
-/

namespace Sys2Proof.Machine

/-! ### The ways a command can change `MODE` -/

theorem mode_complete_whenFree {s : State} {f : State → State} (hf : (f s).mode = s.mode)
    (w : Word) : (complete w s (whenFree s f)).mode = s.mode := by
  rcases free_or_inSession s with h | h
  · rw [complete_whenFree_of_free h, hf]
  · rw [complete_whenFree_of_inSession h, raise_mode]

section
variable {s t : State}

theorem modeMove_encStart (h : exec .encStart s = .next t) (hne : t.mode ≠ s.mode) :
    ModeMove .encStart s t := by
  rcases free_or_inSession s with hs | hs
  · rw [exec_encStart_of_free hs] at h
    cases h
    exact .inr (.inl ⟨rfl, hs, rfl⟩)
  · rw [exec_encStart_of_inSession hs] at h
    cases h
    exact absurd rfl hne

theorem modeMove_decStart (h : exec .decStart s = .next t) (hne : t.mode ≠ s.mode) :
    ModeMove .decStart s t := by
  rcases free_or_inSession s with hs | hs
  · rw [exec_decStart_of_free hs] at h
    cases h
    exact .inr (.inr (.inl ⟨rfl, hs, rfl⟩))
  · rw [exec_decStart_of_inSession hs] at h
    cases h
    exact absurd rfl hne

theorem modeMove_encStep (h : exec .encStep s = .next t) (hne : t.mode ≠ s.mode) :
    ModeMove .encStep s t := by
  cases hs : encStep s with
  | error c =>
    rw [exec_encStep_of_error hs] at h
    cases h
    exact absurd rfl hne
  | ok u =>
    rw [exec_encStep_of_ok hs] at h
    cases h
    obtain ⟨hm, ⟨hp, rfl⟩ | ⟨-, -, rfl⟩⟩ := encStep_ok_cases hs
    · exact .inr (.inr (.inr (.inl ⟨rfl, hm, hp, rfl⟩)))
    · exact absurd (encByte_mode s) hne

theorem modeMove_decStep (h : exec .decStep s = .next t) (hne : t.mode ≠ s.mode) :
    ModeMove .decStep s t := by
  cases hs : decStep s with
  | error c =>
    rw [exec_decStep_of_error hs] at h
    cases h
    exact absurd rfl hne
  | ok u =>
    rw [exec_decStep_of_ok hs] at h
    cases h
    obtain ⟨hm, -⟩ := decStep_ok_cases hs
    have ended := decEnded_of_decStep hs (hm ▸ hne)
    exact .inr (.inr (.inr (.inr (.inl ⟨rfl, hm, ended.mode, ended.stop⟩))))

theorem modeMove_compress (h : exec .compress s = .next t) (hne : t.mode ≠ s.mode) :
    ModeMove .compress s t := by
  rcases free_or_inSession s with hs | hs
  · refine .inr (.inr (.inr (.inr (.inr (.inl ⟨rfl, hs, ?_⟩)))))
    rcases compress_ends hs with ⟨ht, he⟩ | ⟨hm, -, he⟩
    · rw [he] at h
      cases h
      exact .inl ht.mode
    · rw [he] at h
      cases h
      exact .inr ⟨hm, rfl⟩
  · rw [exec_compress_of_inSession hs] at h
    cases h
    exact absurd rfl hne

theorem modeMove_decompress (h : exec .decompress s = .next t) (hne : t.mode ≠ s.mode) :
    ModeMove .decompress s t := by
  rcases free_or_inSession s with hs | hs
  · refine .inr (.inr (.inr (.inr (.inr (.inr ⟨rfl, hs, ?_⟩)))))
    rcases decompress_ends hs with ⟨ht, he⟩ | ⟨hm, -, he⟩
    · rw [he] at h
      cases h
      exact .inl ht.mode
    · rw [he] at h
      cases h
      exact .inr ⟨hm, rfl⟩
  · rw [exec_decompress_of_inSession hs] at h
    cases h
    exact absurd rfl hne

theorem modeMove_of_exec {i : Instr} (h : exec i s = .next t) (hne : t.mode ≠ s.mode) :
    ModeMove i s t := by
  cases i with
  | nop => cases h; exact absurd rfl hne
  | init => cases h; exact .inl ⟨rfl, rfl⟩
  | encStart => exact modeMove_encStart h hne
  | encStep => exact modeMove_encStep h hne
  | decStart => exact modeMove_decStart h hne
  | decStep => exact modeMove_decStep h hne
  | compress => exact modeMove_compress h hne
  | decompress => exact modeMove_decompress h hne
  | ctxAdvance d => cases h; exact absurd (mode_complete_whenFree rfl _) hne
  | ctxHash => cases h; exact absurd (mode_complete_whenFree rfl _) hne
  | tblPredict k => cases h; exact absurd (mode_complete_whenFree rfl _) hne
  | tblUpdate k d => cases h; exact absurd (mode_complete_whenFree rfl _) hne

end

/-- Settles O50: the moves of each command, and of the steps only a reset and a command change
`MODE`. -/
theorem modeTransitions : Obligations.ModeTransitions := by
  refine ⟨fun i s t => modeMove_of_exec, fun s t h hne => ?_⟩
  cases stepKind_of_step h with
  | resets rest hp ht => exact .inl ⟨⟨rest, hp⟩, ht ▸ rfl⟩
  | command w i rest hp hd ht =>
    have move := modeMove_of_exec ht hne
    exact .inr ⟨w, i, rest, hp, hd, move⟩
  | waits ht | faults c v rest ht | setsInLen v rest _ _ ht | loads p bytes rest _ _ ht
  | outside rest n x ht =>
    subst ht
    exact absurd rfl hne

/-! ### The stuck session (70_reset_and_hazards.md R265) -/

section
variable {s t : State} {c e : Cause} {w : Word}

/-- A command that the mode refuses, or that finds `OUT` full, changes nothing while a record
stands; `INIT` keeps the record, and both kinds of session can start from `IDLE`. -/
theorem stuckUntilInit_of_legal (herr : t.err = true)
    (hlegal : ∀ i, i ≠ .init → legalIn i.mnemonic t.mode = true → exec i t = .next t) :
    StuckUntilInit t := by
  refine ⟨herr, fun i hi => ?_, _, exec_init t, rfl, herr, rfl, rfl,
    ⟨_, exec_encStart_of_free (.inl rfl), rfl⟩, ⟨_, exec_decStart_of_free (.inl rfl), rfl⟩⟩
  cases hl : legalIn i.mnemonic t.mode with
  | true => exact hlegal i hi hl
  | false => rw [exec_of_not_legalIn hl, raise_of_err herr]

theorem stuckUntilInit_of_enc (hm : t.mode = .enc) (herr : t.err = true)
    (hfull : encStep t = .error c) : StuckUntilInit t := by
  refine stuckUntilInit_of_legal herr fun i hi hl => ?_
  rw [hm] at hl
  cases i with
  | nop => rfl
  | init => exact absurd rfl hi
  | encStep => rw [exec_encStep_of_error hfull, raise_of_err herr]
  | _ => cases hl

theorem stuckUntilInit_of_dec (hm : t.mode = .dec) (herr : t.err = true)
    (hfull : decStep t = .error c) : StuckUntilInit t := by
  refine stuckUntilInit_of_legal herr fun i hi hl => ?_
  rw [hm] at hl
  cases i with
  | nop => rfl
  | init => exact absurd rfl hi
  | decStep => rw [exec_decStep_of_error hfull, raise_of_err herr]
  | _ => cases hl

/-- The record does not help a step that found `OUT` full. -/
theorem encStep_raise (h : encStep s = .error e) : encStep (raise c w s) = .error e := by
  have same : encStep (raise c w s) = (encStep s).map _ := encStep_withRecord
  rw [same, h]
  rfl

theorem decStep_raise (h : decStep s = .error e) : decStep (raise c w s) = .error e := by
  have same : decStep (raise c w s) = (decStep s).map _ := decStep_withRecord
  rw [same, h]
  rfl

theorem stuckUntilInit_raise_of_enc (hm : s.mode = .enc) (hfull : encStep s = .error e) :
    StuckUntilInit (raise c w s) :=
  stuckUntilInit_of_enc hm rfl (encStep_raise hfull)

theorem stuckUntilInit_raise_of_dec (hm : s.mode = .dec) (hfull : decStep s = .error e) :
    StuckUntilInit (raise c w s) :=
  stuckUntilInit_of_dec hm rfl (decStep_raise hfull)

/-! A step that does not fault changes something. -/

theorem succ_ne_self (x : Word) : x + 1 ≠ x := by bv_omega

theorem encStep_ok_ne_self : encStep s ≠ .ok s := by
  intro h
  obtain ⟨hm, ⟨-, heq⟩ | ⟨-, -, heq⟩⟩ := encStep_ok_cases h
  · rw [heq] at hm
    cases hm
  · exact succ_ne_self s.inPos ((encByte_inPos s).symm.trans (congrArg State.inPos heq.symm))

theorem decProduce_outLen {d : Byte} {p : Word} {i : BitVec 4} {b : Byte} {lit : Bool} :
    (decProduce d p i b lit s).outLen = s.outLen + 1 :=
  congrArg State.outLen (decProduce_eq d p i b lit s)

theorem decProduce_ne_self {d : Byte} {p : Word} {i : BitVec 4} {b : Byte} {lit : Bool} :
    s ≠ decProduce d p i b lit s := fun heq =>
  succ_ne_self s.outLen (decProduce_outLen.symm.trans (congrArg State.outLen heq.symm))

theorem decStep_ok_ne_self : decStep s ≠ .ok s := by
  intro h
  obtain ⟨hm, ⟨-, -, heq⟩ | ⟨d, p, i, -, hs⟩⟩ := decStep_ok_cases h
  · rw [heq] at hm
    cases hm
  · rcases decSlot_ok_cases hs with ⟨-, -, heq⟩ | ⟨-, -, heq⟩ | ⟨-, -, -, heq⟩
    · exact decProduce_ne_self heq
    · rw [heq] at hm
      cases hm
    · exact decProduce_ne_self heq

/-- A step of the rule `r` that leaves `ERR` set, and where an older record stands shows its fault
by changing nothing, raised a fault. -/
theorem error_of_complete_err {r : Except Cause State} (hok : ∀ u, r = .ok u → u.err = s.err)
    (hself : r ≠ .ok s) (ht : (complete w s r).err = true)
    (hold : s.err = true → complete w s r = s) : ∃ c, r = .error c := by
  cases r with
  | error c => exact ⟨c, rfl⟩
  | ok u =>
    have heq : u = s := hold ((hok u rfl).symm.trans ht)
    exact absurd (congrArg _ heq) hself

theorem stuck_of_encStep (hm : s.mode = .enc) (h : exec .encStep s = .next t) (ht : t.err = true)
    (hold : s.err = true → t = s) :
    t = raise .outOverflow 0x30000000#32 s ∧ t.mode = .enc ∧ StuckUntilInit t := by
  cases h
  obtain ⟨e, he⟩ := error_of_complete_err (fun _ => encStep_err) encStep_ok_ne_self ht hold
  obtain rfl := encStep_error_of_enc hm he
  rw [he, complete_error]
  exact ⟨rfl, hm, stuckUntilInit_raise_of_enc hm he⟩

theorem stuck_of_decStep (hm : s.mode = .dec) (h : exec .decStep s = .next t) (ht : t.err = true)
    (hold : s.err = true → t = s) :
    t = raise .outOverflow 0x50000000#32 s ∧ t.mode = .dec ∧ StuckUntilInit t := by
  cases h
  obtain ⟨e, he⟩ := error_of_complete_err (fun _ => decStep_err) decStep_ok_ne_self ht hold
  obtain rfl := decStep_error_of_dec hm he
  rw [he, complete_error]
  exact ⟨rfl, hm, stuckUntilInit_raise_of_dec hm he⟩

/-- The record of a first fault. -/
theorem record_raise_of_not_err (h : s.err = false) (c : Cause) (w : Word) :
    (raise c w s).ecode = c.ecode ∧ (raise c w s).faultInfo = w := by
  rw [raise_of_not_err h]
  exact ⟨rfl, rfl⟩

theorem stuck_of_compress (hs : Free s) (h : exec .compress s = .next t) (ht : t.mode ≠ .done) :
    t.mode = .enc ∧ StuckUntilInit t ∧
      (s.err = false → t.ecode = .outOverflow ∧ t.faultInfo = 0x60000000#32) := by
  rcases compress_ends hs with ⟨hend, he⟩ | ⟨hm, hfull, he⟩
  · rw [he] at h
    cases h
    exact absurd hend.mode ht
  · rw [he] at h
    cases h
    exact ⟨hm, stuckUntilInit_raise_of_enc hm hfull, fun herr =>
      record_raise_of_not_err ((untouched_encFinal s).err.trans herr) _ _⟩

theorem stuck_of_decompress (hs : Free s) (h : exec .decompress s = .next t)
    (ht : t.mode ≠ .done) :
    t.mode = .dec ∧ StuckUntilInit t ∧
      (s.err = false → t.ecode = .outOverflow ∧ t.faultInfo = 0x70000000#32) := by
  rcases decompress_ends hs with ⟨hend, he⟩ | ⟨hm, hfull, he⟩
  · rw [he] at h
    cases h
    exact absurd hend.mode ht
  · rw [he] at h
    cases h
    exact ⟨hm, stuckUntilInit_raise_of_dec hm hfull, fun herr =>
      record_raise_of_not_err ((untouched_decFinal s).err.trans herr) _ _⟩

end

/-- Settles O49: the two steps and the two whole sessions. -/
theorem overflowedSessionIsStuckUntilInit : Obligations.OverflowedSessionIsStuckUntilInit :=
  fun _ _ => ⟨stuck_of_encStep, stuck_of_decStep, stuck_of_compress, stuck_of_decompress⟩

end Sys2Proof.Machine
end

section
/-!
PROOFS. A control byte slot by slot (41_control_flags.md R132 to R135): a slot not taken yet may
be set by adding its weight, and the literals of a group belong to its clear slots.
-/

namespace Sys2Proof.Machine

/-! ### Slots -/

theorem flagTest_zero (i : Nat) : flagTest 0x00#8 i = false := by
  rw [flagTest_eq_getLsbD, BitVec.getLsbD_zero]

/-- Setting a slot sets its test and no other. -/
theorem flagTest_flagSet (f : Byte) {i j : Nat} (hi : i < 8) (hj : j < 8) :
    flagTest (flagSet f i) j = (flagTest f j || decide (j = i)) := by
  have slot_iff : i + (7 - j) = 7 ↔ j = i := by omega
  simp only [flagTest_eq_getLsbD, flagSet_getLsbD, slot_iff]

/-- The weight of a clear slot meets no bit of the byte, so `OR` is addition there
(41_control_flags.md R132). -/
theorem flagSet_eq_add {f : Byte} {i : Nat} (h : flagTest f i = false) :
    flagSet f i = f + 0x80#8 >>> i := by
  have disjoint : f &&& 0x80#8 >>> i = 0#8 := by
    apply BitVec.eq_of_getLsbD_eq
    intro j hj
    rw [BitVec.getLsbD_and, slotWeight_getLsbD, BitVec.getLsbD_zero]
    by_cases hs : i + j = 7
    · rw [flagTest_eq_getLsbD, show 7 - i = j by omega] at h
      simp [h]
    · simp [hs]
  rw [flagSet, BitVec.add_eq_or_of_and_eq_zero f _ disjoint]

/-! ### Packing and unpacking -/

/-- The control byte after the hit of slot `h.2`. -/
def packHit (f : Byte) (h : Bool × Nat) : Byte := if h.1 then flagSet f h.2 else f

theorem packHit_eq_add {f : Byte} {i : Nat} (hf : flagTest f i = false) (hit : Bool) :
    packHit f (hit, i) = f + if hit then 0x80#8 >>> i else 0x00#8 := by
  cases hit with
  | true => exact flagSet_eq_add hf
  | false => exact (BitVec.add_zero f).symm

theorem flagTest_packHit {f : Byte} {i j : Nat} (hi : i < 8) (hj : j < 8) (hit : Bool) :
    flagTest (packHit f (hit, i)) j = (flagTest f j || (hit && decide (j = i))) := by
  cases hit with
  | true => exact flagTest_flagSet f hi hj
  | false => simp [packHit]

/-- The hit of slot `i` takes no slot after it. -/
theorem clear_packHit {f : Byte} {i : Nat} (hi : i < 8)
    (hf : ∀ j, i ≤ j → j < 8 → flagTest f j = false) (hit : Bool) (j : Nat) (hij : i + 1 ≤ j)
    (hj : j < 8) : flagTest (packHit f (hit, i)) j = false := by
  rw [flagTest_packHit hi hj, hf j (by omega) hj, decide_eq_false (by omega), Bool.and_false,
    Bool.or_false]

/-- Setting hits from slot `i` on, over a byte whose slots from `i` on are clear, adds their
weights. -/
theorem foldl_packHit (hits : List Bool) {i : Nat} {f : Byte} (hl : i + hits.length ≤ 8)
    (hf : ∀ j, i ≤ j → j < 8 → flagTest f j = false) :
    (hits.zipIdx i).foldl packHit f = f + packFrom i hits := by
  induction hits generalizing i f with
  | nil => exact (BitVec.add_zero f).symm
  | cons hit hits ih =>
    rw [List.length_cons] at hl
    have hi : i < 8 := by omega
    rw [List.zipIdx_cons, List.foldl_cons, ih (by omega) (clear_packHit hi hf hit),
      packHit_eq_add (hf i le_rfl hi), packFrom, BitVec.add_assoc]

/-- The slots of the byte so made: the hits from slot `i` on, then clear ones. -/
theorem flagTest_foldl_packHit (hits : List Bool) {i : Nat} {f : Byte} (hl : i + hits.length ≤ 8)
    (hf : ∀ j, i ≤ j → j < 8 → flagTest f j = false) {j : Nat} (hj : j < 8) :
    flagTest ((hits.zipIdx i).foldl packHit f) j =
      if i ≤ j then hits.getD (j - i) false else flagTest f j := by
  induction hits generalizing i f with
  | nil =>
    by_cases hij : i ≤ j
    · simp [hij, hf j hij hj]
    · simp [hij]
  | cons hit hits ih =>
    rw [List.length_cons] at hl
    have hi : i < 8 := by omega
    rw [List.zipIdx_cons, List.foldl_cons, ih (by omega) (clear_packHit hi hf hit),
      flagTest_packHit hi hj]
    rcases Nat.lt_trichotomy j i with h | rfl | h
    · simp [show ¬i + 1 ≤ j by omega, show ¬i ≤ j by omega, show j ≠ i by omega]
    · simp [hf j le_rfl hj]
    · simp [show i + 1 ≤ j by omega, show i ≤ j by omega,
        show j - i = j - (i + 1) + 1 by omega]

/-- Settles O29: the fold of the statement is `packHit`'s, from the empty control byte. -/
theorem packThenUnpackIsIdentity : Obligations.PackThenUnpackIsIdentity := by
  intro hits hl
  have len : 0 + hits.length ≤ 8 := by omega
  have clear : ∀ j, 0 ≤ j → j < 8 → flagTest 0x00#8 j = false := fun j _ _ => flagTest_zero j
  have packed : hits.zipIdx.foldl packHit 0x00#8 = packFrom 0 hits :=
    (foldl_packHit hits len clear).trans (BitVec.zero_add _)
  refine ⟨packed, fun i hi => ?_⟩
  rw [← packed, flagTest_foldl_packHit hits len clear hi, if_pos (Nat.zero_le i), Nat.sub_zero]

/-! ### The clear slots of a group -/

theorem clearSlots_succ (f : Byte) (n : Nat) :
    clearSlots f (n + 1) = clearSlots f n + if flagTest f n then 0 else 1 := by
  unfold clearSlots
  rw [List.range_succ, List.filter_append, List.length_append]
  cases h : flagTest f n <;> simp [h]

theorem clearSlots_congr {f g : Byte} {n : Nat} (h : ∀ j, j < n → flagTest f j = flagTest g j) :
    clearSlots f n = clearSlots g n := by
  unfold clearSlots
  congr 1
  exact List.filter_congr fun j hj => by rw [h j (List.mem_range.1 hj)]

/-- A hit leaves as many clear slots as there were. -/
theorem clearSlots_flagSet (f : Byte) {i : Nat} (hi : i < 8) :
    clearSlots (flagSet f i) (i + 1) = clearSlots f i := by
  have below : clearSlots (flagSet f i) i = clearSlots f i :=
    clearSlots_congr fun j hj => by
      rw [flagTest_flagSet f hi (by omega), decide_eq_false (by omega), Bool.or_false]
  rw [clearSlots_succ, flagTest_flagSet f hi hi, below]
  simp

end Sys2Proof.Machine
end

section
/-!
PROOFS. The byte path of `ENC_STEP` register by register (42_encoder.md R154, R156): inside a
group, and on its 8th byte. Positions are numbers here, which needs room in `OUT`.
-/

namespace Sys2Proof.Machine

/-- `OUT_LEN` after the literal, where the byte needs one. -/
def litEnd (s : State) : Word := if encHit s then s.outLen else s.outLen + 1

/-- `E_FLAGS` after the byte's slot. -/
def slotFlags (s : State) : Byte :=
  if encHit s then flagSet s.eFlags s.eBitpos.toNat else s.eFlags

/-- `OUT` after the literal, where the byte needs one. -/
def litBuf (s : State) : Memory :=
  if encHit s then s.outBuf
  else Memory.set s.outBuf s.outLen.toNat (inRead s s.inPos.toNat)

section
variable {s : State}

/-- What the byte path leaves inside a group. -/
theorem encByte_of_inner (h : encLast s = false) :
    (encByte s).outLen = litEnd s ∧ (encByte s).eFlags = slotFlags s ∧
      (encByte s).eBitpos = s.eBitpos + 1 ∧ (encByte s).eFlagpos = s.eFlagpos ∧
      (encByte s).outBuf = litBuf s := by
  rw [encByte_outBuf, encByte_eq, h]
  exact ⟨rfl, rfl, rfl, rfl, rfl⟩

/-- What the byte path leaves on the 8th byte of a group: the control byte in its place, and a new
provisional slot after the literals. -/
theorem encByte_of_last (h : encLast s = true) :
    (encByte s).outLen = litEnd s + 1 ∧ (encByte s).eFlags = 0x00 ∧ (encByte s).eBitpos = 0 ∧
      (encByte s).eFlagpos = litEnd s ∧
      (encByte s).outBuf = Memory.set (Memory.set (litBuf s) s.eFlagpos.toNat (slotFlags s))
        (litEnd s).toNat 0x00#8 := by
  rw [encByte_outBuf, encByte_eq, h]
  exact ⟨rfl, rfl, rfl, rfl, rfl⟩

theorem encByte_ctx (s : State) : (encByte s).ctx = advance s.ctx (inRead s s.inPos.toNat) := by
  rw [encByte_eq]

/-- The bytes the literal needs. -/
theorem litEnd_toNat (hc : s.outCap < 2 ^ 32)
    (hroom : s.outLen.toNat + encNeed (encHit s) (encLast s) ≤ s.outCap) :
    (litEnd s).toNat = s.outLen.toNat + if encHit s then 0 else 1 := by
  unfold litEnd
  cases hh : encHit s with
  | true => rfl
  | false =>
    rw [hh, encNeed] at hroom
    exact toNat_succ_of_room hc (by simp only [Bool.false_eq_true, if_false] at hroom; omega)

/-- On the 8th byte there is room for one byte more than the literal. -/
theorem litEnd_lt_outCap (hc : s.outCap < 2 ^ 32)
    (hroom : s.outLen.toNat + encNeed (encHit s) (encLast s) ≤ s.outCap) (hl : encLast s = true) :
    (litEnd s).toNat < s.outCap := by
  rw [litEnd_toNat hc hroom]
  rw [hl, encNeed] at hroom
  simp only [if_true] at hroom
  omega

theorem litEnd_le_outCap (hc : s.outCap < 2 ^ 32)
    (hroom : s.outLen.toNat + encNeed (encHit s) (encLast s) ≤ s.outCap) :
    (litEnd s).toNat ≤ s.outCap := by
  rw [litEnd_toNat hc hroom]
  unfold encNeed at hroom
  omega

theorem outLen_le_litEnd (hc : s.outCap < 2 ^ 32)
    (hroom : s.outLen.toNat + encNeed (encHit s) (encLast s) ≤ s.outCap) :
    s.outLen.toNat ≤ (litEnd s).toNat := by
  rw [litEnd_toNat hc hroom]
  exact Nat.le_add_right ..

/-- The slot of a byte that is not the 8th is below slot 7. -/
theorem eBitpos_succ_toNat (h : encLast s = false) :
    (s.eBitpos + 1).toNat = s.eBitpos.toNat + 1 ∧ s.eBitpos.toNat < 7 := by
  have hne : s.eBitpos ≠ 7#3 := beq_eq_false_iff_ne.1 h
  have h7 : s.eBitpos.toNat ≠ 7 := fun e => hne (BitVec.eq_of_toNat_eq e)
  have hlt := s.eBitpos.isLt
  rw [BitVec.toNat_add]
  show (s.eBitpos.toNat + 1) % 2 ^ 3 = _ ∧ _
  omega

end

end Sys2Proof.Machine
end

section
/-!
PROOFS. The invariant of every observable point (10_state.md R44): it holds at reset, and every
step keeps it. The parts that a session writes are kept one by one: the bytes of `OUT`, the table,
and the encoder's registers.
-/

namespace Sys2Proof.Machine

/-! ### The bytes of `OUT` -/

/-- `OUT` in its canonical form, inside its capacity, and written below `OUT_LEN`. -/
structure OutForm (m : Memory) (cap len : Nat) : Prop where
  form : Memory.wf m
  space : ∀ c ∈ m, c.1 < cap
  written : ∀ p, p < len → (Memory.get? m p).isSome

theorem OutForm.write {m : Memory} {cap len p : Nat} (h : OutForm m cap len) (hp : p < cap)
    (b : Byte) : OutForm (Memory.set m p b) cap len where
  form := Memory.wf_set p b h.form
  space c hc := by
    rcases Memory.mem_set hc with rfl | hc
    · exact hp
    · exact h.space c hc
  written q hq := by
    rw [Memory.get?_set]
    split
    · rfl
    · exact h.written q hq

theorem OutForm.append {m : Memory} {cap len : Nat} (h : OutForm m cap len) (hl : len < cap)
    (b : Byte) : OutForm (Memory.set m len b) cap (len + 1) :=
  { h.write hl b with
    written := fun q hq => by
      rw [Memory.get?_set]
      split
      · rfl
      · exact h.written q (by omega) }

theorem OutForm.empty {m : Memory} {cap len : Nat} (h : OutForm m cap len) : OutForm m cap 0 :=
  { h with written := fun _ hp => absurd hp (Nat.not_lt_zero _) }

theorem Inv.outForm {s : State} (h : Inv s) : OutForm s.outBuf s.outCap s.outLen.toNat :=
  ⟨h.out_form, h.out_space, h.out_written⟩

/-! ### The byte path keeps the bytes of `OUT` and the encoder's registers -/

section
variable {s : State}

theorem outForm_litBuf (h : OutForm s.outBuf s.outCap s.outLen.toNat) (hc : s.outCap < 2 ^ 32)
    (hroom : s.outLen.toNat + encNeed (encHit s) (encLast s) ≤ s.outCap) :
    OutForm (litBuf s) s.outCap (litEnd s).toNat := by
  have hle := litEnd_le_outCap hc hroom
  rw [litEnd_toNat hc hroom] at hle ⊢
  unfold litBuf
  cases hh : encHit s with
  | true => exact h
  | false =>
    rw [hh] at hle
    exact h.append hle _

theorem outForm_encByte (h : OutForm s.outBuf s.outCap s.outLen.toNat) (hc : s.outCap < 2 ^ 32)
    (hroom : s.outLen.toNat + encNeed (encHit s) (encLast s) ≤ s.outCap)
    (hflag : s.eFlagpos.toNat < s.outCap) :
    OutForm (encByte s).outBuf s.outCap (encByte s).outLen.toNat := by
  have hlit := outForm_litBuf h hc hroom
  cases hl : encLast s with
  | false =>
    obtain ⟨hlen, -, -, -, hbuf⟩ := encByte_of_inner hl
    rw [hlen, hbuf]
    exact hlit
  | true =>
    obtain ⟨hlen, -, -, -, hbuf⟩ := encByte_of_last hl
    have hlt := litEnd_lt_outCap hc hroom hl
    rw [hlen, hbuf, toNat_succ_of_room hc hlt]
    exact (hlit.write hflag _).append hlt _

theorem outLen_encByte_le (hc : s.outCap < 2 ^ 32)
    (hroom : s.outLen.toNat + encNeed (encHit s) (encLast s) ≤ s.outCap) :
    (encByte s).outLen.toNat ≤ s.outCap := by
  cases hl : encLast s with
  | false =>
    obtain ⟨hlen, -⟩ := encByte_of_inner hl
    rw [hlen]
    exact litEnd_le_outCap hc hroom
  | true =>
    obtain ⟨hlen, -⟩ := encByte_of_last hl
    have hlt := litEnd_lt_outCap hc hroom hl
    rw [hlen, toNat_succ_of_room hc hlt]
    exact hlt

/-- A literal is written behind the provisional slot. -/
theorem get?_litBuf_eFlagpos (h : EncInv s) :
    Memory.get? (litBuf s) s.eFlagpos.toNat = some 0x00#8 := by
  have hne : s.eFlagpos.toNat ≠ s.outLen.toNat := Nat.ne_of_lt h.flagpos_lt
  unfold litBuf
  split
  · exact h.provisional
  · rw [Memory.get?_set_ne _ _ hne]
    exact h.provisional

/-- The slots after the one just taken are still clear. -/
theorem slotFlags_untaken (h : EncInv s) {j : Nat} (hj : s.eBitpos.toNat + 1 ≤ j) (hj8 : j < 8) :
    flagTest (slotFlags s) j = false := by
  unfold slotFlags
  split
  · rw [flagTest_flagSet _ (by omega) hj8, h.untaken j (by omega) hj8, decide_eq_false (by omega),
      Bool.or_false]
  · exact h.untaken j (by omega) hj8

/-- A miss leaves its slot clear and a hit does not: the clear slots go up by the literals. -/
theorem clearSlots_slotFlags (h : EncInv s) :
    clearSlots (slotFlags s) (s.eBitpos.toNat + 1) =
      clearSlots s.eFlags s.eBitpos.toNat + if encHit s then 0 else 1 := by
  have hlt : s.eBitpos.toNat < 8 := s.eBitpos.isLt
  unfold slotFlags
  cases encHit s with
  | true => exact clearSlots_flagSet s.eFlags hlt
  | false =>
    show clearSlots s.eFlags (s.eBitpos.toNat + 1) = _
    rw [clearSlots_succ, h.untaken _ le_rfl hlt]

theorem encInv_encByte_of_inner (h : EncInv s) (hc : s.outCap < 2 ^ 32)
    (hroom : s.outLen.toNat + encNeed (encHit s) (encLast s) ≤ s.outCap)
    (hl : encLast s = false) : EncInv (encByte s) := by
  obtain ⟨hlen, hflags, hbit, hpos, hbuf⟩ := encByte_of_inner hl
  obtain ⟨hsucc, -⟩ := eBitpos_succ_toNat hl
  have hlt := h.flagpos_lt
  have hle := outLen_le_litEnd hc hroom
  constructor
  case flagpos_lt => rw [hpos, hlen]; omega
  case provisional => rw [hpos, hbuf]; exact get?_litBuf_eFlagpos h
  case untaken =>
    intro j hj hj8
    rw [hbit, hsucc] at hj
    rw [hflags]
    exact slotFlags_untaken h hj hj8
  case literals =>
    rw [hlen, hpos, hflags, hbit, hsucc, clearSlots_slotFlags h, litEnd_toNat hc hroom,
      ← h.literals]
    omega

/-- A new group has no literals and no slot taken. -/
theorem encInv_encByte_of_last (hc : s.outCap < 2 ^ 32)
    (hroom : s.outLen.toNat + encNeed (encHit s) (encLast s) ≤ s.outCap)
    (hl : encLast s = true) : EncInv (encByte s) := by
  obtain ⟨hlen, hflags, hbit, hpos, hbuf⟩ := encByte_of_last hl
  have hsucc := toNat_succ_of_room hc (litEnd_lt_outCap hc hroom hl)
  constructor
  case flagpos_lt => rw [hlen, hpos, hsucc]; omega
  case provisional => rw [hpos, hbuf, Memory.get?_set_self]
  case untaken => rw [hflags]; exact fun j _ _ => flagTest_zero j
  case literals =>
    rw [hlen, hpos, hbit, hsucc]
    show _ = 0
    omega

theorem encInv_encByte (h : EncInv s) (hc : s.outCap < 2 ^ 32)
    (hroom : s.outLen.toNat + encNeed (encHit s) (encLast s) ≤ s.outCap) : EncInv (encByte s) := by
  cases hl : encLast s with
  | false => exact encInv_encByte_of_inner h hc hroom hl
  | true => exact encInv_encByte_of_last hc hroom hl

end

/-! ### The table and the context -/

theorem advance_lt (ctx : Ctx) (b : Byte) : (advance ctx b).toNat < 2 ^ 24 := by
  rw [advance_toNat]
  exact Nat.mod_lt _ (by decide)

/-- The table in its canonical form, over the zeroed base. -/
def TableForm (t : Table) : Prop := t.wf ∧ t.base = .zeroed

theorem TableForm.learn {t : Table} (h : TableForm t) (k : Key) (b : Byte) :
    TableForm (t.set k.toNat b) :=
  ⟨Table.wf_set h.1 (Key.lt_tblSize k) b, Table.set_base_zeroed h.2 k.toNat b⟩

theorem tableForm_encByte {s : State} (h : TableForm s.tbl) : TableForm (encByte s).tbl := by
  rw [encByte_tbl]
  split
  · exact h
  · exact h.learn ..

theorem tableForm_decProduce {s : State} (h : TableForm s.tbl) (c : Byte) (p : Word) (i : BitVec 4)
    (b : Byte) (lit : Bool) : TableForm (decProduce c p i b lit s).tbl := by
  rw [decProduce_tbl]
  split
  · exact h.learn ..
  · exact h

theorem Inv.tableForm {s : State} (h : Inv s) (hs : InSession s) : TableForm s.tbl :=
  ⟨h.tbl_form, h.tbl_session hs⟩

/-! ### A fault, and what stands outside the block -/

theorem Cause.ecode_ne_none (c : Cause) : c.ecode ≠ .none := by cases c <;> decide

theorem inv_raise {s : State} (h : Inv s) (c : Cause) (w : Word) : Inv (raise c w s) :=
  { h with
    encoder := fun hm => { h.encoder hm with }
    code_err := by
      rw [raise_ecode, raise_err]
      refine iff_of_true ?_ rfl
      split
      · next herr => exact h.code_err.2 herr
      · exact c.ecode_ne_none
    info_err := fun herr => by cases herr }

/-- The invariant says nothing of the accesses pending, of the last word read and of the counters.
-/
theorem Inv.of_outside {s : State} (h : Inv s) (pending : List Access) (busData : Word)
    (writes : Nat) : Inv { s with pending, busData, writes } :=
  { h with encoder := fun hm => { h.encoder hm with } }

theorem inv_complete {s : State} (h : Inv s) {r : Except Cause State} (w : Word)
    (hok : ∀ t, r = .ok t → Inv t) : Inv (complete w s r) := by
  rcases complete_cases w s r with ⟨t, hr, ht⟩ | ⟨c, -, ht⟩
  · exact ht ▸ hok t hr
  · exact ht ▸ inv_raise h c w

/-! ### The steps of a session -/

section
variable {s t : State}

theorem inv_encByte (h : Inv s) (hm : s.mode = .enc) (hp : s.inPos ≠ s.inLen)
    (hroom : s.outLen.toNat + encNeed (encHit s) (encLast s) ≤ s.outCap) : Inv (encByte s) := by
  have hc := h.outCap_word
  have enc := h.encoder hm
  have form := outForm_encByte h.outForm hc hroom (lt_of_lt_of_le enc.flagpos_lt h.outLen_le)
  have table := tableForm_encByte (h.tableForm (.inl hm))
  have enc' := encInv_encByte enc hc hroom
  have len := outLen_encByte_le hc hroom
  obtain ⟨hlt, hsucc⟩ := toNat_succ_of_ne (h.inPos_le (.inl hm)) hp
  rw [encByte_eq] at form table enc' len ⊢
  exact
    { h with
      ctx_24 := advance_lt ..
      inPos_le := fun _ => hsucc ▸ hlt
      outLen_le := len
      encoder := fun _ => enc'
      tbl_form := table.1
      tbl_session := fun _ => table.2
      out_form := form.form
      out_space := form.space
      out_written := form.written }

theorem inv_encStep (h : Inv s) (hs : encStep s = .ok t) : Inv t := by
  obtain ⟨hm, ⟨hp, rfl⟩ | ⟨hp, hroom, rfl⟩⟩ := encStep_ok_cases hs
  · have form := h.outForm.write (lt_of_lt_of_le (h.encoder hm).flagpos_lt h.outLen_le) s.eFlags
    exact
      { h with
        inPos_le := nofun
        encoder := nofun
        stop_done := iff_of_true nofun rfl
        tbl_session := nofun
        out_form := form.form
        out_space := form.space
        out_written := form.written }
  · exact inv_encByte h hm hp hroom

/-- The decoder's positions stay in range whatever the step does with its slot. -/
theorem inv_decStep (h : Inv s) (hs : decStep s = .ok t) : Inv t := by
  obtain ⟨hm, hcases⟩ := decStep_ok_cases hs
  obtain ⟨hpos, hbit, -⟩ := slotsLeft_decStep hs (h.inPos_le (.inr hm)) h.dBitpos_le
  have produced {c : Byte} {p : Word} {i : BitVec 4} {b : Byte} {lit : Bool}
      (ht : t = decProduce c p i b lit s) (hroom : s.outLen.toNat + 1 ≤ s.outCap) : Inv t := by
    have table := tableForm_decProduce (h.tableForm (.inr hm)) c p i b lit
    have form := h.outForm.append hroom b
    rw [← toNat_succ_of_room h.outCap_word hroom] at form
    rw [decProduce_eq] at ht table
    subst ht
    exact
      { h with
        ctx_24 := advance_lt ..
        inPos_le := fun _ => hpos
        dBitpos_le := hbit
        outLen_le := (toNat_succ_of_room h.outCap_word hroom).trans_le hroom
        encoder := fun he => by rw [hm] at he; cases he
        tbl_form := table.1
        tbl_session := fun _ => table.2
        out_form := form.form
        out_space := form.space
        out_written := form.written }
  rcases hcases with ⟨-, -, rfl⟩ | ⟨c, p, i, -, hslot⟩
  · exact { h with inPos_le := nofun, encoder := nofun, stop_done := iff_of_true nofun rfl,
                   tbl_session := nofun }
  · rcases decSlot_ok_cases hslot with ⟨-, hroom, ht⟩ | ⟨-, -, rfl⟩ | ⟨-, -, hroom, ht⟩
    · exact produced ht hroom
    · exact { h with inPos_le := nofun, dBitpos_le := hbit, encoder := nofun,
                     stop_done := iff_of_true nofun rfl, tbl_session := nofun }
    · exact produced ht hroom

/-! ### The starts of a session, and the whole sessions -/

theorem inv_encStarted (h : Inv s) : Inv (encStarted s) := by
  have form := h.outForm.empty.append h.outCap_pos 0x00#8
  exact
    { h with
      ctx_24 := Nat.two_pow_pos 24
      inPos_le := fun _ => Nat.zero_le _
      outLen_le := h.outCap_pos
      dBitpos_le := Nat.le_refl 8
      encoder := fun _ =>
        { flagpos_lt := Nat.one_pos
          provisional := Memory.get?_set_self ..
          untaken := fun j _ _ => flagTest_zero j
          literals := rfl }
      stop_done := iff_of_false (not_not.2 rfl) nofun
      tbl_form := Table.wf_zero
      tbl_session := fun _ => rfl
      out_form := form.form
      out_space := form.space
      out_written := form.written }

/-- Both `INIT` and `DEC_START` leave an empty `OUT[0..OUT_LEN)` and a zeroed table, in a mode
that is neither `ENC` nor `DONE`. -/
theorem inv_fresh (h : Inv s) {m : Mode} {r : BitVec 16} (henc : m ≠ .enc) (hdone : m ≠ .done)
    (hr : r.toNat < 2 ^ 12) : Inv { freshSession s with mode := m, result := r } :=
  { h with
    ctx_24 := Nat.two_pow_pos 24
    result_12 := hr
    inPos_le := fun _ => Nat.zero_le _
    outLen_le := Nat.zero_le _
    dBitpos_le := Nat.le_refl 8
    encoder := fun he => absurd he henc
    stop_done := iff_of_false (not_not.2 rfl) hdone
    tbl_form := Table.wf_zero
    tbl_session := fun _ => rfl
    out_written := fun _ hp => absurd hp (Nat.not_lt_zero _) }

theorem inv_decStarted (h : Inv s) : Inv (decStarted s) :=
  inv_fresh h (m := .dec) nofun nofun h.result_12

theorem inv_finish {p : State × Option Cause} (w : Word) (h : Inv p.1) : Inv (finish w p) := by
  rcases finish_cases w p with ⟨-, hp⟩ | ⟨c, -, hp⟩
  · exact hp ▸ h
  · exact hp ▸ inv_raise h c w

theorem inv_compress (h : Inv s) (he : exec .compress s = .next t) : Inv t := by
  rcases free_or_inSession s with hs | hs
  · rw [exec_compress_of_free hs] at he
    cases he
    exact inv_finish _ (encLoop_keeps (fun _ _ => inv_encStep) _ (inv_encStarted h))
  · rw [exec_compress_of_inSession hs] at he
    cases he
    exact inv_raise h ..

theorem inv_decompress (h : Inv s) (he : exec .decompress s = .next t) : Inv t := by
  rcases free_or_inSession s with hs | hs
  · rw [exec_decompress_of_free hs] at he
    cases he
    exact inv_finish _ (decLoop_keeps (fun _ _ => inv_decStep) _ (inv_decStarted h))
  · rw [exec_decompress_of_inSession hs] at he
    cases he
    exact inv_raise h ..

theorem inv_encStart (h : Inv s) (he : encStart s = .ok t) : Inv t := by
  rcases free_or_inSession s with hs | hs
  · rw [encStart_of_free hs] at he
    cases he
    exact inv_encStarted h
  · rw [encStart_of_inSession hs] at he
    cases he

theorem inv_decStart (h : Inv s) (he : decStart s = .ok t) : Inv t := by
  rcases free_or_inSession s with hs | hs
  · rw [decStart_of_free hs] at he
    cases he
    exact inv_decStarted h
  · rw [decStart_of_inSession hs] at he
    cases he

/-! ### The datapath commands -/

theorem inv_whenFree {f : State → State} (hf : Free s → Inv (f s)) (he : whenFree s f = .ok t) :
    Inv t := by
  rcases free_or_inSession s with hs | hs
  · rw [whenFree_of_free hs] at he
    cases he
    exact hf hs
  · rw [whenFree_of_inSession hs] at he
    cases he

theorem inv_setCtx (h : Inv s) {ctx : Ctx} (hc : ctx.toNat < 2 ^ 24) : Inv { s with ctx := ctx } :=
  { h with ctx_24 := hc, encoder := fun hm => { h.encoder hm with } }

theorem inv_setResult (h : Inv s) {r : BitVec 16} (hr : r.toNat < 2 ^ 12) :
    Inv { s with result := r } :=
  { h with result_12 := hr, encoder := fun hm => { h.encoder hm with } }

theorem not_inSession (hs : Free s) : ¬InSession s := by
  intro hi
  have both : true = false := (sessionFree_of_free hs).symm.trans (sessionFree_of_inSession hi)
  cases both

theorem inv_update (h : Inv s) (hs : Free s) (k : Key) (b : Byte) : Inv (update k b s) :=
  { h with
    encoder := fun hm => absurd (.inl hm) (not_inSession hs)
    tbl_form := Table.wf_set h.tbl_form (Key.lt_tblSize k) b
    tbl_session := fun hm => absurd hm (not_inSession hs) }

/-- A key, and a byte, fit in the 12 bits of `RESULT`. -/
theorem setWidth_result_lt {n : Nat} (hn : n ≤ 12) (x : BitVec n) :
    (x.setWidth 16).toNat < 2 ^ 12 := by
  rw [BitVec.toNat_setWidth_of_le (by omega)]
  exact lt_of_lt_of_le x.isLt (Nat.pow_le_pow_right (by decide) hn)

theorem inv_exec {i : Instr} (h : Inv s) (he : exec i s = .next t) : Inv t := by
  cases i with
  | nop => cases he; exact h
  | init => cases he; exact inv_fresh h (m := .idle) nofun nofun (by decide)
  | encStart => cases he; exact inv_complete h _ fun _ => inv_encStart h
  | encStep => cases he; exact inv_complete h _ fun _ => inv_encStep h
  | decStart => cases he; exact inv_complete h _ fun _ => inv_decStart h
  | decStep => cases he; exact inv_complete h _ fun _ => inv_decStep h
  | compress => exact inv_compress h he
  | decompress => exact inv_decompress h he
  | ctxAdvance d =>
    cases he
    exact inv_complete h _ fun _ => inv_whenFree fun _ => inv_setCtx h (advance_lt ..)
  | ctxHash =>
    cases he
    exact inv_complete h _ fun _ =>
      inv_whenFree fun _ => inv_setResult h (setWidth_result_lt (by decide) _)
  | tblPredict k =>
    cases he
    exact inv_complete h _ fun _ =>
      inv_whenFree fun _ => inv_setResult h (setWidth_result_lt (by decide) _)
  | tblUpdate k d =>
    cases he
    exact inv_complete h _ fun _ => inv_whenFree fun hs => inv_update h hs k d

/-! ### The host's accesses, the reset event and power-on -/

theorem inv_setInLen (h : Inv s) (hs : Free s) {v : Word} (hv : v.toNat ≤ s.inCap) :
    Inv { s with inLen := v } :=
  { h with
    inLen_le := hv
    inPos_le := fun hm => absurd hm (not_inSession hs)
    encoder := fun hm => absurd (.inl hm) (not_inSession hs) }

theorem inv_load (h : Inv s) {p : Nat} {bytes : List Byte} (hl : p + bytes.length ≤ s.inCap) :
    Inv { s with inBuf := Memory.load s.inBuf p bytes } :=
  { h with
    encoder := fun hm => { h.encoder hm with }
    in_form := Memory.wf_load p bytes h.in_form
    in_space := fun c hc => by
      rcases Memory.mem_load hc with hc | ⟨-, hlt⟩
      · exact h.in_space c hc
      · exact lt_of_lt_of_le hlt hl }

/-- The values at reset meet the invariant over any capacities and any `IN` that do. -/
theorem inv_reset {inBuf : Memory} {inCap outCap : Nat} (hi : inCap < 2 ^ 32)
    (ho : outCap < 2 ^ 32) (h1 : 1 ≤ outCap) (hform : Memory.wf inBuf)
    (hspace : ∀ c ∈ inBuf, c.1 < inCap) (pending : List Access) (busData : Word)
    (writes resets : Nat) :
    Inv { State.reset with inBuf, inCap, outCap, pending, busData, writes, resets } where
  inCap_word := hi
  outCap_word := ho
  outCap_pos := h1
  not_busy := rfl
  ctx_24 := Nat.two_pow_pos 24
  result_12 := Nat.two_pow_pos 12
  inLen_le := Nat.zero_le _
  inPos_le _ := Nat.zero_le _
  outLen_le := Nat.zero_le _
  dBitpos_le := Nat.le_refl 8
  encoder := nofun
  stop_done := iff_of_false (not_not.2 rfl) nofun
  code_err := iff_of_false (not_not.2 rfl) nofun
  info_err _ := rfl
  tbl_form := ⟨List.Pairwise.nil, nofun, nofun, fun _ => rfl⟩
  tbl_session := nofun
  in_form := hform
  in_space := hspace
  out_form := List.Pairwise.nil
  out_space := nofun
  out_written _ hp := absurd hp (Nat.not_lt_zero _)

theorem inv_resetEvent (h : Inv s) : Inv (resetEvent s) :=
  inv_reset h.inCap_word h.outCap_word h.outCap_pos h.in_form h.in_space ..

/-- Settles O47: the capacities are opaque, and lie in their bounds by their types. -/
theorem invariantHoldsAtReset : Obligations.InvariantHoldsAtReset := by
  have hout : Config.outCap < 2 ^ 32 := by
    have := Config.outCapLessOne.isLt
    unfold Config.outCap
    omega
  exact inv_reset Config.inCapWord.isLt hout (Nat.le_add_left ..) List.Pairwise.nil nofun ..

end

/-- Settles O48: each kind of step keeps the invariant. -/
theorem invariantKeptByEveryStep : Obligations.InvariantKeptByEveryStep := by
  intro s t h hstep
  have taken (rest : List Access) (n : Nat) : Inv { s with pending := rest, writes := n } :=
    h.of_outside rest s.busData n
  cases stepKind_of_step hstep with
  | waits ht => exact ht ▸ h
  | resets rest _ ht => exact ht ▸ inv_resetEvent (taken rest s.writes)
  | command w i rest _ _ he => exact inv_exec (taken rest _) he
  | faults c v rest ht => exact ht ▸ inv_raise (taken rest _) c v
  | setsInLen v rest hs hv ht => exact ht ▸ inv_setInLen (taken rest _) hs hv
  | loads p bytes rest _ hl ht => exact ht ▸ inv_load (taken rest _) hl
  | outside rest n x ht => exact ht ▸ h.of_outside rest x n

end Sys2Proof.Machine
end

section
/-!
PROOFS. The document's `compress` (42_encoder.md R154, R156): a byte at a time, and how long its
stream is (R155).
-/

namespace Sys2Proof.Reference

open Sys2Proof.Machine

section
variable (ctx : Ctx) (tbl : Prediction) (flags : Byte) (i : Nat) (lits : List Byte) (b : Byte)

/-- The table after the byte `b`: a miss is learnt, a hit changes nothing. -/
def learnMiss : Prediction := if tbl (hashKey ctx) = b then tbl else learn tbl (hashKey ctx) b

/-- The control byte after the byte `b` took slot `i`. -/
def takeSlot : Byte := if tbl (hashKey ctx) = b then flagSet flags i else flags

/-- The literal that the byte `b` needs, if it is a miss. -/
def literal : List Byte := if tbl (hashKey ctx) = b then [] else [b]

theorem compressFrom_nil : compressFrom ctx tbl flags i lits [] = flags :: lits := rfl

/-- A byte that is not the 8th of its group. -/
theorem compressFrom_inner (hi : i ≠ 7) (bs : List Byte) :
    compressFrom ctx tbl flags i lits (b :: bs) =
      compressFrom (advance ctx b) (learnMiss ctx tbl b) (takeSlot ctx tbl flags i b) (i + 1)
        (lits ++ literal ctx tbl b) bs := by
  by_cases hit : tbl (hashKey ctx) = b
  · simp [compressFrom, learnMiss, takeSlot, literal, hit, hi]
  · simp [compressFrom, learnMiss, takeSlot, literal, hit, hi]

/-- The 8th byte of its group: the group is emitted and the next one begun. -/
theorem compressFrom_last (bs : List Byte) :
    compressFrom ctx tbl flags 7 lits (b :: bs) =
      takeSlot ctx tbl flags 7 b :: (lits ++ literal ctx tbl b) ++
        compressFrom (advance ctx b) (learnMiss ctx tbl b) 0x00 0 [] bs := by
  by_cases hit : tbl (hashKey ctx) = b
  · simp [compressFrom, learnMiss, takeSlot, literal, hit]
  · simp [compressFrom, learnMiss, takeSlot, literal, hit]

theorem length_literal_le : (literal ctx tbl b).length ≤ 1 := by
  unfold literal
  split
  · exact Nat.zero_le 1
  · exact Nat.le_refl 1

end

/-- The stream holds a control byte for each group begun and the literals so far, and at most one
literal for each byte to come besides. -/
theorem length_compressFrom (bs : List Byte) (ctx : Ctx) (tbl : Prediction) (flags : Byte) {i : Nat}
    (hi : i < 8) (lits : List Byte) :
    lits.length + (i + bs.length) / 8 + 1 ≤ (compressFrom ctx tbl flags i lits bs).length ∧
      (compressFrom ctx tbl flags i lits bs).length ≤
        lits.length + bs.length + (i + bs.length) / 8 + 1 := by
  induction bs generalizing ctx tbl flags i lits with
  | nil =>
    rw [compressFrom_nil, List.length_cons, List.length_nil]
    omega
  | cons b bs ih =>
    have hlit := length_literal_le ctx tbl b
    by_cases h7 : i = 7
    · subst h7
      have rest := ih (advance ctx b) (learnMiss ctx tbl b) 0x00 (i := 0) (by decide) []
      rw [compressFrom_last]
      simp only [List.length_append, List.length_cons, List.length_nil] at rest ⊢
      omega
    · have rest := ih (advance ctx b) (learnMiss ctx tbl b) (takeSlot ctx tbl flags i b)
        (i := i + 1) (by omega) (lits ++ literal ctx tbl b)
      rw [compressFrom_inner ctx tbl flags i lits b h7]
      simp only [List.length_append, List.length_cons] at rest ⊢
      omega

/-- The stream is no shorter than its control byte begun and its literals so far. -/
theorem length_lits_lt_compressFrom (bs : List Byte) (ctx : Ctx) (tbl : Prediction) (flags : Byte)
    {i : Nat} (hi : i < 8) (lits : List Byte) :
    lits.length < (compressFrom ctx tbl flags i lits bs).length := by
  have := length_compressFrom bs ctx tbl flags hi lits
  omega

/-- The bounds of 42_encoder.md R155. -/
theorem length_compress (bs : List Byte) :
    bs.length / 8 + 1 ≤ (compress bs).length ∧
      (compress bs).length ≤ bs.length + bs.length / 8 + 1 := by
  have := length_compressFrom bs 0 (fun _ => 0x00) 0x00 (i := 0) (by decide) []
  rw [List.length_nil, Nat.zero_add, Nat.zero_add] at this
  exact this

end Sys2Proof.Reference
end

section
/-!
PROOFS. `COMPRESS` computes the document's `compress` (42_encoder.md R160). In a session
`OUT[0..OUT_LEN)` holds the finished groups, the provisional slot and the literals of the group
begun; what the document's function still makes of the input to come, from these registers,
completes the stream. Every step keeps the stream.
-/

namespace Sys2Proof.Machine

open Reference (compressFrom learnMiss takeSlot literal)

/-! ### The input and the output as lists -/

theorem inputOf_congr {s t : State} (hl : t.inLen = s.inLen) (hb : t.inBuf = s.inBuf) :
    inputOf t = inputOf s := by
  unfold inputOf
  rw [hl]
  exact List.map_congr_left fun p _ => inRead_congr hb p

theorem drop_inputOf_of_lt {s : State} {p : Nat} (h : p < s.inLen.toNat) :
    (inputOf s).drop p = inRead s p :: (inputOf s).drop (p + 1) := by
  rw [List.drop_eq_getElem_cons (by rw [length_inputOf]; exact h)]
  simp [inputOf]

theorem drop_inputOf_inLen (s : State) : (inputOf s).drop s.inLen.toNat = [] :=
  List.drop_eq_nil_of_le (length_inputOf s).le

theorem set_at_length {before after : List Byte} (x y : Byte) :
    (before ++ x :: after).set before.length y = before ++ y :: after := by
  rw [List.set_append_right _ _ le_rfl, Nat.sub_self, List.set_cons_zero]

section
variable {s : State}

/-- The state with the literal appended, where the byte needs one. -/
abbrev litState (s : State) : State := { s with outBuf := litBuf s, outLen := litEnd s }

theorem outputOf_litState (hc : s.outCap < 2 ^ 32)
    (hroom : s.outLen.toNat + encNeed (encHit s) (encLast s) ≤ s.outCap) :
    outputOf (litState s) =
      outputOf s ++ literal s.ctx (predict s) (inRead s s.inPos.toNat) := by
  have hle := litEnd_le_outCap hc hroom
  rw [litEnd_toNat hc hroom] at hle
  cases hh : encHit s with
  | true =>
    have same : outputOf (litState s) = outputOf s :=
      outputOf_congr (by simp [litEnd, hh]) (by simp [litBuf, hh]) rfl
    rw [same, literal, if_pos (encHit_iff.1 hh), List.append_nil]
  | false =>
    have appended : outputOf (litState s) = outputOf (outAppend (inRead s s.inPos.toNat) s) :=
      outputOf_congr (by simp [litEnd, hh]) (by simp [litBuf, hh]) rfl
    rw [hh] at hle
    rw [appended, outputOf_outAppend _ _ hc hle, literal, if_neg (encHit_eq_false_iff.1 hh)]

theorem slotFlags_eq_takeSlot :
    slotFlags s =
      takeSlot s.ctx (predict s) s.eFlags s.eBitpos.toNat (inRead s s.inPos.toNat) := by
  simp only [slotFlags, takeSlot, encHit_iff]

theorem predict_encByte_eq_learnMiss :
    predict (encByte s) = learnMiss s.ctx (predict s) (inRead s s.inPos.toNat) := by
  funext j
  rw [predict_encByte]
  simp only [encHit_eq_false_iff]
  by_cases hit : predict s (hashKey s.ctx) = inRead s s.inPos.toNat
  · simp [learnMiss, hit]
  · simp [learnMiss, Reference.learn, hit]

theorem outputOf_encByte_of_inner (hl : encLast s = false) :
    outputOf (encByte s) = outputOf (litState s) := by
  obtain ⟨hlen, -, -, -, hbuf⟩ := encByte_of_inner hl
  exact outputOf_congr hlen hbuf (by rw [encByte_eq])

theorem outputOf_encByte_of_last (hl : encLast s = true) (hc : s.outCap < 2 ^ 32)
    (hroom : s.outLen.toNat + encNeed (encHit s) (encLast s) ≤ s.outCap) :
    outputOf (encByte s) =
      (outputOf (litState s)).set s.eFlagpos.toNat (slotFlags s) ++ [0x00] := by
  obtain ⟨hlen, -, -, -, hbuf⟩ := encByte_of_last hl
  calc outputOf (encByte s)
      = outputOf (outAppend 0x00#8 (outWrite s.eFlagpos.toNat (slotFlags s) (litState s))) :=
        outputOf_congr hlen hbuf (by rw [encByte_eq]; rfl)
    _ = outputOf (outWrite s.eFlagpos.toNat (slotFlags s) (litState s)) ++ [0x00] :=
        outputOf_outAppend _ _ hc (litEnd_lt_outCap hc hroom hl)
    _ = (outputOf (litState s)).set s.eFlagpos.toNat (slotFlags s) ++ [0x00] := by
        rw [outputOf_outWrite]

end

/-! ### A session under way -/

/-- `t` is in an encoder session over the input `bs` that makes `stream`: `before` is the finished
groups, `lits` the literals of the group begun. -/
structure Encoding (bs stream before lits : List Byte) (t : State) : Prop where
  cap : t.outCap < 2 ^ 32
  input : inputOf t = bs
  inPos_le : t.inPos.toNat ≤ t.inLen.toNat
  outLen_le : t.outLen.toNat ≤ t.outCap
  output : outputOf t = before ++ 0x00 :: lits
  flagpos : t.eFlagpos.toNat = before.length
  stream_eq : stream = before ++
    compressFrom t.ctx (predict t) t.eFlags t.eBitpos.toNat lits (bs.drop t.inPos.toNat)

section
variable {bs stream before lits : List Byte} {s t : State}

theorem Encoding.outLen_eq (h : Encoding bs stream before lits s) :
    s.outLen.toNat = before.length + lits.length + 1 := by
  rw [← length_outputOf, h.output, List.length_append, List.length_cons]
  omega

theorem Encoding.drop_eq (h : Encoding bs stream before lits s) (hp : s.inPos ≠ s.inLen) :
    bs.drop s.inPos.toNat = inRead s s.inPos.toNat :: bs.drop (s.inPos + 1).toNat := by
  obtain ⟨hlt, hsucc⟩ := toNat_succ_of_ne h.inPos_le hp
  rw [← h.input, drop_inputOf_of_lt hlt, hsucc]

/-- What the byte path keeps of a session on either of its ways. -/
theorem Encoding.input_encByte (h : Encoding bs stream before lits s) :
    inputOf (encByte s) = bs :=
  (inputOf_congr (encByte_inLen s) (by rw [encByte_eq])).trans h.input

theorem Encoding.inPos_encByte_le (h : Encoding bs stream before lits s) (hp : s.inPos ≠ s.inLen) :
    (encByte s).inPos.toNat ≤ (encByte s).inLen.toNat := by
  obtain ⟨hlt, hsucc⟩ := toNat_succ_of_ne h.inPos_le hp
  rw [encByte_inPos, encByte_inLen, hsucc]
  exact hlt

theorem encByte_outCap (s : State) : (encByte s).outCap = s.outCap := by rw [encByte_eq]

theorem Encoding.inner (h : Encoding bs stream before lits s) (hp : s.inPos ≠ s.inLen)
    (hroom : s.outLen.toNat + encNeed (encHit s) (encLast s) ≤ s.outCap)
    (hl : encLast s = false) :
    Encoding bs stream before (lits ++ literal s.ctx (predict s) (inRead s s.inPos.toNat))
      (encByte s) := by
  obtain ⟨-, hflags, hbit, hpos, -⟩ := encByte_of_inner hl
  obtain ⟨hsucc, hlt7⟩ := eBitpos_succ_toNat hl
  refine ⟨(encByte_outCap s).symm ▸ h.cap, h.input_encByte, h.inPos_encByte_le hp,
    (encByte_outCap s).symm ▸ outLen_encByte_le h.cap hroom, ?output, hpos ▸ h.flagpos, ?stream⟩
  case output =>
    rw [outputOf_encByte_of_inner hl, outputOf_litState h.cap hroom, h.output, List.append_assoc]
    rfl
  case stream =>
    rw [h.stream_eq, h.drop_eq hp, Reference.compressFrom_inner _ _ _ _ _ _ (by omega),
      encByte_ctx, encByte_inPos, hflags, hbit, hsucc, slotFlags_eq_takeSlot,
      predict_encByte_eq_learnMiss]

theorem Encoding.last (h : Encoding bs stream before lits s) (hp : s.inPos ≠ s.inLen)
    (hroom : s.outLen.toNat + encNeed (encHit s) (encLast s) ≤ s.outCap)
    (hl : encLast s = true) :
    Encoding bs stream
      (before ++ slotFlags s :: (lits ++ literal s.ctx (predict s) (inRead s s.inPos.toNat))) []
      (encByte s) := by
  obtain ⟨-, hflags, hbit, hpos, -⟩ := encByte_of_last hl
  have h7 : s.eBitpos = 7#3 := encLast_iff.1 hl
  have grown : outputOf (litState s) =
      before ++ 0x00 :: (lits ++ literal s.ctx (predict s) (inRead s s.inPos.toNat)) := by
    rw [outputOf_litState h.cap hroom, h.output, List.append_assoc]
    rfl
  refine ⟨(encByte_outCap s).symm ▸ h.cap, h.input_encByte, h.inPos_encByte_le hp,
    (encByte_outCap s).symm ▸ outLen_encByte_le h.cap hroom, ?output, ?flagpos, ?stream⟩
  case output =>
    rw [outputOf_encByte_of_last hl h.cap hroom, grown, h.flagpos, set_at_length]
  case flagpos =>
    have len := congrArg List.length grown
    rw [length_outputOf, List.length_append, List.length_cons] at len
    rw [hpos, List.length_append, List.length_cons]
    exact len
  case stream =>
    rw [h.stream_eq, h.drop_eq hp, encByte_ctx, encByte_inPos, hflags, hbit,
      slotFlags_eq_takeSlot, predict_encByte_eq_learnMiss, h7]
    show before ++ compressFrom _ _ _ 7 _ _ = _
    rw [Reference.compressFrom_last, List.append_assoc]
    rfl

theorem Encoding.step (h : Encoding bs stream before lits s) (hp : s.inPos ≠ s.inLen)
    (hroom : s.outLen.toNat + encNeed (encHit s) (encLast s) ≤ s.outCap) :
    ∃ before' lits', Encoding bs stream before' lits' (encByte s) := by
  cases hl : encLast s with
  | false => exact ⟨_, _, h.inner hp hroom hl⟩
  | true => exact ⟨_, _, h.last hp hroom hl⟩

/-- Finalising the last control byte completes the stream. -/
theorem Encoding.finalise (h : Encoding bs stream before lits s) (hp : s.inPos = s.inLen) :
    outputOf (stopSession .encEnd (outWrite s.eFlagpos.toNat s.eFlags s)) = stream := by
  have drained : bs.drop s.inPos.toNat = [] := by rw [← h.input, hp, drop_inputOf_inLen]
  calc outputOf (stopSession .encEnd (outWrite s.eFlagpos.toNat s.eFlags s))
      = (outputOf s).set s.eFlagpos.toNat s.eFlags := outputOf_outWrite ..
    _ = before ++ s.eFlags :: lits := by rw [h.output, h.flagpos, set_at_length]
    _ = stream := by rw [h.stream_eq, drained, Reference.compressFrom_nil]

/-- A step that finds `OUT` full is one whose stream does not fit. -/
theorem Encoding.length_of_full (h : Encoding bs stream before lits s) (hp : s.inPos ≠ s.inLen)
    (hfull : s.outCap < s.outLen.toNat + encNeed (encHit s) (encLast s)) :
    s.outCap < stream.length := by
  have hlen := h.outLen_eq
  have hlit : (literal s.ctx (predict s) (inRead s s.inPos.toNat)).length =
      if encHit s then 0 else 1 := by
    simp only [literal, encHit_iff]
    split <;> rfl
  rw [encNeed] at hfull
  rw [h.stream_eq, h.drop_eq hp, List.length_append]
  cases hl : encLast s with
  | true =>
    have h7 : s.eBitpos.toNat = 7 := by rw [encLast_iff.1 hl]; rfl
    rw [hl] at hfull
    have rest := Reference.length_lits_lt_compressFrom (bs.drop (s.inPos + 1).toNat)
      (advance s.ctx (inRead s s.inPos.toNat))
      (learnMiss s.ctx (predict s) (inRead s s.inPos.toNat)) 0x00 (i := 0) (by decide) []
    rw [h7, Reference.compressFrom_last, List.length_append, List.length_cons, List.length_append,
      hlit]
    simp only [if_true] at hfull
    omega
  | false =>
    obtain ⟨-, hlt7⟩ := eBitpos_succ_toNat hl
    rw [hl] at hfull
    rw [Reference.compressFrom_inner _ _ _ _ _ _ (by omega)]
    have rest := Reference.length_lits_lt_compressFrom (bs.drop (s.inPos + 1).toNat)
      (advance s.ctx (inRead s s.inPos.toNat))
      (learnMiss s.ctx (predict s) (inRead s s.inPos.toNat))
      (takeSlot s.ctx (predict s) s.eFlags s.eBitpos.toNat (inRead s s.inPos.toNat))
      (i := s.eBitpos.toNat + 1) (by omega)
      (lits ++ literal s.ctx (predict s) (inRead s s.inPos.toNat))
    rw [List.length_append, hlit] at rest
    simp only [Bool.false_eq_true, if_false] at hfull
    omega

end

/-! ### The whole session -/

/-- `t` is on the way to `stream`, or holds it. -/
structure MakesStream (bs stream : List Byte) (t : State) : Prop where
  running : t.mode = .enc → ∃ before lits, Encoding bs stream before lits t
  ended : t.mode = .done → outputOf t = stream ∧ t.outLen.toNat ≤ t.outCap

theorem makesStream_encStep {bs stream : List Byte} {s t : State} (h : MakesStream bs stream s)
    (hs : encStep s = .ok t) : MakesStream bs stream t := by
  obtain ⟨hm, hcases⟩ := encStep_ok_cases hs
  obtain ⟨before, lits, he⟩ := h.running hm
  rcases hcases with ⟨hp, rfl⟩ | ⟨hp, hroom, rfl⟩
  · exact ⟨nofun, fun _ => ⟨he.finalise hp, he.outLen_le⟩⟩
  · exact ⟨fun _ => he.step hp hroom, fun hd => by
      rw [encByte_mode, hm] at hd; cases hd⟩

/-- `ENC_START` leaves the empty group at `OUT[0]`. -/
theorem makesStream_encStarted {s : State} (h1 : 1 ≤ s.outCap) (hc : s.outCap < 2 ^ 32) :
    MakesStream (inputOf s) (Reference.compress (inputOf s)) (encStarted s) := by
  refine ⟨fun _ => ⟨[], [], hc, rfl, Nat.zero_le _, h1, ?_, rfl, ?_⟩, nofun⟩
  · show outputOf (outAppend 0x00#8 (freshSession s)) = _
    rw [outputOf_outAppend 0x00#8 (freshSession s) hc h1]
    rfl
  · have zeroed : predict (encStarted s) = fun _ => 0x00 := funext fun k =>
      predict_of_tbl_zero rfl k
    rw [zeroed]
    rfl

theorem makesStream_encFinal {s : State} (h1 : 1 ≤ s.outCap) (hc : s.outCap < 2 ^ 32) :
    MakesStream (inputOf s) (Reference.compress (inputOf s)) (encFinal s) :=
  encLoop_keeps (fun _ _ => makesStream_encStep) _ (makesStream_encStarted h1 hc)

/-- `COMPRESS` leaves the document's stream, or it is longer than `OUT` and the session overflows.
-/
theorem compress_cases {s : State} (h : Free s) (h1 : 1 ≤ s.outCap) (hc : s.outCap < 2 ^ 32) :
    (Reference.compress (inputOf s)).length ≤ s.outCap ∧ EncEnded (encFinal s) ∧
        outputOf (encFinal s) = Reference.compress (inputOf s) ∧
        exec .compress s = .next (encFinal s) ∨
      s.outCap < (Reference.compress (inputOf s)).length ∧ (encFinal s).mode = .enc ∧
        exec .compress s = .next (raise .outOverflow 0x60000000#32 (encFinal s)) := by
  have makes := makesStream_encFinal h1 hc
  have cap := (untouched_encFinal s).outCap
  rcases compress_ends h with ⟨ht, he⟩ | ⟨hm, hfull, he⟩
  · obtain ⟨hout, hle⟩ := makes.ended ht.mode
    refine .inl ⟨?_, ht, hout, he⟩
    rw [← hout, length_outputOf]
    exact cap ▸ hle
  · obtain ⟨before, lits, henc⟩ := makes.running hm
    rcases encStep_error_cases hfull with ⟨hne, -⟩ | ⟨-, hp, hfull, -⟩
    · exact absurd hm hne
    · exact .inr ⟨cap ▸ henc.length_of_full hp hfull, hm, he⟩

/-- Settles O36: the stream that fits and the one that does not. -/
theorem compressRefinesTheDocument : Obligations.CompressRefinesTheDocument := by
  intro s h h1 hc
  have kept := untouched_encFinal s
  rcases compress_cases h h1 hc with ⟨hle, ht, hout, he⟩ | ⟨hlt, hm, he⟩
  · exact ⟨_, he, fun _ => ⟨hout, ht.mode, ht.stop, kept.err, kept.ecode, kept.faultInfo⟩,
      fun hlt => absurd hle (Nat.not_le_of_lt hlt)⟩
  · exact ⟨_, he, fun hle => absurd hle (Nat.not_le_of_lt hlt), fun _ => ⟨hm, rfl, fun herr =>
      record_raise_of_not_err (kept.err.trans herr) _ _⟩⟩

end Sys2Proof.Machine
end

section
/-!
PROOFS. Three more facts of `COMPRESS` (42_encoder.md): it always ends where `OUT` has room for
the longest stream (R155, R159), the empty input gives one zero byte (R158), and nothing but the
input and the room decides what it leaves (R161).
-/

namespace Sys2Proof.Machine

/-! ### The bytes of `OUT` beyond the stream -/

/-- From `OUT_LEN` of `t` on, `OUT` is as in `s`. -/
def SameBeyond (s t : State) : Prop := ∀ p, t.outLen.toNat ≤ p → outRead t p = outRead s p

section
variable {s : State}

theorem outRead_encByte_of_beyond (hflag : s.eFlagpos.toNat < s.outLen.toNat)
    (hc : s.outCap < 2 ^ 32)
    (hroom : s.outLen.toNat + encNeed (encHit s) (encLast s) ≤ s.outCap) {p : Nat}
    (hp : (encByte s).outLen.toNat ≤ p) :
    s.outLen.toNat ≤ p ∧ outRead (encByte s) p = outRead s p := by
  have lit := litEnd_toNat hc hroom
  have positions : (litEnd s).toNat ≤ p ∧ ¬(encLast s = true ∧ p = (litEnd s).toNat) := by
    cases hl : encLast s with
    | false =>
      obtain ⟨hlen, -⟩ := encByte_of_inner hl
      exact ⟨hlen ▸ hp, nofun⟩
    | true =>
      obtain ⟨hlen, -⟩ := encByte_of_last hl
      rw [hlen, toNat_succ_of_room hc (litEnd_lt_outCap hc hroom hl)] at hp
      exact ⟨by omega, fun ⟨_, heq⟩ => by omega⟩
  obtain ⟨hle, hslot⟩ := positions
  have hliteral : ¬(encHit s = false ∧ p = s.outLen.toNat) := by
    rintro ⟨hmiss, rfl⟩
    rw [hmiss] at lit
    simp only [Bool.false_eq_true, if_false] at lit
    omega
  have hge : s.outLen.toNat ≤ p := (outLen_le_litEnd hc hroom).trans hle
  refine ⟨hge, ?_⟩
  have hcontrol : ¬(encLast s = true ∧ p = s.eFlagpos.toNat) := fun ⟨_, heq⟩ => by omega
  exact (outRead_encByte s p).trans <| (if_neg hslot).trans <| (if_neg hcontrol).trans
    (if_neg hliteral)

/-- A session that makes its stream writes nothing beyond it. -/
theorem sameBeyond_encStep {bs stream : List Byte} {t u : State}
    (h : MakesStream bs stream t ∧ SameBeyond s t) (hs : encStep t = .ok u) :
    MakesStream bs stream u ∧ SameBeyond s u := by
  obtain ⟨makes, same⟩ := h
  refine ⟨makesStream_encStep makes hs, fun p hp => ?_⟩
  obtain ⟨hm, hcases⟩ := encStep_ok_cases hs
  obtain ⟨before, lits, henc⟩ := makes.running hm
  have hflag : t.eFlagpos.toNat < t.outLen.toNat := by
    rw [henc.outLen_eq, henc.flagpos]
    omega
  rcases hcases with ⟨-, rfl⟩ | ⟨-, hroom, rfl⟩
  · have hp : t.outLen.toNat ≤ p := hp
    rw [outRead_stopSession, outRead_outWrite, if_neg (by omega), same p hp]
  · obtain ⟨hge, heq⟩ := outRead_encByte_of_beyond hflag henc.cap hroom hp
    exact heq.trans (same p hge)

theorem sameBeyond_encStarted : SameBeyond s (encStarted s) := by
  intro p hp
  have hp : 1 ≤ p := hp
  exact (outRead_outAppend_freshSession 0x00#8 s p).trans (if_neg (by omega))

theorem sameBeyond_encFinal (h1 : 1 ≤ s.outCap) (hc : s.outCap < 2 ^ 32) :
    SameBeyond s (encFinal s) :=
  (encLoop_keeps (fun _ _ => sameBeyond_encStep) _
    ⟨makesStream_encStarted h1 hc, sameBeyond_encStarted⟩).2

end

/-- Settles O35: the bound on the stream's length leaves no way but to end. -/
theorem compressCompletes : Obligations.CompressCompletes := by
  intro s h hc hroom
  have h1 : 1 ≤ s.outCap := by omega
  have kept := untouched_encFinal s
  have frame := encFrame_encFinal s
  obtain ⟨hlower, hupper⟩ := Reference.length_compress (inputOf s)
  rw [length_inputOf] at hlower hupper
  rcases compress_cases h h1 hc with ⟨-, ht, hout, he⟩ | ⟨hlt, -, -⟩
  · have len : (encFinal s).outLen.toNat = (Reference.compress (inputOf s)).length := by
      rw [← hout, length_outputOf]
    refine ⟨_, he, ht.mode, ht.stop, ht.inPos.trans kept.inLen, by omega, by omega,
      fun p hp => sameBeyond_encFinal h1 hc p (by omega), ?_⟩
    rw [EncFrame, ht.mode, ht.stop] at frame
    exact frame
  · omega

/-- Settles O37: the first step finds the input exhausted and writes the empty group's control
byte. -/
theorem emptyInputGivesOneZeroByte : Obligations.EmptyInputGivesOneZeroByte := by
  intro s h hlen
  have first : encStep (encStarted s) =
      .ok (stopSession .encEnd (outWrite 0 0x00#8 (encStarted s))) :=
    encStep_of_exhausted rfl hlen.symm
  have loop : encLoop (s.inLen.toNat + 1) (encStarted s) =
      (stopSession .encEnd (outWrite 0 0x00#8 (encStarted s)), none) := by
    rw [encLoop_succ_ok first, encLoop_of_mode_ne (by simp)]
  refine ⟨_, by rw [exec_compress_of_free h, loop], rfl, rfl, ?_⟩
  show [outRead (outWrite 0 0x00#8 (encStarted s)) 0] = [0x00#8]
  rw [outRead_outWrite, if_pos rfl]

/-! ### Two runs over the same input (42_encoder.md R161) -/

/-- What `ENC_STEP` reads and writes is alike in `s` and `s'`: the session's registers, the table
slot by slot, and the bytes of `IN` and of `OUT` inside their lengths. -/
structure EncAlike (s s' : State) : Prop where
  mode : s'.mode = s.mode
  stop : s'.stop = s.stop
  ctx : s'.ctx = s.ctx
  inPos : s'.inPos = s.inPos
  inLen : s'.inLen = s.inLen
  outLen : s'.outLen = s.outLen
  outCap : s'.outCap = s.outCap
  eFlags : s'.eFlags = s.eFlags
  eBitpos : s'.eBitpos = s.eBitpos
  eFlagpos : s'.eFlagpos = s.eFlagpos
  table : ∀ k, predict s' k = predict s k
  input : ∀ p, p < s.inLen.toNat → inRead s' p = inRead s p
  output : ∀ p, p < s.outLen.toNat → outRead s' p = outRead s p
  inPos_le : s.inPos.toNat ≤ s.inLen.toNat

section
variable {s s' : State}

theorem EncAlike.byte (h : EncAlike s s') (hp : s.inPos ≠ s.inLen) :
    inRead s' s'.inPos.toNat = inRead s s.inPos.toNat := by
  obtain ⟨hlt, -⟩ := toNat_succ_of_ne h.inPos_le hp
  rw [h.inPos, h.input _ hlt]

theorem EncAlike.hit (h : EncAlike s s') (hp : s.inPos ≠ s.inLen) : encHit s' = encHit s := by
  unfold encHit
  rw [h.byte hp, h.ctx, h.table]

theorem EncAlike.last (h : EncAlike s s') : encLast s' = encLast s := by
  unfold encLast
  rw [h.eBitpos]

theorem toNat_succ_le (w : Word) : (w + 1).toNat ≤ w.toNat + 1 := by
  rw [BitVec.toNat_add]
  exact Nat.mod_le ..

/-- A byte that the output holds after the step, and that the step has not written, it held
before. -/
theorem lt_outLen_of_not_written {p : Nat} (hp : p < (encByte s).outLen.toNat)
    (hslot : ¬(encLast s = true ∧ p = (litEnd s).toNat))
    (hliteral : ¬(encHit s = false ∧ p = s.outLen.toNat)) : p < s.outLen.toNat := by
  have hlit : p < (litEnd s).toNat := by
    cases hl : encLast s with
    | false =>
      obtain ⟨hlen, -⟩ := encByte_of_inner hl
      exact hlen ▸ hp
    | true =>
      obtain ⟨hlen, -⟩ := encByte_of_last hl
      rw [hlen] at hp
      have hle := toNat_succ_le (litEnd s)
      exact lt_of_le_of_ne (by omega) fun heq => hslot ⟨hl, heq⟩
  unfold litEnd at hlit
  cases hh : encHit s with
  | true =>
    rw [hh, if_pos rfl] at hlit
    exact hlit
  | false =>
    have hle := toNat_succ_le s.outLen
    rw [hh, if_neg nofun] at hlit
    exact lt_of_le_of_ne (by omega) fun heq => hliteral ⟨hh, heq⟩

theorem EncAlike.output_encByte (h : EncAlike s s') (hp : s.inPos ≠ s.inLen) {p : Nat}
    (hlt : p < (encByte s).outLen.toNat) : outRead (encByte s') p = outRead (encByte s) p := by
  rw [outRead_encByte, outRead_encByte]
  dsimp only
  rw [h.hit hp, h.last, h.byte hp, h.eFlags, h.eBitpos, h.eFlagpos, h.outLen]
  exact ite_congr rfl (fun _ => rfl) fun hslot => ite_congr rfl (fun _ => rfl) fun _ =>
    ite_congr rfl (fun _ => rfl) fun hliteral =>
      h.output p (lt_outLen_of_not_written hlt hslot hliteral)

theorem inRead_encByte (s : State) (p : Nat) : inRead (encByte s) p = inRead s p :=
  inRead_congr (by rw [encByte_eq]) p

theorem encAlike_encByte (h : EncAlike s s') (hp : s.inPos ≠ s.inLen) :
    EncAlike (encByte s) (encByte s') := by
  have hhit := h.hit hp
  have hlast := h.last
  obtain ⟨hlt, hsucc⟩ := toNat_succ_of_ne h.inPos_le hp
  constructor
  case mode => rw [encByte_mode, encByte_mode, h.mode]
  case stop => rw [encByte_eq s', encByte_eq s]; exact h.stop
  case ctx => rw [encByte_ctx, encByte_ctx, h.ctx, h.byte hp]
  case inPos => rw [encByte_inPos, encByte_inPos, h.inPos]
  case inLen => rw [encByte_inLen, encByte_inLen, h.inLen]
  case outLen => rw [encByte_eq s', encByte_eq s]; simp only [hhit, hlast, h.outLen]
  case outCap => rw [encByte_outCap, encByte_outCap, h.outCap]
  case eFlags => rw [encByte_eq s', encByte_eq s]; simp only [hhit, hlast, h.eFlags, h.eBitpos]
  case eBitpos => rw [encByte_eq s', encByte_eq s]; simp only [hlast, h.eBitpos]
  case eFlagpos =>
    rw [encByte_eq s', encByte_eq s]
    simp only [hhit, hlast, h.outLen, h.eFlagpos]
  case table =>
    intro k
    rw [predict_encByte, predict_encByte, hhit, h.ctx, h.byte hp, h.table]
  case input =>
    intro p hlen
    rw [inRead_encByte, inRead_encByte]
    exact h.input p (encByte_inLen s ▸ hlen)
  case output => exact fun _ => h.output_encByte hp
  case inPos_le =>
    rw [encByte_inPos, encByte_inLen, hsucc]
    exact hlt

theorem EncAlike.finalise (h : EncAlike s s') :
    EncAlike (stopSession .encEnd (outWrite s.eFlagpos.toNat s.eFlags s))
      (stopSession .encEnd (outWrite s'.eFlagpos.toNat s'.eFlags s')) :=
  { h with
    mode := rfl
    stop := rfl
    output := fun p hp => by
      rw [outRead_stopSession, outRead_stopSession, outRead_outWrite, outRead_outWrite, h.eFlags,
        h.eFlagpos, h.output p hp] }

/-- The step goes the same way in both states, and leaves them alike. -/
theorem encAlike_encStep (h : EncAlike s s') :
    (∃ t t', encStep s = .ok t ∧ encStep s' = .ok t' ∧ EncAlike t t') ∨
      ∃ c, encStep s = .error c ∧ encStep s' = .error c := by
  by_cases hm : s.mode = .enc
  · have hm' : s'.mode = .enc := h.mode.trans hm
    by_cases hp : s.inPos = s.inLen
    · have hp' : s'.inPos = s'.inLen := by rw [h.inPos, h.inLen, hp]
      exact .inl ⟨_, _, encStep_of_exhausted hm hp, encStep_of_exhausted hm' hp', h.finalise⟩
    · have hp' : s'.inPos ≠ s'.inLen := by rwa [h.inPos, h.inLen]
      have need : s'.outLen.toNat + encNeed (encHit s') (encLast s') =
          s.outLen.toNat + encNeed (encHit s) (encLast s) := by rw [h.outLen, h.hit hp, h.last]
      rcases Nat.lt_or_ge s.outCap (s.outLen.toNat + encNeed (encHit s) (encLast s)) with ho | ho
      · exact .inr ⟨_, encStep_of_full hm hp ho,
          encStep_of_full hm' hp' (by rwa [need, h.outCap])⟩
      · exact .inl ⟨_, _, encStep_of_room hm hp ho,
          encStep_of_room hm' hp' (by rwa [need, h.outCap]), encAlike_encByte h hp⟩
  · exact .inr ⟨_, encStep_of_mode_ne hm, encStep_of_mode_ne (h.mode ▸ hm)⟩

/-- The loops make the same passes and stop at the same fault. -/
theorem encAlike_encLoop (h : EncAlike s s') (n : Nat) :
    EncAlike (encLoop n s).1 (encLoop n s').1 ∧ (encLoop n s').2 = (encLoop n s).2 := by
  induction n generalizing s s' with
  | zero => exact ⟨h, rfl⟩
  | succ n ih =>
    by_cases hm : s.mode = .enc
    · rcases encAlike_encStep h with ⟨t, t', hs, hs', ht⟩ | ⟨c, hs, hs'⟩
      · rw [encLoop_succ_ok hs, encLoop_succ_ok hs']
        exact ih ht
      · rw [encLoop_succ_error hm hs, encLoop_succ_error (h.mode.trans hm) hs']
        exact ⟨h, rfl⟩
    · rw [encLoop_of_mode_ne hm, encLoop_of_mode_ne (h.mode ▸ hm)]
      exact ⟨h, rfl⟩

theorem outputOf_of_encAlike (h : EncAlike s s') : outputOf s' = outputOf s := by
  unfold outputOf
  rw [h.outLen]
  exact List.map_congr_left fun p hp => h.output p (List.mem_range.1 hp)

/-- `ENC_START` wipes all that the two states may differ in, but for what no session reads. -/
theorem encAlike_encStarted (hlen : s'.inLen = s.inLen) (hcap : s'.outCap = s.outCap)
    (hin : ∀ p, p < s.inLen.toNat → inRead s' p = inRead s p) :
    EncAlike (encStarted s) (encStarted s') where
  mode := rfl
  stop := rfl
  ctx := rfl
  inPos := rfl
  inLen := hlen
  outLen := rfl
  outCap := hcap
  eFlags := rfl
  eBitpos := rfl
  eFlagpos := rfl
  table _ := rfl
  input := hin
  output p hp := by
    have hp : p < 1 := hp
    have first (u : State) : outRead (encStarted u) p = 0x00 :=
      (outRead_outAppend_freshSession 0x00#8 u p).trans (if_pos (by omega))
    rw [first, first]
  inPos_le := Nat.zero_le _

/-- What the two runs leave differs at most in the record that a fault writes. -/
theorem encAlike_raise (h : EncAlike s s') (c : Cause) (w : Word) :
    EncAlike (raise c w s) (raise c w s') := { h with }

theorem encAlike_finish {p p' : State × Option Cause} (w : Word) (h : EncAlike p.1 p'.1)
    (hfault : p'.2 = p.2) : EncAlike (finish w p) (finish w p') := by
  obtain ⟨t, fault⟩ := p
  obtain ⟨t', fault'⟩ := p'
  obtain rfl : fault' = fault := hfault
  cases fault' with
  | none => exact h
  | some c => exact encAlike_raise h c w

end

/-- Settles O38: alike after `ENC_START`, the two runs stay alike. -/
theorem compressDependsOnlyOnTheInput : Obligations.CompressDependsOnlyOnTheInput := by
  intro s s' h h' hlen hcap _ _ hin
  obtain ⟨loops, hfault⟩ :=
    encAlike_encLoop (encAlike_encStarted hlen hcap hin) (s.inLen.toNat + 1)
  have alike := encAlike_finish (encode .compress) loops hfault
  refine ⟨_, _, exec_compress_of_free h, hlen ▸ exec_compress_of_free h',
    outputOf_of_encAlike alike,
    alike.mode, alike.stop, alike.ctx, alike.inPos, alike.table⟩

end Sys2Proof.Machine
end

section
/-!
PROOFS. The document's `decompress` (43_decoder.md R182) as a run that takes one slot at a time
and also says by which stop it ends (R183, R185), and the round trip (R190): the run over a stream
that `compress` made.
-/

namespace Sys2Proof.Reference

open Sys2Proof.Machine

/-! ### One slot at a time -/

/-- From the context `ctx`, the table `tbl` and the slots of the control byte held, the stream
still to come yields the output `out`, and the run ends by the stop `r`. -/
inductive Decodes : Ctx → Prediction → List Bool → List Byte → List Byte → Stop → Prop where
  /-- A control byte is needed and none remains (43_decoder.md R183). -/
  | noCtrl (ctx : Ctx) (tbl : Prediction) : Decodes ctx tbl [] [] [] .noCtrl
  /-- A literal is needed and none remains (43_decoder.md R185). -/
  | noLit (ctx : Ctx) (tbl : Prediction) (slots : List Bool) :
      Decodes ctx tbl (false :: slots) [] [] .noLit
  /-- The next byte is a control byte. -/
  | ctrl {ctx : Ctx} {tbl : Prediction} {c : Byte} {bs out : List Byte} {r : Stop}
      (h : Decodes ctx tbl (slotsOf c) bs out r) : Decodes ctx tbl [] (c :: bs) out r
  /-- A set slot yields the prediction. -/
  | hit {ctx : Ctx} {tbl : Prediction} {slots : List Bool} {bs out : List Byte} {r : Stop}
      (h : Decodes (advance ctx (tbl (hashKey ctx))) tbl slots bs out r) :
      Decodes ctx tbl (true :: slots) bs (tbl (hashKey ctx) :: out) r
  /-- A clear slot yields the literal, which is learnt. -/
  | lit {ctx : Ctx} {tbl : Prediction} {slots : List Bool} {b : Byte} {bs out : List Byte}
      {r : Stop} (h : Decodes (advance ctx b) (learn tbl (hashKey ctx) b) slots bs out r) :
      Decodes ctx tbl (false :: slots) (b :: bs) (b :: out) r

section
variable (ctx : Ctx) (tbl : Prediction) (slots : List Bool) (b : Byte) (bs : List Byte)

theorem decompressFrom_ctrl :
    decompressFrom ctx tbl [] (b :: bs) = decompressFrom ctx tbl (slotsOf b) bs := rfl

theorem decompressFrom_lit :
    decompressFrom ctx tbl (false :: slots) (b :: bs) =
      b :: decompressFrom (advance ctx b) (learn tbl (hashKey ctx) b) slots bs := rfl

theorem decompressFrom_hit :
    decompressFrom ctx tbl (true :: slots) bs =
      tbl (hashKey ctx) :: decompressFrom (advance ctx (tbl (hashKey ctx))) tbl slots bs := by
  cases bs with
  | nil => rfl
  | cons b bs =>
    rw [decompressFrom, decompressFrom, takeHits]
    obtain ⟨out, ctx', left⟩ := takeHits (advance ctx (tbl (hashKey ctx))) tbl slots
    cases left with
    | nil => rfl
    | cons slot left => rfl

end

/-- The run yields what the document's function yields. -/
theorem Decodes.decompressFrom_eq {ctx : Ctx} {tbl : Prediction} {slots : List Bool}
    {bs out : List Byte} {r : Stop} (h : Decodes ctx tbl slots bs out r) :
    decompressFrom ctx tbl slots bs = out := by
  induction h with
  | noCtrl ctx tbl => rfl
  | noLit ctx tbl slots => rfl
  | ctrl h ih => rw [decompressFrom_ctrl, ih]
  | hit h ih => rw [decompressFrom_hit, ih]
  | lit h ih => rw [decompressFrom_lit, ih]

/-- Whatever the stream, there is a run. -/
theorem exists_decodes (bs : List Byte) (ctx : Ctx) (tbl : Prediction) (slots : List Bool) :
    ∃ out r, Decodes ctx tbl slots bs out r := by
  induction bs generalizing ctx tbl slots with
  | nil =>
    induction slots generalizing ctx with
    | nil => exact ⟨_, _, .noCtrl ctx tbl⟩
    | cons slot slots ih =>
      cases slot with
      | false => exact ⟨_, _, .noLit ctx tbl slots⟩
      | true =>
        obtain ⟨out, r, h⟩ := ih (advance ctx (tbl (hashKey ctx)))
        exact ⟨_, _, h.hit⟩
  | cons b bs ihb =>
    induction slots generalizing ctx with
    | nil =>
      obtain ⟨out, r, h⟩ := ihb ctx tbl (slotsOf b)
      exact ⟨_, _, h.ctrl⟩
    | cons slot slots ih =>
      cases slot with
      | false =>
        obtain ⟨out, r, h⟩ := ihb (advance ctx b) (learn tbl (hashKey ctx) b) slots
        exact ⟨_, _, h.lit⟩
      | true =>
        obtain ⟨out, r, h⟩ := ih (advance ctx (tbl (hashKey ctx)))
        exact ⟨_, _, h.hit⟩

/-- A run of the document's `decompress`. -/
abbrev Decompresses (bs out : List Byte) (r : Stop) : Prop :=
  Decodes 0 (fun _ => 0x00) [] bs out r

theorem exists_decompresses (bs : List Byte) : ∃ r, Decompresses bs (decompress bs) r := by
  obtain ⟨out, r, h⟩ := exists_decodes bs 0 (fun _ => 0x00) []
  obtain rfl : decompress bs = out := h.decompressFrom_eq
  exact ⟨r, h⟩

theorem length_slotsOf (c : Byte) : (slotsOf c).length = 8 := by
  rw [slotsOf, List.length_map, List.length_range]

/-- Each slot yields one byte at most (43_decoder.md R188). -/
theorem Decodes.length_le {ctx : Ctx} {tbl : Prediction} {slots : List Bool}
    {bs out : List Byte} {r : Stop} (h : Decodes ctx tbl slots bs out r) :
    out.length ≤ slots.length + 8 * bs.length := by
  induction h with
  | noCtrl ctx tbl => exact Nat.zero_le _
  | noLit ctx tbl slots => exact Nat.zero_le _
  | ctrl h ih =>
    rw [length_slotsOf] at ih
    rw [List.length_cons, List.length_nil]
    omega
  | hit h ih =>
    rw [List.length_cons, List.length_cons]
    omega
  | lit h ih =>
    rw [List.length_cons, List.length_cons, List.length_cons]
    omega

/-! ### The round trip (43_decoder.md R190) -/

/-- The slots from `i` on: slot `i`, and those after it. -/
theorem drop_slotsOf (c : Byte) {i : Nat} (hi : i < 8) :
    (slotsOf c).drop i = flagTest c i :: (slotsOf c).drop (i + 1) := by
  rw [List.drop_eq_getElem_cons (by rw [length_slotsOf]; exact hi)]
  simp [slotsOf]

theorem drop_slotsOf_eight (c : Byte) : (slotsOf c).drop 8 = [] :=
  List.drop_eq_nil_of_le (length_slotsOf c).le

section
variable {ctx : Ctx} {tbl : Prediction} {b : Byte} {slots : List Bool} {bs out : List Byte}
  {r : Stop}

/-- The slot and the literal that the encoder made of the byte `b` yield it, and leave the decoder
with the encoder's table. -/
theorem decodes_encoded {hit : Bool} (hh : hit = decide (tbl (hashKey ctx) = b))
    (h : Decodes (advance ctx b) (learnMiss ctx tbl b) slots bs out r) :
    Decodes ctx tbl (hit :: slots) (literal ctx tbl b ++ bs) (b :: out) r := by
  by_cases hb : tbl (hashKey ctx) = b
  · rw [decide_eq_true hb] at hh
    rw [learnMiss, if_pos hb] at h
    rw [hh, literal, if_pos hb]
    subst hb
    exact h.hit
  · rw [decide_eq_false hb] at hh
    rw [learnMiss, if_neg hb] at h
    rw [hh, literal, if_neg hb]
    exact h.lit

theorem flagTest_takeSlot (ctx : Ctx) (tbl : Prediction) (flags : Byte) {i j : Nat} (b : Byte)
    (hi : i < 8) (hj : j < 8) :
    flagTest (takeSlot ctx tbl flags i b) j =
      (flagTest flags j || (decide (tbl (hashKey ctx) = b) && decide (j = i))) := by
  unfold takeSlot
  split
  · next hb => rw [flagTest_flagSet flags hi hj, decide_eq_true hb, Bool.true_and]
  · next hb => rw [decide_eq_false hb, Bool.false_and, Bool.or_false]

end

/-- The group begun, read back: its control byte `c` agrees with the slots taken so far, and from
slot `i` on it decodes, with what follows the literals so far, to the bytes to come. The last
group is never full, so the run ends for want of a literal (43_decoder.md R189). -/
theorem decodes_compressFrom (bs : List Byte) (ctx : Ctx) (tbl : Prediction) {flags : Byte}
    {i : Nat} (hi : i < 8) (hclear : ∀ j, i ≤ j → j < 8 → flagTest flags j = false)
    (lits : List Byte) :
    ∃ c rest, compressFrom ctx tbl flags i lits bs = c :: (lits ++ rest) ∧
      (∀ j, j < i → flagTest c j = flagTest flags j) ∧
      Decodes ctx tbl ((slotsOf c).drop i) rest bs .noLit := by
  induction bs generalizing ctx tbl flags i lits with
  | nil =>
    refine ⟨flags, [], by rw [compressFrom_nil, List.append_nil], fun _ _ => rfl, ?_⟩
    rw [drop_slotsOf flags hi, hclear i le_rfl hi]
    exact .noLit ..
  | cons b bs ih =>
    have taken (j : Nat) (hj : j < 8) := flagTest_takeSlot ctx tbl flags b hi hj
    have slot : flagTest (takeSlot ctx tbl flags i b) i = decide (tbl (hashKey ctx) = b) := by
      rw [taken i hi, hclear i le_rfl hi, decide_eq_true rfl, Bool.and_true, Bool.false_or]
    have before (j : Nat) (hj : j < i) :
        flagTest (takeSlot ctx tbl flags i b) j = flagTest flags j := by
      rw [taken j (by omega), decide_eq_false (show j ≠ i by omega), Bool.and_false,
        Bool.or_false]
    by_cases h7 : i = 7
    · subst h7
      obtain ⟨c, rest, hstream, -, hrest⟩ := ih (advance ctx b) (learnMiss ctx tbl b)
        (flags := 0x00) (i := 0) (by decide) (fun j _ _ => flagTest_zero j) []
      refine ⟨takeSlot ctx tbl flags 7 b, literal ctx tbl b ++ c :: rest, ?_, before, ?_⟩
      · rw [compressFrom_last, hstream]
        simp
      · rw [drop_slotsOf _ hi, drop_slotsOf_eight]
        exact decodes_encoded slot hrest.ctrl
    · have hclear' (j : Nat) (hij : i + 1 ≤ j) (hj : j < 8) :
          flagTest (takeSlot ctx tbl flags i b) j = false := by
        rw [taken j hj, hclear j (by omega) hj, decide_eq_false (show j ≠ i by omega),
          Bool.and_false, Bool.or_false]
      obtain ⟨c, rest, hstream, hsame, hrest⟩ := ih (advance ctx b) (learnMiss ctx tbl b)
        (flags := takeSlot ctx tbl flags i b) (i := i + 1) (by omega) hclear'
        (lits ++ literal ctx tbl b)
      refine ⟨c, literal ctx tbl b ++ rest, ?_, fun j hj => ?_, ?_⟩
      · rw [compressFrom_inner _ _ _ _ _ _ h7, hstream, List.append_assoc]
      · rw [hsame j (by omega), before j hj]
      · rw [drop_slotsOf c hi]
        exact decodes_encoded ((hsame i (by omega)).trans slot) hrest

/-- A stream that `compress` made decodes to the input and ends with `NO_LIT`. -/
theorem decompresses_compress (bs : List Byte) : Decompresses (compress bs) bs .noLit := by
  obtain ⟨c, rest, hstream, -, h⟩ := decodes_compressFrom bs 0 (fun _ => 0x00) (flags := 0x00)
    (i := 0) (by decide) (fun j _ _ => flagTest_zero j) []
  have stream : compress bs = c :: rest := hstream
  rw [Decompresses, stream]
  exact h.ctrl

/-- Settles O44: the run over the stream of `compress`, as the document's function. -/
theorem referenceRoundTrip : Obligations.ReferenceRoundTrip := fun bs =>
  (decompresses_compress bs).decompressFrom_eq

end Sys2Proof.Reference
end

section
/-!
PROOFS. `DECOMPRESS` computes the document's `decompress` (43_decoder.md R192), always ends where
`OUT` has room (R188, R191), inverts `COMPRESS` (R190), and never rewrites a byte of output
(70_reset_and_hazards.md R264). In a session the registers are those of a run of the document's
function; every step goes on with that run.
-/

namespace Sys2Proof.Machine

open Reference (Decodes Decompresses slotsOf)

/-! ### A session under way -/

/-- `t` is in a decoder session that makes the output `total` and ends by the stop `r`: what it
has emitted, and `out`, which the slots and the input left still yield. -/
structure Decoding (total out : List Byte) (r : Stop) (t : State) : Prop where
  cap : t.outCap < 2 ^ 32
  inPos_le : t.inPos.toNat ≤ t.inLen.toNat
  dBitpos_le : t.dBitpos.toNat ≤ 8
  outLen_le : t.outLen.toNat ≤ t.outCap
  total_eq : total = outputOf t ++ out
  run : Decodes t.ctx (predict t) ((slotsOf t.dCtrl).drop t.dBitpos.toNat)
    ((inputOf t).drop t.inPos.toNat) out r

/-- Slot `i` of the control byte `c`, the next input byte being at `p`, is where the run of `s`
stands. -/
structure DecodingAt (c : Byte) (p : Word) (i : BitVec 4) (out : List Byte) (r : Stop) (s : State) :
    Prop where
  pos_le : p.toNat ≤ s.inLen.toNat
  slot_lt : i.toNat < 8
  run : Decodes s.ctx (predict s) (flagTest c i.toNat :: (slotsOf c).drop (i.toNat + 1))
    ((inputOf s).drop p.toNat) out r

section
variable {total out : List Byte} {r : Stop} {c : Byte} {p : Word} {i : BitVec 4} {s t : State}

/-- Reading the control byte, where the step does, is no more than the run does (43_decoder.md
R182). -/
theorem Decoding.atSlot (h : Decoding total out r s) (ha : DecAt s c p i) :
    DecodingAt c p i out r s := by
  have run := h.run
  rcases ha with ⟨h8, hne, rfl, rfl, rfl⟩ | ⟨h8, rfl, rfl, rfl⟩
  · obtain ⟨hlt, hsucc⟩ := toNat_succ_of_ne h.inPos_le hne
    have full : s.dBitpos.toNat = 8 := by rw [h8]; rfl
    rw [full, Reference.drop_slotsOf_eight, drop_inputOf_of_lt hlt] at run
    cases run with
    | ctrl run =>
      refine ⟨hsucc ▸ hlt, by decide, ?_⟩
      rw [hsucc]
      exact (Reference.drop_slotsOf _ (by decide : 0 < 8)) ▸ run
  · have hlt : s.dBitpos.toNat < 8 :=
      lt_of_le_of_ne h.dBitpos_le fun e => h8 (BitVec.eq_of_toNat_eq e)
    rw [Reference.drop_slotsOf _ hlt] at run
    exact ⟨h.inPos_le, hlt, run⟩

/-- Where the slot yields the byte `b`, the producing path appends it and the run goes on. -/
theorem Decoding.produce (h : Decoding total out r s) {b : Byte} {lit : Bool} {rest : List Byte}
    (hout : out = b :: rest) (hi : i.toNat < 8) (hp : p.toNat ≤ s.inLen.toNat)
    (hroom : s.outLen.toNat + 1 ≤ s.outCap)
    (hrun : Decodes (advance s.ctx b) (predict (decProduce c p i b lit s))
      ((slotsOf c).drop (i.toNat + 1)) ((inputOf s).drop p.toNat) rest r) :
    Decoding total rest r (decProduce c p i b lit s) := by
  have grown := outputOf_decProduce c p i b lit h.cap hroom
  have input : inputOf (decProduce c p i b lit s) = inputOf s :=
    inputOf_congr (by rw [decProduce_eq]) (by rw [decProduce_eq])
  have hsucc : (i + 1).toNat = i.toNat + 1 := by simp [BitVec.toNat_add]; omega
  have total_eq : total = outputOf (decProduce c p i b lit s) ++ rest := by
    rw [grown, h.total_eq, hout, List.append_assoc]
    rfl
  have hctx : (decProduce c p i b lit s).ctx = advance s.ctx b := by rw [decProduce_eq]
  have hctrl : (decProduce c p i b lit s).dCtrl = c := by rw [decProduce_eq]
  have hbit : (decProduce c p i b lit s).dBitpos = i + 1 := by rw [decProduce_eq]
  have hpos : (decProduce c p i b lit s).inPos = p := by rw [decProduce_eq]
  refine ⟨?_, ?_, ?_, ?_, total_eq, by rw [input, hctx, hctrl, hbit, hpos, hsucc]; exact hrun⟩
  · rw [decProduce_eq]; exact h.cap
  · rw [decProduce_eq]; exact hp
  · rw [decProduce_eq]; exact hsucc ▸ hi
  · rw [decProduce_eq]; exact (toNat_succ_of_room h.cap hroom).trans_le hroom

theorem predict_decProduce_hit (c : Byte) (p : Word) (i : BitVec 4) (b : Byte) (s : State) :
    predict (decProduce c p i b false s) = predict s := by
  funext j
  rw [predict_decProduce, if_neg (fun ⟨hf, _⟩ => by cases hf)]

theorem predict_decProduce_lit (c : Byte) (p : Word) (i : BitVec 4) (b : Byte) (s : State) :
    predict (decProduce c p i b true s) = Reference.learn (predict s) (hashKey s.ctx) b := by
  funext j
  rw [predict_decProduce, Reference.learn]
  simp

/-- The session has ended with the whole output in `OUT`. -/
structure Decoded (total : List Byte) (r : Stop) (t : State) : Prop where
  output : outputOf t = total
  stop : t.stop = r
  outLen_le : t.outLen.toNat ≤ t.outCap

/-- What a step does with its slot is what the run does with it. -/
theorem Decoding.slot (h : Decoding total out r s) (ha : DecodingAt c p i out r s)
    (hm : s.mode = .dec) (hs : decSlot c p i s = .ok t) :
    t.mode = .done ∧ Decoded total r t ∨ t.mode = .dec ∧ ∃ rest, Decoding total rest r t := by
  have run := ha.run
  rcases decSlot_ok_cases hs with ⟨hf, hroom, rfl⟩ | ⟨hf, hp, rfl⟩ | ⟨hf, hp, hroom, rfl⟩
  · rw [hf] at run
    cases run with
    | hit run =>
      refine .inr ⟨by rw [decProduce_eq]; exact hm, _, h.produce rfl ha.slot_lt ha.pos_le hroom ?_⟩
      rw [predict_decProduce_hit]
      exact run
  · rw [hf, hp, drop_inputOf_inLen] at run
    cases run with
    | noLit =>
      refine .inl ⟨rfl, ?_, rfl, h.outLen_le⟩
      rw [h.total_eq, List.append_nil]
      rfl
  · obtain ⟨hlt, hsucc⟩ := toNat_succ_of_ne ha.pos_le hp
    rw [hf, drop_inputOf_of_lt hlt] at run
    cases run with
    | lit run =>
      refine .inr ⟨by rw [decProduce_eq]; exact hm, _,
        h.produce rfl ha.slot_lt (hsucc ▸ hlt) hroom ?_⟩
      rw [predict_decProduce_lit, hsucc]
      exact run

theorem Decoding.step (h : Decoding total out r s) (hs : decStep s = .ok t) :
    t.mode = .done ∧ Decoded total r t ∨ t.mode = .dec ∧ ∃ rest, Decoding total rest r t := by
  obtain ⟨hm, ⟨h8, hp, rfl⟩ | ⟨c, p, i, ha, hslot⟩⟩ := decStep_ok_cases hs
  · have run := h.run
    have full : s.dBitpos.toNat = 8 := by rw [h8]; rfl
    rw [full, Reference.drop_slotsOf_eight, hp, drop_inputOf_inLen] at run
    cases run with
    | noCtrl =>
      refine .inl ⟨rfl, ?_, rfl, h.outLen_le⟩
      rw [h.total_eq, List.append_nil]
      rfl
  · exact h.slot (h.atSlot ha) hm hslot

/-- A step that finds `OUT` full is one whose output does not fit: the run still yields a byte. -/
theorem Decoding.length_of_full (h : Decoding total out r s) {e : Cause} (hm : s.mode = .dec)
    (hs : decStep s = .error e) : s.outCap < total.length := by
  rcases decStep_dec hm with ⟨-, -, hok⟩ | ⟨c, p, i, ha, hslot⟩
  · rw [hok] at hs
    cases hs
  · obtain ⟨hfull, hyields, -⟩ := decSlot_error_cases (hslot ▸ hs)
    have stands := h.atSlot ha
    have run := stands.run
    have nonempty : 0 < out.length := by
      cases hf : flagTest c i.toNat with
      | true =>
        rw [hf] at run
        cases run with
        | hit run => exact Nat.succ_pos _
      | false =>
        have hp : p ≠ s.inLen := hyields.resolve_left (hf ▸ nofun)
        obtain ⟨hlt, -⟩ := toNat_succ_of_ne stands.pos_le hp
        rw [hf, drop_inputOf_of_lt hlt] at run
        cases run with
        | lit run => exact Nat.succ_pos _
    rw [h.total_eq, List.length_append, length_outputOf]
    omega

end

/-! ### The whole session -/

/-- `t` is on the way to the output `total`, or holds it. -/
structure MakesOutput (total : List Byte) (r : Stop) (t : State) : Prop where
  running : t.mode = .dec → ∃ out, Decoding total out r t
  ended : t.mode = .done → Decoded total r t

theorem makesOutput_decStep {total : List Byte} {r : Stop} {s t : State}
    (h : MakesOutput total r s) (hs : decStep s = .ok t) : MakesOutput total r t := by
  obtain ⟨hm, -⟩ := decStep_ok_cases hs
  obtain ⟨out, hd⟩ := h.running hm
  rcases hd.step hs with ⟨hm', hdone⟩ | ⟨hm', hrest⟩
  · exact ⟨fun he => (by rw [hm'] at he; cases he), fun _ => hdone⟩
  · exact ⟨fun _ => hrest, fun he => (by rw [hm'] at he; cases he)⟩

theorem makesOutput_decStarted {s : State} {out : List Byte} {r : Stop} (hc : s.outCap < 2 ^ 32)
    (hd : Decompresses (inputOf s) out r) : MakesOutput out r (decStarted s) := by
  refine ⟨fun _ => ⟨out, hc, Nat.zero_le _, Nat.le_refl 8, Nat.zero_le _, rfl, ?_⟩, nofun⟩
  have zeroed : predict (decStarted s) = fun _ => 0x00 := funext fun k => predict_of_tbl_zero rfl k
  rw [zeroed]
  exact (Reference.drop_slotsOf_eight 0x00) ▸ hd

/-- `DECOMPRESS` leaves the document's output, or it is longer than `OUT` and the session
overflows. -/
theorem decompress_cases {s : State} {out : List Byte} {r : Stop} (h : Free s)
    (hc : s.outCap < 2 ^ 32) (hd : Decompresses (inputOf s) out r) :
    out.length ≤ s.outCap ∧ DecEnded (decFinal s) ∧ (decFinal s).stop = r ∧
        outputOf (decFinal s) = out ∧ exec .decompress s = .next (decFinal s) ∨
      s.outCap < out.length ∧ (decFinal s).mode = .dec ∧
        exec .decompress s = .next (raise .outOverflow 0x70000000#32 (decFinal s)) := by
  have makes : MakesOutput out r (decFinal s) :=
    decLoop_keeps (fun _ _ => makesOutput_decStep) _ (makesOutput_decStarted hc hd)
  have cap := (untouched_decFinal s).outCap
  rcases decompress_ends h with ⟨ht, he⟩ | ⟨hm, hfull, he⟩
  · have decoded := makes.ended ht.mode
    refine .inl ⟨?_, ht, decoded.stop, decoded.output, he⟩
    rw [← decoded.output, length_outputOf]
    exact cap ▸ decoded.outLen_le
  · obtain ⟨rest, hdec⟩ := makes.running hm
    exact .inr ⟨cap ▸ hdec.length_of_full hm hfull, hm, he⟩

/-- Settles O43: the output that fits and the one that does not. -/
theorem decompressRefinesTheDocument : Obligations.DecompressRefinesTheDocument := by
  intro s h hc
  have kept := untouched_decFinal s
  obtain ⟨r, hd⟩ := Reference.exists_decompresses (inputOf s)
  rcases decompress_cases h hc hd with ⟨hle, ht, -, hout, he⟩ | ⟨hlt, hm, he⟩
  · exact ⟨_, he, fun _ => ⟨hout, ht.mode, ht.stop, kept.err, kept.ecode, kept.faultInfo⟩,
      fun hlt => absurd hle (Nat.not_le_of_lt hlt)⟩
  · exact ⟨_, he, fun hle => absurd hle (Nat.not_le_of_lt hlt), fun _ => ⟨hm, rfl, fun herr =>
      record_raise_of_not_err (kept.err.trans herr) _ _⟩⟩

/-! ### The bytes of `OUT` beyond the output -/

theorem sameBeyond_decProduce {s t : State} (h : SameBeyond s t) (hc : t.outCap < 2 ^ 32)
    (hroom : t.outLen.toNat + 1 ≤ t.outCap) (c : Byte) (p : Word) (i : BitVec 4) (b : Byte)
    (lit : Bool) : SameBeyond s (decProduce c p i b lit t) := by
  intro q hq
  rw [decProduce_outLen, toNat_succ_of_room hc hroom] at hq
  rw [outRead_decProduce, if_neg (by omega), h q (by omega)]

theorem sameBeyond_decStep {s t u : State} (h : t.outCap < 2 ^ 32 ∧ SameBeyond s t)
    (hs : decStep t = .ok u) : u.outCap < 2 ^ 32 ∧ SameBeyond s u := by
  obtain ⟨hc, same⟩ := h
  refine ⟨by rw [decStep_frame hs]; exact hc, ?_⟩
  obtain ⟨-, ⟨-, -, rfl⟩ | ⟨c, p, i, -, hslot⟩⟩ := decStep_ok_cases hs
  · exact same
  · rcases decSlot_ok_cases hslot with ⟨-, hroom, rfl⟩ | ⟨-, -, rfl⟩ | ⟨-, -, hroom, rfl⟩
    · exact sameBeyond_decProduce same hc hroom _ _ _ _ _
    · exact same
    · exact sameBeyond_decProduce same hc hroom _ _ _ _ _

theorem sameBeyond_decFinal {s : State} (hc : s.outCap < 2 ^ 32) : SameBeyond s (decFinal s) :=
  (decLoop_keeps (P := fun t => t.outCap < 2 ^ 32 ∧ SameBeyond s t)
    (fun _ _ => sameBeyond_decStep) _ (s := decStarted s) ⟨hc, fun _ _ => rfl⟩).2

/-- Settles O42: an output is never longer than eight times the input, so it fits. -/
theorem decompressCompletes : Obligations.DecompressCompletes := by
  intro s h hc hroom
  have kept := untouched_decFinal s
  have frame := decFrame_decFinal s
  obtain ⟨r, hd⟩ := Reference.exists_decompresses (inputOf s)
  have bound := hd.length_le
  rw [List.length_nil, length_inputOf, Nat.zero_add] at bound
  rcases decompress_cases h hc hd with ⟨-, ht, -, hout, he⟩ | ⟨hlt, -, -⟩
  · have len : (decFinal s).outLen.toNat = (Reference.decompress (inputOf s)).length := by
      rw [← hout, length_outputOf]
    refine ⟨_, he, ht.mode, ht.stop, ht.inPos.trans kept.inLen, by omega,
      fun p hp => sameBeyond_decFinal hc p (by omega), ?_⟩
    rw [DecFrame, ht.mode] at frame
    exact frame
  · omega

/-! ### The round trip, and the output so far -/

/-- Settles O45: the stream is the document's, and its run ends with `NO_LIT`. -/
theorem roundTrip : Obligations.RoundTrip := by
  intro s t u hs hu h1 hcs hcu he hdone hin
  have stream : inputOf u = Reference.compress (inputOf s) := by
    rcases compress_cases hs h1 hcs with ⟨-, -, hout, hend⟩ | ⟨-, hm, hend⟩
    · rw [hend] at he
      cases he
      exact hin.trans hout
    · rw [hend] at he
      cases he
      rw [raise_mode, hm] at hdone
      cases hdone
  have run : Decompresses (inputOf u) (inputOf s) .noLit := by
    rw [stream]
    exact Reference.decompresses_compress (inputOf s)
  have kept := untouched_decFinal u
  rcases decompress_cases hu hcu run with ⟨hle, ht, hstop, hout, hend⟩ | ⟨hlt, hm, hend⟩
  · rw [length_inputOf] at hle
    exact ⟨_, hend, iff_of_true ht.mode hle, fun _ => ⟨hout, hstop, ht.inPos.trans kept.inLen,
      kept.err, kept.ecode, kept.faultInfo⟩⟩
  · rw [length_inputOf] at hlt
    have running : (raise .outOverflow 0x70000000#32 (decFinal u)).mode ≠ .done := by
      rw [raise_mode, hm]
      nofun
    exact ⟨_, hend, iff_of_false running (Nat.not_le_of_lt hlt), fun hd => absurd hd running⟩

/-- Settles O46: a step appends a byte, or leaves the output as it is. -/
theorem decoderNeverRewritesOutput : Obligations.DecoderNeverRewritesOutput := by
  intro s t hm hc he
  cases hs : decStep s with
  | error c =>
    rw [exec_decStep_of_error hs] at he
    cases he
    exact ⟨[], List.append_nil _⟩
  | ok u =>
    rw [exec_decStep_of_ok hs] at he
    cases he
    obtain ⟨-, ⟨-, -, rfl⟩ | ⟨c, p, i, -, hslot⟩⟩ := decStep_ok_cases hs
    · exact ⟨[], List.append_nil _⟩
    · rcases decSlot_ok_cases hslot with ⟨-, hroom, rfl⟩ | ⟨-, -, rfl⟩ | ⟨-, -, hroom, rfl⟩
      · exact ⟨_, (outputOf_decProduce c p i _ false hc hroom).symm⟩
      · exact ⟨[], List.append_nil _⟩
      · exact ⟨_, (outputOf_decProduce c (p + 1) i _ true hc hroom).symm⟩

end Sys2Proof.Machine
end
